-- ==== Sys2Proof/Word.lean ====
section
/-! DEFINITION. The widths of the block's values (spec 00_scope R7, 30_encoding R36). -/

namespace Sys2Proof

/-- `u8`: one byte (R7, R36). -/
abbrev Byte := BitVec 8

/-- `u16` and `s16`: two bytes; a signed field is read with `BitVec.toInt` (R7, R36). -/
abbrev Half := BitVec 16

/-- `u32`: four bytes (R7, R36). -/
abbrev Word := BitVec 32

end Sys2Proof
end

