-- ==== Sys2Proof/Syntax.lean ====
section
/-! DEFINITION. The thirteen commands of spec/opcode_table.json (30_encoding R37) with their operand fields. -/

namespace Sys2Proof

/-- The thirteen descriptor fields that SB_CREATE and SB_UPDATE carry, in frame order (30_encoding R37). -/
structure SbFields where
  side : Byte
  dispX : Half
  dispY : Half
  dispW : Half
  dispH : Half
  intW : Half
  intH : Half
  offX : Half
  offY : Half
  speedX : Half
  speedY : Half
  stepX : Half
  stepY : Half
deriving DecidableEq, Repr

/-- The commands, one constructor per row of the opcode table. -/
inductive Instr where
  /-- NOP (44_host_control R79). -/
  | nop
  /-- CONVERT (41_converter R58). -/
  | convert (bus side row ram : Byte)
  /-- SB_CREATE (42_scroll_descriptors R64). -/
  | sbCreate (fields : SbFields)
  /-- SB_UPDATE (42_scroll_descriptors R65). -/
  | sbUpdate (id : Byte) (fields : SbFields)
  /-- SB_DELETE (42_scroll_descriptors R66). -/
  | sbDelete (id : Byte)
  /-- ADVANCE (43_compositor R69). -/
  | advance
  /-- RENDER (43_compositor R72). -/
  | render
  /-- MERGE (43_compositor R76). -/
  | merge (side : Byte)
  /-- SET_DEST (44_host_control R80). -/
  | setDest (sel : Byte)
  /-- GET_DEST (44_host_control R81). -/
  | getDest
  /-- SET_MASK_EN (44_host_control R82). -/
  | setMaskEn (en : Byte)
  /-- GET_MASK_EN (44_host_control R83). -/
  | getMaskEn
  /-- LOAD (44_host_control R84): the u32 length field and the data bytes. -/
  | load (len : Word) (data : List Byte)
deriving DecidableEq, Repr

/-- The opcodes of 30_encoding R37, by name. -/
inductive Opcode where
  | nop | convert | sbCreate | sbUpdate | sbDelete | advance | render | merge
  | setDest | getDest | setMaskEn | getMaskEn | load
deriving DecidableEq, Repr

end Sys2Proof
end

