-- ==== Sys2Proof/WellFormed.lean ====
section
/-! DEFINITION. Which terms of `Instr` are commands that some frame spells. -/

namespace Sys2Proof

/-- A LOAD carries as many data bytes as its length field says (30_encoding R37, R38); every value of every other
field is an encoding (a reserved operand value is BAD_OPERAND at execution, 30_encoding R39). -/
def Instr.wellFormed : Instr → Bool
  | .load len data => data.length == len.toNat
  | .nop => true
  | .convert _ _ _ _ => true
  | .sbCreate _ => true
  | .sbUpdate _ _ => true
  | .sbDelete _ => true
  | .advance => true
  | .render => true
  | .merge _ => true
  | .setDest _ => true
  | .getDest => true
  | .setMaskEn _ => true
  | .getMaskEn => true

end Sys2Proof
end

