-- ==== Sys2Proof/Decode.lean ====
section
/-! DEFINITION. Frames to commands and back (30_encoding R35 to R39): the opcode map, the field readers, the decoder,
the encoder, and the table words the host asks about. -/

namespace Sys2Proof

/-- Why a frame spells no command. -/
inductive DecodeError where
  /-- A frame of length 0 (R35). -/
  | emptyFrame
  /-- Byte 0 is not an opcode of R37 (R39). -/
  | illegalOpcode
  /-- The frame's length is not the opcode's (R38). -/
  | badLength
deriving DecidableEq, Repr

/-- Every opcode, in the order of R37. -/
def Opcode.all : List Opcode :=
  [.nop, .convert, .sbCreate, .sbUpdate, .sbDelete, .advance, .render, .merge,
    .setDest, .getDest, .setMaskEn, .getMaskEn, .load]

/-- Byte 0 of the command's frame (R37). -/
def Opcode.code : Opcode → Byte
  | .nop => 0x00
  | .convert => 0x10
  | .sbCreate => 0x20
  | .sbUpdate => 0x21
  | .sbDelete => 0x22
  | .advance => 0x30
  | .render => 0x31
  | .merge => 0x32
  | .setDest => 0x40
  | .getDest => 0x41
  | .setMaskEn => 0x42
  | .getMaskEn => 0x43
  | .load => 0x50

/-- The opcode a byte names, if it is in R37 (mask 0xFF: the whole byte decides). -/
def Opcode.ofByte? (b : Byte) : Option Opcode :=
  Opcode.all.find? (fun o => o.code == b)

/-- The byte at an offset of a frame, field type `u8` (R36). -/
def byteAt (f : List Byte) (o : Nat) : Byte := f.getD o 0

/-- Field types `u16` and `s16`: big-endian, the more significant byte first (R36, 20_memory R28). -/
def halfAt (f : List Byte) (o : Nat) : Half := byteAt f o ++ byteAt f (o + 1)

/-- Field type `u32`: big-endian (R36). -/
def wordAt (f : List Byte) (o : Nat) : Word := halfAt f o ++ halfAt f (o + 2)

/-- The frame length R37 demands; LOAD's depends on its length field (R38). -/
def Opcode.frameLength (f : List Byte) : Opcode → Nat
  | .nop => 1
  | .convert => 5
  | .sbCreate => 26
  | .sbUpdate => 27
  | .sbDelete => 2
  | .advance => 1
  | .render => 1
  | .merge => 2
  | .setDest => 2
  | .getDest => 1
  | .setMaskEn => 2
  | .getMaskEn => 1
  | .load => 5 + (wordAt f 1).toNat

/-- The length check of R38; a LOAD frame shorter than its five header bytes is BAD_LENGTH. -/
def Opcode.lengthOk (f : List Byte) (o : Opcode) : Bool :=
  (o != .load || 5 ≤ f.length) && f.length == o.frameLength f

/-- The thirteen descriptor fields from offset `o` on (R37: offset 1 in SB_CREATE, 2 in SB_UPDATE). -/
def sbFieldsAt (f : List Byte) (o : Nat) : SbFields where
  side := byteAt f o
  dispX := halfAt f (o + 1)
  dispY := halfAt f (o + 3)
  dispW := halfAt f (o + 5)
  dispH := halfAt f (o + 7)
  intW := halfAt f (o + 9)
  intH := halfAt f (o + 11)
  offX := halfAt f (o + 13)
  offY := halfAt f (o + 15)
  speedX := halfAt f (o + 17)
  speedY := halfAt f (o + 19)
  stepX := halfAt f (o + 21)
  stepY := halfAt f (o + 23)

/-- The operand fields of a frame whose opcode and length are right (R37). -/
def decodeFields (f : List Byte) : Opcode → Instr
  | .nop => .nop
  | .convert => .convert (byteAt f 1) (byteAt f 2) (byteAt f 3) (byteAt f 4)
  | .sbCreate => .sbCreate (sbFieldsAt f 1)
  | .sbUpdate => .sbUpdate (byteAt f 1) (sbFieldsAt f 2)
  | .sbDelete => .sbDelete (byteAt f 1)
  | .advance => .advance
  | .render => .render
  | .merge => .merge (byteAt f 1)
  | .setDest => .setDest (byteAt f 1)
  | .getDest => .getDest
  | .setMaskEn => .setMaskEn (byteAt f 1)
  | .getMaskEn => .getMaskEn
  | .load => .load (wordAt f 1) (f.drop 5)

/-- The decoder, total on every byte string: opcode first, then the length (R35, R38, R39; 60_exceptions R87). -/
def decode (f : List Byte) : Except DecodeError Instr :=
  match f with
  | [] => .error .emptyFrame
  | op :: _ =>
    match Opcode.ofByte? op with
    | none => .error .illegalOpcode
    | some o => if o.lengthOk f then .ok (decodeFields f o) else .error .badLength

/-- The opcode of a command. -/
def Instr.opcode : Instr → Opcode
  | .nop => .nop
  | .convert _ _ _ _ => .convert
  | .sbCreate _ => .sbCreate
  | .sbUpdate _ _ => .sbUpdate
  | .sbDelete _ => .sbDelete
  | .advance => .advance
  | .render => .render
  | .merge _ => .merge
  | .setDest _ => .setDest
  | .getDest => .getDest
  | .setMaskEn _ => .setMaskEn
  | .getMaskEn => .getMaskEn
  | .load _ _ => .load

/-- The two bytes of a 16-bit field, big-endian (R36). -/
def halfBytes (h : Half) : List Byte := [h.extractLsb' 8 8, h.extractLsb' 0 8]

/-- The four bytes of a 32-bit field, big-endian (R36). -/
def wordBytes (w : Word) : List Byte :=
  [w.extractLsb' 24 8, w.extractLsb' 16 8, w.extractLsb' 8 8, w.extractLsb' 0 8]

/-- The 25 operand bytes of SB_CREATE (R37). -/
def sbFieldsBytes (x : SbFields) : List Byte :=
  [x.side] ++ halfBytes x.dispX ++ halfBytes x.dispY ++ halfBytes x.dispW ++ halfBytes x.dispH ++
    halfBytes x.intW ++ halfBytes x.intH ++ halfBytes x.offX ++ halfBytes x.offY ++
    halfBytes x.speedX ++ halfBytes x.speedY ++ halfBytes x.stepX ++ halfBytes x.stepY

/-- The operand bytes of a command, in the order of R37. -/
def Instr.operandBytes : Instr → List Byte
  | .nop => []
  | .convert bus side row ram => [bus, side, row, ram]
  | .sbCreate x => sbFieldsBytes x
  | .sbUpdate id x => id :: sbFieldsBytes x
  | .sbDelete id => [id]
  | .advance => []
  | .render => []
  | .merge side => [side]
  | .setDest sel => [sel]
  | .getDest => []
  | .setMaskEn en => [en]
  | .getMaskEn => []
  | .load len data => wordBytes len ++ data

/-- The encoder: the frame that spells a well-formed command (R35, R37). -/
def encode (i : Instr) : List Byte := i.opcode.code :: i.operandBytes

/-- `f` with zero bytes added up to length `n`. -/
def padTo (n : Nat) (f : List Byte) : List Byte := f ++ List.replicate (n - f.length) 0

/-- The frame whose bytes are the bits of `w`, byte 0 first, with zeros above `nbits` up to the opcode's frame length
(LOAD: its header first, then as many zero data bytes as its length field says). -/
def frameOfTableWord (nbits w : Nat) : List Byte :=
  let f := (List.range (nbits / 8)).map (fun i => BitVec.ofNat 8 (w >>> (8 * i)))
  match Opcode.ofByte? (byteAt f 0) with
  | none => f
  | some .load => let g := padTo 5 f; padTo (Opcode.frameLength g .load) g
  | some o => padTo (o.frameLength f) f

/-- The command the decoder reads from a table word; none where it refuses. -/
def decodeTableWord (nbits w : Nat) : Option Instr := (decode (frameOfTableWord nbits w)).toOption

end Sys2Proof
end

