-- ==== Sys2Proof/Config.lean ====
section
/-! DEFINITION. The implementation parameters of 00_scope R5, which the spec leaves open and the model takes as
arguments, and the one free value of the model. -/

namespace Sys2Proof

/-- `TOPOLOGY`: the half-panel wiring (00_scope R5, 41_converter R49). -/
inductive Topology where
  | uLoop
  | linear
deriving DecidableEq, Repr

/-- `MASK_POLARITY`: what a set mask bit means (00_scope R5, 43_compositor R75). -/
inductive MaskPolarity where
  | showDynamic
  | showStatic
deriving DecidableEq, Repr

/-- The parameters of 00_scope R5, fixed for the life of a machine (10_state R23; log 1). -/
structure Config where
  /-- `P`, panels per panel row. -/
  panels : Nat
  /-- `R`, panel rows per side. -/
  panelRows : Nat
  /-- `NUM_BUSES`. -/
  numBuses : Nat
  /-- `MAX_SB`. -/
  maxSb : Nat
  /-- `SLOT_BYTES`. -/
  slotBytes : Nat
  /-- `TOPOLOGY`. -/
  topology : Topology
  /-- `CTRL_MUX4`. -/
  ctrlMux4 : Byte
  /-- `CTRL_RAM[0]`, the bits of RAM1. -/
  ctrlRam1 : Byte
  /-- `CTRL_RAM[1]`, the bits of RAM2. -/
  ctrlRam2 : Byte
  /-- `CTRL_ADDR[0]`. -/
  ctrlAddr0 : Byte
  /-- `CTRL_ADDR[1]`. -/
  ctrlAddr1 : Byte
  /-- `CTRL_ADDR[2]`. -/
  ctrlAddr2 : Byte
  /-- `CTRL_ADDR[3]`. -/
  ctrlAddr3 : Byte
  /-- `MASK_POLARITY`. -/
  maskPolarity : MaskPolarity
deriving DecidableEq, Repr

/-- The default column of 00_scope R5; "not a claim about any built system". -/
def Config.default : Config where
  panels := 1
  panelRows := 1
  numBuses := 2
  maxSb := 4
  slotBytes := 4096
  topology := .uLoop
  ctrlMux4 := 0x30
  ctrlRam1 := 0x00
  ctrlRam2 := 0x04
  ctrlAddr0 := 0
  ctrlAddr1 := 1
  ctrlAddr2 := 2
  ctrlAddr3 := 3
  maskPolarity := .showDynamic

/-- Free value (log 7, DESIGN CHOICE): what the 32-bit RESULT holds after a CONVERT whose byte length does not fit
32 bits. The spec states no result there; nothing constrains this function. -/
opaque Config.freeResult : Nat → Word

end Sys2Proof
end

