-- ==== Sys2Proof/Machine/State.lean ====
section
/-! DEFINITION. The state of the machine as plain data (spec 10_state), the outcomes of a step, and reset (70_reset_and_hazards R95). -/

namespace Sys2Proof.Machine

/-- The two display sides (00_scope R9). -/
inductive Side where
  | a
  | b
deriving DecidableEq, Repr

/-- One value per display side (10_state R10: "per-side memories are indexed by side"). -/
structure Sided (α : Type) where
  a : α
  b : α
deriving DecidableEq, Repr

/-- The bytes of one region (20_memory R24), as the pairs (index, byte) that differ from 0, indices rising; an
unlisted byte reads 0, its reset value (70_reset_and_hazards R95; log 6). -/
abbrev Memory := List Host.Cell

/-- The canonical form of a region's list: indices strictly rising, no byte 0 listed. -/
abbrev Memory.wf (m : Memory) : Prop := (m.map Prod.fst).Pairwise (· < ·) ∧ ∀ c ∈ m, c.2 ≠ 0

/-- The memory regions of 20_memory R24. -/
inductive Region where
  | static (side : Side)
  | mask (side : Side)
  | dyn (side : Side)
  | disp (side : Side)
  | arena (slot : Nat)
  | lcd (bus : Nat)
deriving DecidableEq, Repr

/-- One slot of the scroll-buffer descriptor table, with the widths of 10_state R15. -/
structure Descriptor where
  occupied : Bool
  /-- The side set: bit 0 = A, bit 1 = B. -/
  side : BitVec 2
  dispX : Half
  dispY : Half
  dispW : Half
  dispH : Half
  intW : Half
  intH : Half
  bufSize : Word
  offX : Half
  offY : Half
  speedX : Half
  speedY : Half
  /-- Signed (s16). -/
  stepX : Half
  /-- Signed (s16). -/
  stepY : Half
  tickX : Half
  tickY : Half
deriving DecidableEq, Repr

/-- The reset value of a slot: every field 0 (10_state R15, 70_reset_and_hazards R95). -/
def Descriptor.free : Descriptor where
  occupied := false
  side := 0
  dispX := 0
  dispY := 0
  dispW := 0
  dispH := 0
  intW := 0
  intH := 0
  bufSize := 0
  offX := 0
  offY := 0
  speedX := 0
  speedY := 0
  stepX := 0
  stepY := 0
  tickX := 0
  tickY := 0

/-- What reaches the block from outside, one event at a time, each between commands (60_exceptions R92; 70_reset_and_hazards R96;
log 2). -/
inductive Event where
  /-- The host issues one command frame (30_encoding R35). -/
  | command (frame : List Byte)
  /-- Transmit consumer `bus` drives its BUSY input to `level` (10_state R21). -/
  | busy (bus : Nat) (level : Bool)
  /-- The host reads byte `index` of the region with this code (20_memory R24). -/
  | hostRead (code : Byte) (index : Nat)
  /-- Reset of the whole system (70_reset_and_hazards R95, R96). -/
  | reset
deriving DecidableEq, Repr

/-- The outcomes a command can report in STATUS (60_exceptions R86); the codes are in Machine/Flags.lean. -/
inductive Status where
  | ok
  | poolFull
  | allocFail
  | busy
  | invalidRef
  | badOperand
  | illegalOpcode
  | badLength
  | inUse
deriving DecidableEq, Repr

/-- The machine's state. -/
structure State where
  /-- The parameters of 00_scope R5: no command and no reset changes them (10_state R23; log 1). -/
  cfg : Config
  /-- STATUS (10_state R11). -/
  status : Byte
  /-- RESULT (10_state R12). -/
  result : Word
  /-- DEST (10_state R13). -/
  dest : Byte
  /-- MASK_EN (10_state R14). -/
  maskEn : BitVec 1
  /-- SB[0..MAX_SB-1] (10_state R15). -/
  slots : List Descriptor
  /-- ARENA[0..MAX_SB-1] (10_state R17). -/
  arena : List Memory
  /-- STATIC[A], STATIC[B] (10_state R18). -/
  static : Sided Memory
  /-- MASK[A], MASK[B] (10_state R18). -/
  mask : Sided Memory
  /-- DYN[A], DYN[B] (10_state R18). -/
  dyn : Sided Memory
  /-- DISP[A], DISP[B] (10_state R19). -/
  disp : Sided Memory
  /-- LCDBUF[0..NUM_BUSES-1] (10_state R20). -/
  lcd : List Memory
  /-- The BUSY inputs as the consumers drive them now (10_state R21; log 3). -/
  busy : List Bool
  /-- The events still to come, next first: the command stream of 10_state R22 with the environment's events between
  the commands. The model's own field (log 2). -/
  inputs : List Event
  /-- The byte the host got from its last HostRead (20_memory R24, 60_exceptions R92). The model's own field (log 4). -/
  port : Option Byte
deriving DecidableEq, Repr

/-- A step never faults: "The block has no fault state" (60_exceptions R94), so there is no reason (log 8). -/
inductive Fault where
deriving DecidableEq, Repr

/-- Why the model gives no meaning; each but the first is a model-level refusal of 60_exceptions R94 (log 9). -/
inductive Refusal where
  /-- Raised by `exec` for a command without a meaning; no arm raises it. Safe. -/
  | notModelled (mnemonic : String)
  /-- Raised by `step` on a frame of length 0, which spells no command (30_encoding R35). Safe. -/
  | emptyFrame
  /-- Raised by `step` on a HostRead outside an existing region (20_memory R24). Safe. -/
  | hostReadOutside
  /-- Raised by `step` when the parameters lie outside 00_scope R5. Safe. -/
  | configuration
  /-- Raised by `step` on a BUSY event of a bus that does not exist; consumers are one per bus (60_exceptions R92;
  log 9). Safe. -/
  | noSuchBus
deriving DecidableEq, Repr

/-- Reset of a machine with parameters `cfg`, events `inputs` still to come (70_reset_and_hazards R95, R96). -/
def State.resetWith (cfg : Config) (inputs : List Event) : State where
  cfg := cfg
  status := 0x00
  result := 0
  dest := 0xFF
  maskEn := 0
  slots := List.replicate cfg.maxSb Descriptor.free
  arena := List.replicate cfg.maxSb []
  static := ⟨[], []⟩
  mask := ⟨[], []⟩
  dyn := ⟨[], []⟩
  disp := ⟨[], []⟩
  lcd := List.replicate cfg.numBuses []
  busy := List.replicate cfg.numBuses false
  inputs := inputs
  port := none

/-- The machine right after reset: the default parameters of 00_scope R5 and no event pending (log 1, log 2). -/
def State.reset : State := State.resetWith Config.default []

end Sys2Proof.Machine
end

