-- ==== Sys2Proof/Machine/Flags.lean ====
section
/-! DEFINITION. The codes of the STATUS register (60_exceptions R86): the block has no other flags (10_state R22). -/

namespace Sys2Proof.Machine

/-- The code of each outcome (60_exceptions R86). -/
def Status.code : Status → Byte
  | .ok => 0x00
  | .poolFull => 0x01
  | .allocFail => 0x02
  | .busy => 0x03
  | .invalidRef => 0x04
  | .badOperand => 0x05
  | .illegalOpcode => 0x06
  | .badLength => 0x07
  | .inUse => 0x08

end Sys2Proof.Machine
end

