-- ==== Sys2Proof/Machine/Geometry.lean ====
section
/-! DEFINITION. The fixed constants and derived sizes (00_scope R4, R6), which configurations are admitted (00_scope
R5), and where a pixel lies in a bitmap buffer (20_memory R25). -/

namespace Sys2Proof

/-- `W`: display columns per side (00_scope R6). -/
def Config.width (c : Config) : Nat := 96 * c.panels

/-- `H`: display rows per side (00_scope R6). -/
def Config.height (c : Config) : Nat := 64 * c.panelRows

/-- `N`: half-panels per bus (00_scope R6). -/
def Config.halfPanels (c : Config) : Nat := 2 * c.panels

/-- `BBS`: bytes per bitmap buffer (00_scope R6). -/
def Config.bitmapBytes (c : Config) : Nat := 768 * c.panels * c.panelRows

/-- `SLICE`: bytes per backplane slice of an LCD buffer (00_scope R6). -/
def Config.sliceBytes (c : Config) : Nat := 120 * c.halfPanels

/-- `L`: bytes per converted frame (00_scope R6). -/
def Config.frameBytes (c : Config) : Nat := 4 * c.sliceBytes

/-- The control-byte groups share no bit: `CTRL_MUX4`, either `CTRL_RAM` and any `CTRL_ADDR` (00_scope R5). -/
def Config.controlDisjoint (c : Config) : Bool :=
  let rams := [c.ctrlRam1, c.ctrlRam2]
  let addrs := [c.ctrlAddr0, c.ctrlAddr1, c.ctrlAddr2, c.ctrlAddr3]
  rams.all (fun r => c.ctrlMux4 &&& r == 0) && addrs.all (fun k => c.ctrlMux4 &&& k == 0) &&
    rams.all (fun r => addrs.all (fun k => r &&& k == 0))

/-- The parameters are legal values of 00_scope R5; the model refuses any other configuration. -/
def Config.admitted (c : Config) : Bool :=
  1 ≤ c.panels && 1 ≤ c.panelRows && 1 ≤ c.numBuses && c.numBuses ≤ 63 && 1 ≤ c.maxSb && c.maxSb ≤ 127 &&
    1 ≤ c.slotBytes && c.controlDisjoint

/-- The byte of a bitmap buffer that holds pixel (x, y) (20_memory R25). -/
def Config.byteIndex (c : Config) (x y : Nat) : Nat :=
  ((y / 32) * c.panels + x / 96) * 384 + (x % 96) * 4 + (y % 32) / 8

/-- The bit of that byte: bit 0 is the topmost of its 8 rows (20_memory R25, R26). -/
def bitIndex (y : Nat) : Nat := (y % 32) % 8

/-- `emod(a, m)` of 00_scope R7, for m ≥ 1. -/
def emod (a : Int) (m : Nat) : Nat := (a % (m : Int)).toNat

/-- `ceil_div(a, b)` of 00_scope R7, for b ≥ 1. -/
def ceilDiv (a b : Nat) : Nat := (a + b - 1) / b

/-- `rev8(v)` of 00_scope R7: bit i of the result is bit 7 - i of v. -/
def rev8 (v : Byte) : Byte := v.reverse

/-- `bufSize(iw, ih) = iw × ceil_div(ih, 8)` (42_scroll_descriptors R61). -/
def bufSizeOf (iw ih : Nat) : Nat := iw * ceilDiv ih 8

end Sys2Proof
end

