-- ==== Sys2Proof/Machine/Ops.lean ====
section
/-! DEFINITION. The named operations over regions, registers, slots and inputs, the two endings of a command (`finish`
and `raise`, 00_scope R8), and the HostRead port. -/

namespace Sys2Proof.Machine

/-- The value of one side. -/
def Sided.get {α : Type} (p : Sided α) : Side → α
  | .a => p.a
  | .b => p.b

/-- `p` with the value of one side replaced. -/
def Sided.set {α : Type} (p : Sided α) (side : Side) (v : α) : Sided α :=
  match side with
  | .a => { p with a := v }
  | .b => { p with b := v }

/-- `M[r][i]` (00_scope R8): a byte that is not listed is 0. -/
def Memory.read : Memory → Nat → Byte
  | [], _ => 0
  | (k, v) :: m, i => if i < k then 0 else if i = k then v else Memory.read m i

/-- `M[r][i] <- v` (00_scope R8), keeping the canonical form. -/
def Memory.write : Memory → Nat → Byte → Memory
  | [], i, v => if v = 0 then [] else [(i, v)]
  | (k, w) :: m, i, v =>
    if i < k then (if v = 0 then (k, w) :: m else (i, v) :: (k, w) :: m)
    else if i = k then (if v = 0 then m else (k, v) :: m)
    else (k, w) :: Memory.write m i v

/-- The region whose bytes from index `k` on are the listed bytes. -/
def Memory.ofBytesFrom : Nat → List Byte → Memory
  | _, [] => []
  | k, v :: vs => if v = 0 then Memory.ofBytesFrom (k + 1) vs else (k, v) :: Memory.ofBytesFrom (k + 1) vs

/-- The region whose bytes are the listed ones, byte 0 first. -/
def Memory.ofBytes (bytes : List Byte) : Memory := Memory.ofBytesFrom 0 bytes

/-- `for j in 0..<n: r[j] <- f j`, for a region of n bytes. -/
def Memory.ofFn (n : Nat) (f : Nat → Byte) : Memory := Memory.ofBytes ((List.range n).map f)

/-- `for j in 0..<len: r[j] <- data[j]` (44_host_control R84): the bytes above stay. -/
def Memory.load (m : Memory) (data : List Byte) : Memory :=
  Memory.ofBytes data ++ m.filter (fun c => data.length ≤ c.1)

/-- A byte with bit `k` set to `b`, the other bits unchanged. -/
def setBit (v : Byte) (k : Nat) (b : Bool) : Byte :=
  if b then v ||| (1#8 <<< k) else v &&& ~~~(1#8 <<< k)

/-- `PixRead(r, x, y)` (20_memory R25). -/
def pixRead (c : Config) (m : Memory) (x y : Nat) : Bool :=
  (m.read (c.byteIndex x y)).getLsbD (bitIndex y)

/-- `PixWrite(r, x, y, b)` (20_memory R25). -/
def pixWrite (c : Config) (m : Memory) (x y : Nat) (b : Bool) : Memory :=
  m.write (c.byteIndex x y) (setBit (m.read (c.byteIndex x y)) (bitIndex y) b)

/-- The outcome of a meaning. -/
abbrev Result := Host.Outcome State Fault Refusal

/-- `finish(v)` (00_scope R8): STATUS OK and RESULT v end the command. -/
def State.finish (s : State) (v : Word) : State := { s with status := Status.ok.code, result := v }

/-- `raise Status(code)` (00_scope R8, 60_exceptions R88): STATUS and RESULT 0, nothing else. -/
def State.raise (s : State) (c : Status) : State := { s with status := c.code, result := 0 }

/-- `DEST <- sel` (10_state R13). -/
def State.setDest (s : State) (sel : Byte) : State := { s with dest := sel }

/-- `MASK_EN <- b` (10_state R14). -/
def State.setMaskEn (s : State) (b : BitVec 1) : State := { s with maskEn := b }

/-- `SB[i]` (10_state R15). -/
def State.slot (s : State) (i : Nat) : Descriptor := s.slots.getD i Descriptor.free

/-- `SB[i] <- e`. -/
def State.setSlot (s : State) (i : Nat) (e : Descriptor) : State := { s with slots := s.slots.set i e }

/-- The whole descriptor table replaced (ADVANCE). -/
def State.setSlots (s : State) (es : List Descriptor) : State := { s with slots := es }

/-- `BUSY[b]` (10_state R21). -/
def State.busyAt (s : State) (b : Nat) : Bool := s.busy.getD b false

/-- Consumer `b` drives BUSY[b] to `v` (60_exceptions R92). -/
def State.setBusy (s : State) (b : Nat) (v : Bool) : State := { s with busy := s.busy.set b v }

/-- The events that remain. -/
def State.setInputs (s : State) (es : List Event) : State := { s with inputs := es }

/-- The byte the host gets on the HostRead port. -/
def State.setPort (s : State) (v : Byte) : State := { s with port := some v }

/-- Both dynamic layers replaced (RENDER, dynamic-buffer reset). -/
def State.setDyn (s : State) (d : Sided Memory) : State := { s with dyn := d }

/-- `ZeroDyn()` (42_scroll_descriptors R62): every byte of DYN[A] and DYN[B] becomes 0. -/
def State.zeroDyn (s : State) : State := s.setDyn ⟨[], []⟩

/-- The bytes of a region (20_memory R24). -/
def State.region (s : State) : Region → Memory
  | .static d => s.static.get d
  | .mask d => s.mask.get d
  | .dyn d => s.dyn.get d
  | .disp d => s.disp.get d
  | .arena i => s.arena.getD i []
  | .lcd b => s.lcd.getD b []

/-- The bytes of one region replaced. -/
def State.setRegion (s : State) (r : Region) (m : Memory) : State :=
  match r with
  | .static d => { s with static := s.static.set d m }
  | .mask d => { s with mask := s.mask.set d m }
  | .dyn d => { s with dyn := s.dyn.set d m }
  | .disp d => { s with disp := s.disp.set d m }
  | .arena i => { s with arena := s.arena.set i m }
  | .lcd b => { s with lcd := s.lcd.set b m }

/-- Byte `i` of a region. -/
def State.readByte (s : State) (r : Region) (i : Nat) : Byte := (s.region r).read i

/-- The size of a region in bytes (20_memory R24): BBS for a bitmap buffer, the slot's bufSize for an arena as the
host sees it (0 when unoccupied), L for an LCD buffer; 0 for a slot or bus that does not exist. -/
def State.regionSize (s : State) : Region → Nat
  | .static _ => s.cfg.bitmapBytes
  | .mask _ => s.cfg.bitmapBytes
  | .dyn _ => s.cfg.bitmapBytes
  | .disp _ => s.cfg.bitmapBytes
  | .arena i => if i < s.cfg.maxSb ∧ (s.slot i).occupied then (s.slot i).bufSize.toNat else 0
  | .lcd b => if b < s.cfg.numBuses then s.cfg.frameBytes else 0

/-- The region a HostRead code names (20_memory R24). -/
def regionOfCode (c : Config) (code : Byte) : Option Region :=
  if code.toNat = 0x00 then some (.static .a)
  else if code.toNat = 0x01 then some (.static .b)
  else if code.toNat = 0x10 then some (.mask .a)
  else if code.toNat = 0x11 then some (.mask .b)
  else if code.toNat = 0x20 then some (.dyn .a)
  else if code.toNat = 0x21 then some (.dyn .b)
  else if code.toNat = 0x30 then some (.disp .a)
  else if code.toNat = 0x31 then some (.disp .b)
  else if 0x80 ≤ code.toNat ∧ code.toNat < 0x80 + c.maxSb then some (.arena (code.toNat - 0x80))
  else if 0x40 ≤ code.toNat ∧ code.toNat < 0x40 + c.numBuses then some (.lcd (code.toNat - 0x40))
  else none

/-- `HostRead(code, i)` (20_memory R24): the byte, or none where the model refuses. -/
def State.hostRead (s : State) (code : Byte) (i : Nat) : Option Byte :=
  match regionOfCode s.cfg code with
  | none => none
  | some r => if i < s.regionSize r then some (s.readByte r i) else none

end Sys2Proof.Machine
end

