-- ==== Sys2Proof/Machine/Operands.lean ====
section
/-! DEFINITION. The operand value sets of 30_encoding R41 to R44: sides, RAM select, destination selectors, sentinels. -/

namespace Sys2Proof.Machine

/-- No bit of a side byte outside 0b11 (30_encoding R41: bits 7:2 are reserved). -/
def sideSetLegal (side : Byte) : Bool := side &&& 0xFC == 0

/-- The one side a CONVERT names: 0x01 = A, 0x02 = B, any other value is reserved (30_encoding R41). -/
def oneSide? (side : Byte) : Option Side :=
  if side = 0x01 then some .a else if side = 0x02 then some .b else none

/-- The sides a MERGE names: 1 = A, 2 = B, 3 = both, any other value is reserved (30_encoding R41). -/
def mergeSides? (side : Byte) : Option (List Side) :=
  if side = 0x01 then some [.a] else if side = 0x02 then some [.b] else if side = 0x03 then some [.a, .b] else none

/-- The selectors of 30_encoding R43 that name layer memories, with the regions a LOAD writes; `none` for every other
byte. -/
def layerRegions? (sel : Byte) : Option (List Region) :=
  if sel = 0x00 then some [.static .a]
  else if sel = 0x01 then some [.static .b]
  else if sel = 0x02 then some [.static .a, .static .b]
  else if sel = 0x10 then some [.mask .a]
  else if sel = 0x11 then some [.mask .b]
  else if sel = 0x12 then some [.mask .a, .mask .b]
  else if sel = 0x20 then some [.dyn .a]
  else if sel = 0x21 then some [.dyn .b]
  else if sel = 0x22 then some [.dyn .a, .dyn .b]
  else none

/-- `NONE` (30_encoding R43). -/
def destNone : Byte := 0xFF

/-- The slot id of a selector of the form 0x80 + id, NONE excepted (30_encoding R43). -/
def scrollId? (sel : Byte) : Option Nat :=
  if 0x80 ≤ sel.toNat ∧ sel ≠ destNone then some (sel.toNat - 0x80) else none

/-- Slot `i` exists and holds a live scroll buffer; otherwise a reference to it is invalid (60_exceptions R86). -/
def State.liveSlot (s : State) (i : Nat) : Bool := i < s.cfg.maxSb && (s.slot i).occupied

/-- The sentinel of a u16 field (30_encoding R44). -/
def keepHalf : Half := 0xFFFF

/-- The sentinel of an s16 field, -32768 (30_encoding R44). -/
def keepStep : Half := 0x8000

/-- The sentinel of the side field (30_encoding R44). -/
def keepSide : Byte := 0xFF

/-- Sentinel merge of a u16 field (42_scroll_descriptors R63). -/
def mergeHalf (operand old : Half) : Half := if operand = keepHalf then old else operand

/-- Sentinel merge of an s16 field (42_scroll_descriptors R63). -/
def mergeStep (operand old : Half) : Half := if operand = keepStep then old else operand

/-- Sentinel merge of the side field (42_scroll_descriptors R63). -/
def mergeSide (operand : Byte) (old : BitVec 2) : BitVec 2 :=
  if operand = keepSide then old else operand.setWidth 2

/-- The operand check of SB_CREATE (42_scroll_descriptors R64). -/
def createLegal (x : SbFields) : Bool := sideSetLegal x.side && x.intW != 0 && x.intH != 0

/-- The operand check of SB_UPDATE (42_scroll_descriptors R65): the sentinels pass. -/
def updateLegal (x : SbFields) : Bool :=
  (x.side == keepSide || sideSetLegal x.side) && x.intW != 0 && x.intH != 0

end Sys2Proof.Machine
end

