-- ==== Sys2Proof/Machine/Compositor.lean ====
section
/-! DEFINITION. The scroll-layer compositor: ADVANCE, RENDER, MERGE (spec 43_compositor). -/

namespace Sys2Proof.Machine

/-- The tick counter after one ADVANCE (43_compositor R68). -/
def advanceTick (speed tick : Half) : Half :=
  if speed = 0 then tick
  else if speed.toNat ≤ tick.toNat + 1 then 0
  else BitVec.ofNat 16 (tick.toNat + 1)

/-- The offset after one ADVANCE: it moves by the signed step when the counter reaches the speed, and wraps into
`[0, dim)` (43_compositor R68). -/
def advanceOffset (dim : Nat) (off speed step tick : Half) : Half :=
  if speed = 0 then off
  else if speed.toNat ≤ tick.toNat + 1 then BitVec.ofNat 16 (emod (off.toNat + step.toInt) dim)
  else off

/-- `AdvanceAxis` on both axes of an occupied slot; a free slot stays (43_compositor R68, R69). -/
def Descriptor.advance (e : Descriptor) : Descriptor :=
  if e.occupied then
    { e with
      offX := advanceOffset e.intW.toNat e.offX e.speedX e.stepX e.tickX
      tickX := advanceTick e.speedX e.tickX
      offY := advanceOffset e.intH.toNat e.offY e.speedY e.stepY e.tickY
      tickY := advanceTick e.speedY e.tickY }
  else e

/-- The state after an ADVANCE: the slots are independent, so their order shows nowhere (43_compositor R69). -/
def advanceState (s : State) : State := (s.setSlots (s.slots.map Descriptor.advance)).finish 0

/-- ADVANCE (43_compositor R69). -/
def execAdvance (s : State) : Result := .next (advanceState s)

/-- `XE`: one past the last window column on the display (43_compositor R70); `XS` is dispX. -/
def windowEndX (c : Config) (e : Descriptor) : Nat := min c.width (e.dispX.toNat + e.dispW.toNat)

/-- `YE`: one past the last window row on the display (43_compositor R70); `YS` is dispY. -/
def windowEndY (c : Config) (e : Descriptor) : Nat := min c.height (e.dispY.toNat + e.dispH.toNat)

/-- The window's pixels that lie on the display (43_compositor R70). -/
def windowPixels (c : Config) (e : Descriptor) : List (Nat × Nat) :=
  (List.range' e.dispX.toNat (windowEndX c e - e.dispX.toNat)).flatMap fun x =>
    (List.range' e.dispY.toNat (windowEndY c e - e.dispY.toNat)).map fun y => (x, y)

/-- `SbPix(i, ix, iy)`: a pixel of a slot's internal bitmap (20_memory R27). -/
def sbPix (e : Descriptor) (bitmap : Memory) (ix iy : Nat) : Bool :=
  (bitmap.read (ix * ceilDiv e.intH.toNat 8 + iy / 8)).getLsbD (iy % 8)

/-- The internal pixel the window shows at display pixel (x, y): the toroidal wrap of 43_compositor R71. -/
def sourcePixel (e : Descriptor) (bitmap : Memory) (x y : Nat) : Bool :=
  sbPix e bitmap (emod ((x : Int) - e.dispX.toNat + e.offX.toNat) e.intW.toNat)
    (emod ((y : Int) - e.dispY.toNat + e.offY.toNat) e.intH.toNat)

/-- `RenderSlot(i, DYN[s])`: every window pixel overwritten by its source pixel (43_compositor R71). -/
def renderSlot (c : Config) (e : Descriptor) (bitmap dyn : Memory) : Memory :=
  (windowPixels c e).foldl (fun m p => pixWrite c m p.1 p.2 (sourcePixel e bitmap p.1 p.2)) dyn

/-- One slot rendered into the sides its side set names (43_compositor R72). -/
def renderSides (c : Config) (e : Descriptor) (bitmap : Memory) (dyn : Sided Memory) : Sided Memory :=
  if e.occupied then
    { a := if e.side.getLsbD 0 then renderSlot c e bitmap dyn.a else dyn.a
      b := if e.side.getLsbD 1 then renderSlot c e bitmap dyn.b else dyn.b }
  else dyn

/-- The dynamic layers after a RENDER: slots in ascending order, so the higher id wins an overlap
(43_compositor R72). -/
def renderedDyn (s : State) : Sided Memory :=
  (List.range s.cfg.maxSb).foldl (fun d i => renderSides s.cfg (s.slot i) (s.region (.arena i)) d) s.dyn

/-- The state after a RENDER (43_compositor R72). -/
def renderState (s : State) : State := (s.setDyn (renderedDyn s)).finish 0

/-- RENDER (43_compositor R72). -/
def execRender (s : State) : Result := .next (renderState s)

/-- `Merge(st, mk, dy)` for one byte (43_compositor R75). -/
def mergeByte (en : BitVec 1) (polarity : MaskPolarity) (st mk dy : Byte) : Byte :=
  if en = 0 then st
  else
    match polarity with
    | .showDynamic => (st &&& ~~~mk) ||| (dy &&& mk)
    | .showStatic => (st &&& mk) ||| (dy &&& ~~~mk)

/-- The display buffer a MERGE of side `d` computes: every byte anew (43_compositor R75, R76). -/
def mergedDisp (s : State) (d : Side) : Memory :=
  Memory.ofFn s.cfg.bitmapBytes fun j =>
    mergeByte s.maskEn s.cfg.maskPolarity ((s.static.get d).read j) ((s.mask.get d).read j) ((s.dyn.get d).read j)

/-- The state after a MERGE (43_compositor R76). -/
def mergeState (side : Byte) (s : State) : State :=
  match mergeSides? side with
  | none => s.raise .badOperand
  | some ds => (ds.foldl (fun t d => t.setRegion (.disp d) (mergedDisp s d)) s).finish 0

/-- MERGE (43_compositor R76). -/
def execMerge (side : Byte) (s : State) : Result := .next (mergeState side s)

end Sys2Proof.Machine
end

