-- ==== Sys2Proof/Machine/Converter.lean ====
section
/-! DEFINITION. The converter and CONVERT (spec 41_converter). -/

namespace Sys2Proof.Machine

/-- The four backplanes COM0..COM3 (00_scope R9). -/
inductive Backplane where
  | com0
  | com1
  | com2
  | com3
deriving DecidableEq, Repr

/-- `ORDER`: the backplane of each step, the same for every conversion (41_converter R48). -/
def backplaneOrder : List Backplane := [.com2, .com1, .com3, .com0]

/-- `offset(COMk) = k`, the byte of a column that belongs to the backplane (41_converter R51). -/
def Backplane.offset : Backplane → Nat
  | .com0 => 0
  | .com1 => 1
  | .com2 => 2
  | .com3 => 3

/-- `CTRL_ADDR[k]` (00_scope R5). -/
def ctrlAddr (c : Config) : Backplane → Byte
  | .com0 => c.ctrlAddr0
  | .com1 => c.ctrlAddr1
  | .com2 => c.ctrlAddr2
  | .com3 => c.ctrlAddr3

/-- `CTRL_RAM[ram]`: operand 0 is RAM1, 1 is RAM2 (30_encoding R42). -/
def ctrlRam (c : Config) (ram : Byte) : Byte := if ram = 0 then c.ctrlRam1 else c.ctrlRam2

/-- `ctrl(ram, k)`, the control byte that closes a column group (30_encoding R45). -/
def ctrlByte (c : Config) (ram : Byte) (k : Backplane) : Byte := c.ctrlMux4 ||| ctrlRam c ram ||| ctrlAddr c k

/-- The bit-reversed backplanes (41_converter R52). -/
def Backplane.reversed : Backplane → Bool
  | .com0 => false
  | .com1 => false
  | .com2 => true
  | .com3 => true

/-- `MSB_FIRST`: how the consumer must shift a slice's bytes onto the wire, an attribute the block does not apply
itself (41_converter R56). -/
def Backplane.msbFirst : Backplane → Bool
  | .com0 => true
  | .com1 => true
  | .com2 => false
  | .com3 => false

/-- A source half-panel of a panel row (41_converter R49). -/
structure HalfPanel where
  /-- 0 = upper, 1 = lower. -/
  row : Nat
  col : Nat
  rotated : Bool
deriving DecidableEq, Repr

/-- `HalfPanelOf(h)` (41_converter R49). -/
def halfPanelOf (c : Config) (h : Nat) : HalfPanel :=
  match c.topology with
  | .uLoop => if c.panels ≤ h then ⟨0, h - c.panels, false⟩ else ⟨1, c.panels - 1 - h, true⟩
  | .linear => ⟨h / c.panels, h % c.panels, false⟩

/-- The first byte of panel row `row` in a bitmap buffer (41_converter R50). -/
def panelRowBase (c : Config) (row : Nat) : Nat := row * c.halfPanels * 384

/-- The first byte of a half-panel (41_converter R50, R51). -/
def halfPanelBase (c : Config) (base : Nat) (p : HalfPanel) : Nat := base + (p.row * c.panels + p.col) * 384

/-- The raw column byte of chain index `h`, column `col`, backplane `k` (41_converter R51). -/
def rawColumnByte (c : Config) (src : Memory) (base h col : Nat) (k : Backplane) : Byte :=
  let p := halfPanelOf c h
  if p.rotated then rev8 (src.read (halfPanelBase c base p + (95 - col) * 4 + (3 - k.offset)))
  else src.read (halfPanelBase c base p + col * 4 + k.offset)

/-- `EndianCorrect` (41_converter R52). -/
def endianCorrect (raw : Byte) (k : Backplane) : Byte := if k.reversed then rev8 raw else raw

/-- `v[col]`: the column byte that enters nibble assembly (41_converter R52). -/
def columnByte (c : Config) (src : Memory) (base h : Nat) (k : Backplane) (col : Nat) : Byte :=
  endianCorrect (rawColumnByte c src base h col k) k

/-- `d[n]` of the 100 data bytes made from the column bytes `v` (41_converter R53): region q = n div 25; its first ten
bytes are byte-aligned, the others join the previous column's high nibble and the current one's low nibble. -/
def dataByte (v : Nat → Byte) (n : Nat) : Byte :=
  let q := n / 25
  let r := n % 25
  if r < 10 then v (24 * q + r)
  else
    let col := 24 * q + r
    let prev := v (col - 1)
    let cur := if col ≤ 95 then v col else 0x00
    (prev >>> 4) ||| (cur <<< 4)

/-- One column-driver group: five data bytes and the control byte (41_converter R54). -/
def columnGroup (v : Nat → Byte) (ctrl : Byte) (g : Nat) : List Byte :=
  [dataByte v (5 * g), dataByte v (5 * g + 1), dataByte v (5 * g + 2), dataByte v (5 * g + 3), dataByte v (5 * g + 4),
    ctrl]

/-- The 120 bytes of one half-panel in one slice: 20 groups (41_converter R54). -/
def halfPanelBytes (c : Config) (src : Memory) (base : Nat) (ram : Byte) (k : Backplane) (h : Nat) : List Byte :=
  (List.range 20).flatMap (columnGroup (columnByte c src base h k) (ctrlByte c ram k))

/-- One backplane slice: the half-panels in chain order (41_converter R49, R55). -/
def sliceOf (c : Config) (src : Memory) (base : Nat) (ram : Byte) (k : Backplane) : List Byte :=
  (List.range c.halfPanels).flatMap (halfPanelBytes c src base ram k)

/-- The whole converted frame, byte 0 first: the loops of 41_converter R58 write its bytes in this order, so byte
s·SLICE + h·120 + g·6 + t stands at that index (R55). -/
def lcdFrame (c : Config) (src : Memory) (base : Nat) (ram : Byte) : List Byte :=
  backplaneOrder.flatMap (sliceOf c src base ram)

/-- RESULT of a CONVERT: the byte length L (41_converter R58); a length beyond 32 bits leaves RESULT a free value
(log 7). -/
def lengthResult (n : Nat) : Word := if n < 2 ^ 32 then BitVec.ofNat 32 n else Config.freeResult n

/-- The state after a CONVERT (41_converter R58). -/
def convertState (bus side row ram : Byte) (s : State) : State :=
  match oneSide? side with
  | none => s.raise .badOperand
  | some d =>
    if s.cfg.numBuses ≤ bus.toNat ∨ s.cfg.panelRows ≤ row.toNat ∨ 1 < ram.toNat then s.raise .badOperand
    else if s.busyAt bus.toNat then s.raise .busy
    else
      let frame := lcdFrame s.cfg (s.disp.get d) (panelRowBase s.cfg row.toNat) ram
      (s.setRegion (.lcd bus.toNat) (Memory.ofBytes frame)).finish (lengthResult s.cfg.frameBytes)

/-- CONVERT (41_converter R58). -/
def execConvert (bus side row ram : Byte) (s : State) : Result := .next (convertState bus side row ram s)

end Sys2Proof.Machine
end

