-- ==== Sys2Proof/Machine/Descriptors.lean ====
section
/-! DEFINITION. The scroll-buffer descriptors: SB_CREATE, SB_UPDATE, SB_DELETE (spec 42_scroll_descriptors). -/

namespace Sys2Proof.Machine

/-- A stored offset reduced into its dimension: emod (42_scroll_descriptors R64, R65). -/
def reduceOffset (off dim : Half) : Half := BitVec.ofNat 16 (emod off.toNat dim.toNat)

/-- The slot SB_CREATE writes (42_scroll_descriptors R64). -/
def createdSlot (x : SbFields) : Descriptor where
  occupied := true
  side := x.side.setWidth 2
  dispX := x.dispX
  dispY := x.dispY
  dispW := x.dispW
  dispH := x.dispH
  intW := x.intW
  intH := x.intH
  bufSize := BitVec.ofNat 32 (bufSizeOf x.intW.toNat x.intH.toNat)
  offX := reduceOffset x.offX x.intW
  offY := reduceOffset x.offY x.intH
  speedX := x.speedX
  speedY := x.speedY
  stepX := x.stepX
  stepY := x.stepY
  tickX := 0
  tickY := 0

/-- The lowest slot id that is not occupied (42_scroll_descriptors R64). -/
def State.lowestFree (s : State) : Option Nat := s.slots.findIdx? (fun e => !e.occupied)

/-- The state after an SB_CREATE (42_scroll_descriptors R64). -/
def createState (x : SbFields) (s : State) : State :=
  if createLegal x = false then s.raise .badOperand
  else
    match s.lowestFree with
    | none => s.raise .poolFull
    | some i =>
      if s.cfg.slotBytes < bufSizeOf x.intW.toNat x.intH.toNat then s.raise .allocFail
      else ((s.setSlot i (createdSlot x)).setRegion (.arena i) []).finish (BitVec.ofNat 32 i)

/-- SB_CREATE (42_scroll_descriptors R64). -/
def execSbCreate (x : SbFields) (s : State) : Result := .next (createState x s)

/-- The slot SB_UPDATE writes: sentinel merge, new bufSize, offsets reduced into the new dimensions, and a written
speed restarts its tick counter (42_scroll_descriptors R63, R65). -/
def updatedSlot (x : SbFields) (old : Descriptor) : Descriptor :=
  let intW := mergeHalf x.intW old.intW
  let intH := mergeHalf x.intH old.intH
  { occupied := old.occupied
    side := mergeSide x.side old.side
    dispX := mergeHalf x.dispX old.dispX
    dispY := mergeHalf x.dispY old.dispY
    dispW := mergeHalf x.dispW old.dispW
    dispH := mergeHalf x.dispH old.dispH
    intW := intW
    intH := intH
    bufSize := BitVec.ofNat 32 (bufSizeOf intW.toNat intH.toNat)
    offX := reduceOffset (mergeHalf x.offX old.offX) intW
    offY := reduceOffset (mergeHalf x.offY old.offY) intH
    speedX := mergeHalf x.speedX old.speedX
    speedY := mergeHalf x.speedY old.speedY
    stepX := mergeStep x.stepX old.stepX
    stepY := mergeStep x.stepY old.stepY
    tickX := if x.speedX = keepHalf then old.tickX else 0
    tickY := if x.speedY = keepHalf then old.tickY else 0 }

/-- `resize`: an internal dimension changes (42_scroll_descriptors R65). -/
def resized (old new : Descriptor) : Bool := new.intW != old.intW || new.intH != old.intH

/-- `geometry`: side, window or internal size changes; a field written with its current value is no change
(42_scroll_descriptors R65). -/
def geometryChanged (old new : Descriptor) : Bool :=
  new.side != old.side || new.dispX != old.dispX || new.dispY != old.dispY || new.dispW != old.dispW ||
    new.dispH != old.dispH || resized old new

/-- The state after an SB_UPDATE (42_scroll_descriptors R65). -/
def updateState (id : Byte) (x : SbFields) (s : State) : State :=
  let i := id.toNat
  if updateLegal x = false then s.raise .badOperand
  else if s.liveSlot i = false then s.raise .invalidRef
  else
    let old := s.slot i
    let new := updatedSlot x old
    if resized old new ∧ s.cfg.slotBytes < bufSizeOf new.intW.toNat new.intH.toNat then s.raise .allocFail
    else
      let s1 := s.setSlot i new
      let s2 := if resized old new then s1.setRegion (.arena i) [] else s1
      let s3 := if geometryChanged old new then s2.zeroDyn else s2
      s3.finish 0

/-- SB_UPDATE (42_scroll_descriptors R65). -/
def execSbUpdate (id : Byte) (x : SbFields) (s : State) : Result := .next (updateState id x s)

/-- The state after an SB_DELETE (42_scroll_descriptors R66). -/
def deleteState (id : Byte) (s : State) : State :=
  let i := id.toNat
  if s.liveSlot i = false then s.raise .invalidRef
  else if s.dest.toNat = 0x80 + i then s.raise .inUse
  else (((s.setSlot i Descriptor.free).setRegion (.arena i) []).zeroDyn).finish 0

/-- SB_DELETE (42_scroll_descriptors R66). -/
def execSbDelete (id : Byte) (s : State) : Result := .next (deleteState id s)

end Sys2Proof.Machine
end

