-- ==== Sys2Proof/Machine/HostControl.lean ====
section
/-! DEFINITION. Host control: NOP, SET_DEST, GET_DEST, SET_MASK_EN, GET_MASK_EN, LOAD (spec 44_host_control). -/

namespace Sys2Proof.Machine

/-- NOP (44_host_control R79). -/
def execNop (s : State) : Result := .next (s.finish 0)

/-- The state after a SET_DEST (44_host_control R80). -/
def setDestState (sel : Byte) (s : State) : State :=
  if (layerRegions? sel).isSome ∨ sel = destNone then (s.setDest sel).finish 0
  else
    match scrollId? sel with
    | some id => if s.liveSlot id then (s.setDest sel).finish 0 else s.raise .invalidRef
    | none => s.raise .badOperand

/-- SET_DEST (44_host_control R80). -/
def execSetDest (sel : Byte) (s : State) : Result := .next (setDestState sel s)

/-- GET_DEST (44_host_control R81). -/
def execGetDest (s : State) : Result := .next (s.finish (s.dest.setWidth 32))

/-- The state after a SET_MASK_EN (44_host_control R82). -/
def setMaskEnState (en : Byte) (s : State) : State :=
  if 1 < en.toNat then s.raise .badOperand else (s.setMaskEn (en.setWidth 1)).finish 0

/-- SET_MASK_EN (44_host_control R82). -/
def execSetMaskEn (en : Byte) (s : State) : Result := .next (setMaskEnState en s)

/-- GET_MASK_EN (44_host_control R83). -/
def execGetMaskEn (s : State) : Result := .next (s.finish (s.maskEn.setWidth 32))

/-- The regions a LOAD writes for the selector DEST holds, with their size; none for NONE
(30_encoding R43, 44_host_control R84). -/
def loadTarget (s : State) : Option (Nat × List Region) :=
  if s.dest = destNone then none
  else
    match scrollId? s.dest with
    | some id => some ((s.slot id).bufSize.toNat, [.arena id])
    | none => some (s.cfg.bitmapBytes, (layerRegions? s.dest).getD [])

/-- The state after a LOAD (44_host_control R84). The first test repeats the frame check of 30_encoding R38, which the
decoder makes. -/
def loadState (len : Word) (data : List Byte) (s : State) : State :=
  if data.length ≠ len.toNat then s.raise .badLength
  else
    match loadTarget s with
    | none => s.raise .invalidRef
    | some (size, regions) =>
      if len.toNat ≠ size then s.raise .badLength
      else (regions.foldl (fun t r => t.setRegion r ((t.region r).load data)) s).finish 0

/-- LOAD (44_host_control R84). -/
def execLoad (len : Word) (data : List Byte) (s : State) : Result := .next (loadState len data s)

end Sys2Proof.Machine
end

