-- ==== Sys2Proof/Machine/Dispatch.lean ====
section
/-! DEFINITION. One arm per command, each a direct call of its meaning. -/

namespace Sys2Proof.Machine

def exec (i : Instr) (s : State) : Host.Outcome State Fault Refusal :=
  match i with
  | .nop => Sys2Proof.Machine.execNop s
  | .convert bus side row ram => Sys2Proof.Machine.execConvert bus side row ram s
  | .sbCreate fields => Sys2Proof.Machine.execSbCreate fields s
  | .sbUpdate id fields => Sys2Proof.Machine.execSbUpdate id fields s
  | .sbDelete id => Sys2Proof.Machine.execSbDelete id s
  | .advance => Sys2Proof.Machine.execAdvance s
  | .render => Sys2Proof.Machine.execRender s
  | .merge side => Sys2Proof.Machine.execMerge side s
  | .setDest sel => Sys2Proof.Machine.execSetDest sel s
  | .getDest => Sys2Proof.Machine.execGetDest s
  | .setMaskEn en => Sys2Proof.Machine.execSetMaskEn en s
  | .getMaskEn => Sys2Proof.Machine.execGetMaskEn s
  | .load len data => Sys2Proof.Machine.execLoad len data s

end Sys2Proof.Machine
end

