-- ==== Sys2Proof/Machine/HostPort.lean ====
section
/-! DEFINITION. What one event does: a command frame (decode, then `exec`, or the decoder's status), a BUSY change, a
HostRead, a reset. -/

namespace Sys2Proof.Machine

/-- One command frame (30_encoding R35, R38, R39): an opcode or length error is a status, an empty frame is refused
(60_exceptions R94). -/
def runFrame (frame : List Byte) (s : State) : Host.Outcome State Fault Refusal :=
  match decode frame with
  | .ok i => exec i s
  | .error .illegalOpcode => .next (s.raise .illegalOpcode)
  | .error .badLength => .next (s.raise .badLength)
  | .error .emptyFrame => .refused .emptyFrame

/-- One event at the machine's boundary (60_exceptions R92, 70_reset_and_hazards R96). -/
def runEvent (e : Event) (s : State) : Host.Outcome State Fault Refusal :=
  match e with
  | .command frame => runFrame frame s
  | .busy bus level => if bus < s.cfg.numBuses then .next (s.setBusy bus level) else .refused .noSuchBus
  | .hostRead code index =>
    match s.hostRead code index with
    | some v => .next (s.setPort v)
    | none => .refused .hostReadOutside
  | .reset => .next (State.resetWith s.cfg s.inputs)

/-- The next event taken from the stream and run; with no event pending the block is idle and holds its state
(60_exceptions R93). A configuration outside 00_scope R5 is refused (60_exceptions R94). -/
def runNext (s : State) : Host.Outcome State Fault Refusal :=
  if s.cfg.admitted then
    match s.inputs with
    | [] => .next s
    | e :: rest => runEvent e (s.setInputs rest)
  else .refused .configuration

/-- The command frame of a table word put first in the stream. -/
def pushFrame (nbits w : Nat) (s : State) : State :=
  s.setInputs (.command (frameOfTableWord nbits w) :: s.inputs)

end Sys2Proof.Machine
end

