-- ==== Sys2Proof/Machine/Step.lean ====
section
/-! DEFINITION. One step of the machine: the next event of the input stream (log 2). -/

namespace Sys2Proof.Machine

/-- One step: one event, a whole command being one event (20_memory R30, R31; 60_exceptions R92). -/
def step (s : State) : Host.Outcome State Fault Refusal := runNext s

/-- `s` with the frame of a table word as the next event, where `step` takes its next command from (log 11). -/
def State.withFetchWord (s : State) (nbits w : Nat) : State := pushFrame nbits w s

end Sys2Proof.Machine
end

