-- ==== Sys2Proof/Machine/Assembler.lean ====
section
/-! DEFINITION. The assembler syntax (30_encoding R46) and the pseudo-instructions (R47), as functions on characters. No
command uses them; they say which frames a written program stands for. -/

namespace Sys2Proof.Machine

/-- The pseudo-instructions (30_encoding R47). -/
inductive Pseudo where
  | tick
  | loadTo (sel : Byte) (bytes : List Byte)
  | frame (bus side row ram : Byte)
deriving DecidableEq, Repr

/-- A LOAD of the listed bytes: len is their number (30_encoding R46). -/
def loadOf (bytes : List Byte) : Instr := .load (BitVec.ofNat 32 bytes.length) bytes

/-- The expansion of a pseudo-instruction, in order (30_encoding R47). -/
def Pseudo.expand : Pseudo → List Instr
  | .tick => [.advance, .render, .merge 0x03]
  | .loadTo sel bytes => [.setDest sel, loadOf bytes]
  | .frame bus side row ram => [.convert bus side row ram]

/-- The events that issue commands as separate frames (30_encoding R47). -/
def commandEvents (is : List Instr) : List Event := is.map fun i => .command (encode i)

/-- An operand as written (30_encoding R46). -/
inductive AsmOperand where
  | number (v : Int)
  | name (text : List Char)
  | scroll (id : Nat)
  | fill (count value : Nat)
  | keep
deriving DecidableEq, Repr

/-- White space. -/
def isBlank (c : Char) : Bool := c == ' ' || c == '\t'

/-- A text without the white space around it. -/
def trimText (t : List Char) : List Char := ((t.dropWhile isBlank).reverse.dropWhile isBlank).reverse

/-- The value of a digit in base 16. -/
def hexDigit (c : Char) : Option Nat :=
  if '0' ≤ c ∧ c ≤ '9' then some (c.toNat - '0'.toNat)
  else if 'a' ≤ c ∧ c ≤ 'f' then some (c.toNat - 'a'.toNat + 10)
  else if 'A' ≤ c ∧ c ≤ 'F' then some (c.toNat - 'A'.toNat + 10)
  else none

/-- The digits of a number in a base, most significant first. -/
def digitsValue (base : Nat) : Nat → List Char → Option Nat
  | acc, [] => some acc
  | acc, c :: cs =>
    match hexDigit c with
    | some d => if d < base then digitsValue base (acc * base + d) cs else none
    | none => none

/-- A number without a sign: decimal or `0x` hex (30_encoding R46). -/
def parseNat : List Char → Option Nat
  | [] => none
  | '0' :: 'x' :: c :: cs => digitsValue 16 0 (c :: cs)
  | c :: cs => digitsValue 10 0 (c :: cs)

/-- A text cut at its commas outside parentheses. -/
def splitCommas : Nat → List Char → List Char → List (List Char)
  | _, acc, [] => [acc.reverse]
  | depth, acc, c :: cs =>
    if c = '(' then splitCommas (depth + 1) (c :: acc) cs
    else if c = ')' then splitCommas (depth - 1) (c :: acc) cs
    else if c = ',' ∧ depth = 0 then acc.reverse :: splitCommas 0 [] cs
    else splitCommas depth (c :: acc) cs

/-- What stands between `<head>(` and `)`, if the text has that form. -/
def callArgs (head t : List Char) : Option (List (List Char)) :=
  let open' := head ++ ['(']
  if open'.isPrefixOf t ∧ t.getLast? = some ')' then
    some ((splitCommas 0 [] ((t.drop open'.length).dropLast)).map trimText)
  else none

/-- An operand read from its text (30_encoding R46). -/
def parseOperand (t : List Char) : Option AsmOperand :=
  match t with
  | ['_'] => some .keep
  | '-' :: cs => (digitsValue 10 0 cs).bind fun n => if cs = [] then none else some (.number (-(n : Int)))
  | _ =>
    match callArgs "SCROLL".toList t with
    | some [a] => (parseNat a).map .scroll
    | some _ => none
    | none =>
      match callArgs "fill".toList t with
      | some [n, v] => (parseNat n).bind fun n => (parseNat v).map (.fill n)
      | some _ => none
      | none =>
        match parseNat t with
        | some n => some (.number n)
        | none => if t = [] then none else some (.name t)

/-- The value a name has in a list of names. -/
def lookupName (names : List (String × Byte)) (t : List Char) : Option Byte :=
  (names.find? fun p => p.1.toList == t).map Prod.snd

/-- The symbolic sides (30_encoding R46). -/
def sideNames : List (String × Byte) := [("A", 0x01), ("B", 0x02), ("AB", 0x03), ("NONE", 0x00)]

/-- The symbolic RAM banks (30_encoding R46). -/
def ramNames : List (String × Byte) := [("RAM1", 0), ("RAM2", 1)]

/-- The selector names of 30_encoding R43. -/
def selectorNames : List (String × Byte) :=
  [("STATIC_A", 0x00), ("STATIC_B", 0x01), ("STATIC_AB", 0x02), ("MASK_A", 0x10), ("MASK_B", 0x11), ("MASK_AB", 0x12),
    ("DYN_A", 0x20), ("DYN_B", 0x21), ("DYN_AB", 0x22), ("NONE", 0xFF)]

/-- A u8 operand: a number, or a name of the field's list, or SCROLL(id) where a selector stands. -/
def byteOperand (names : List (String × Byte)) (scrollOk : Bool) : AsmOperand → Option Byte
  | .number v => if 0 ≤ v ∧ v ≤ 255 then some (BitVec.ofInt 8 v) else none
  | .name t => lookupName names t
  | .scroll id => if scrollOk ∧ id < 127 then some (BitVec.ofNat 8 (0x80 + id)) else none
  | _ => none

/-- A side operand of SB_CREATE (`update` false) or SB_UPDATE, where `_` is the sentinel. -/
def sideOperand (update : Bool) : AsmOperand → Option Byte
  | .keep => if update then some keepSide else none
  | o => byteOperand sideNames false o

/-- A u16 operand. -/
def halfOperand (update : Bool) : AsmOperand → Option Half
  | .number v => if 0 ≤ v ∧ v ≤ 65535 then some (BitVec.ofInt 16 v) else none
  | .keep => if update then some keepHalf else none
  | _ => none

/-- An s16 operand. -/
def stepOperand (update : Bool) : AsmOperand → Option Half
  | .number v => if -32768 ≤ v ∧ v ≤ 32767 then some (BitVec.ofInt 16 v) else none
  | .keep => if update then some keepStep else none
  | _ => none

/-- The thirteen field operands of SB_CREATE and SB_UPDATE, in frame order (30_encoding R46). -/
def sbOperands (update : Bool) : List AsmOperand → Option SbFields
  | [side, dispX, dispY, dispW, dispH, intW, intH, offX, offY, speedX, speedY, stepX, stepY] => do
    let side ← sideOperand update side
    let dispX ← halfOperand update dispX
    let dispY ← halfOperand update dispY
    let dispW ← halfOperand update dispW
    let dispH ← halfOperand update dispH
    let intW ← halfOperand update intW
    let intH ← halfOperand update intH
    let offX ← halfOperand update offX
    let offY ← halfOperand update offY
    let speedX ← halfOperand update speedX
    let speedY ← halfOperand update speedY
    let stepX ← stepOperand update stepX
    let stepY ← stepOperand update stepY
    return ⟨side, dispX, dispY, dispW, dispH, intW, intH, offX, offY, speedX, speedY, stepX, stepY⟩
  | _ => none

/-- The data bytes of a LOAD: bytes and fills, concatenated in order (30_encoding R46). -/
def dataOperands : List AsmOperand → Option (List Byte)
  | [] => some []
  | .number v :: os =>
    if 0 ≤ v ∧ v ≤ 255 then (dataOperands os).map (BitVec.ofInt 8 v :: ·) else none
  | .fill n v :: os =>
    if v ≤ 255 then (dataOperands os).map (List.replicate n (BitVec.ofNat 8 v) ++ ·) else none
  | _ => none

/-- The mnemonics of the opcode map, as written (30_encoding R37). -/
def Opcode.mnemonic : Opcode → String
  | .nop => "NOP"
  | .convert => "CONVERT"
  | .sbCreate => "SB_CREATE"
  | .sbUpdate => "SB_UPDATE"
  | .sbDelete => "SB_DELETE"
  | .advance => "ADVANCE"
  | .render => "RENDER"
  | .merge => "MERGE"
  | .setDest => "SET_DEST"
  | .getDest => "GET_DEST"
  | .setMaskEn => "SET_MASK_EN"
  | .getMaskEn => "GET_MASK_EN"
  | .load => "LOAD"

/-- The four operands of CONVERT and FRAME (30_encoding R46, R47). -/
def convertOperands (f : Byte → Byte → Byte → Byte → α) : List AsmOperand → Option α
  | [bus, side, row, ram] => do
    let bus ← byteOperand [] false bus
    let side ← byteOperand sideNames false side
    let row ← byteOperand [] false row
    let ram ← byteOperand ramNames false ram
    return f bus side row ram
  | _ => none

/-- One command from its mnemonic and operands (30_encoding R46). -/
def assembleCommand (o : Opcode) (os : List AsmOperand) : Option Instr :=
  match o, os with
  | .nop, [] => some .nop
  | .convert, os => convertOperands .convert os
  | .sbCreate, os => (sbOperands false os).map .sbCreate
  | .sbUpdate, id :: os => do
    let id ← byteOperand [] false id
    let x ← sbOperands true os
    return .sbUpdate id x
  | .sbDelete, [id] => (byteOperand [] false id).map .sbDelete
  | .advance, [] => some .advance
  | .render, [] => some .render
  | .merge, [side] => (byteOperand sideNames false side).map .merge
  | .setDest, [sel] => (byteOperand selectorNames true sel).map .setDest
  | .getDest, [] => some .getDest
  | .setMaskEn, [en] => (byteOperand [] false en).map .setMaskEn
  | .getMaskEn, [] => some .getMaskEn
  | .load, os => (dataOperands os).bind fun d => if d.length < 2 ^ 32 then some (loadOf d) else none
  | _, _ => none

/-- One pseudo-instruction from its name and operands (30_encoding R47). -/
def assemblePseudo (m : List Char) (os : List AsmOperand) : Option Pseudo :=
  if m = "TICK".toList then (if os = [] then some .tick else none)
  else if m = "FRAME".toList then convertOperands .frame os
  else if m = "LOADTO".toList then
    match os with
    | sel :: os => do
      let sel ← byteOperand selectorNames true sel
      let d ← dataOperands os
      if d.length < 2 ^ 32 then return .loadTo sel d else none
    | [] => none
  else none

/-- The operands of a line: none, or texts between commas. -/
def parseOperands (t : List Char) : Option (List AsmOperand) :=
  if t = [] then some [] else ((splitCommas 0 [] t).map trimText).mapM parseOperand

/-- The commands one line of assembler text stands for: a blank or comment line stands for none (30_encoding R46). -/
def assembleLine (line : List Char) : Option (List Instr) :=
  let t := trimText (line.takeWhile (· != ';'))
  if t = [] then some []
  else
    let m := t.takeWhile (fun c => !isBlank c)
    match parseOperands (trimText (t.drop m.length)) with
    | none => none
    | some os =>
      match Opcode.all.find? (fun o => (Opcode.mnemonic o).toList == m) with
      | some o => (assembleCommand o os).map fun i => [i]
      | none => (assemblePseudo m os).map Pseudo.expand

/-- The frames one line of assembler text stands for. -/
def assembleFrames (line : String) : Option (List (List Byte)) := (assembleLine line.toList).map (·.map encode)

end Sys2Proof.Machine
end

