-- ==== Sys2Proof/Machine/Blender.lean ====
section
/-! DEFINITION. The byte-at-a-time form of a slot's render (43_compositor R73) and its six alignment cases (R74). RENDER
itself is the pixel rule of Compositor.lean, which R73 calls the definition; this form is what claims compare it with. -/

namespace Sys2Proof.Machine

/-- `lo`: the first window row inside display byte `j` of a column (43_compositor R73). -/
def blendLo (e : Descriptor) (j : Nat) : Nat := max e.dispY.toNat (8 * j) - 8 * j

/-- `hi`: one past the last window row inside display byte `j` (43_compositor R73). -/
def blendHi (c : Config) (e : Descriptor) (j : Nat) : Nat := min (windowEndY c e) (8 * j + 8) - 8 * j

/-- The byte whose bits below `n` are set, for n up to 8. -/
def lowMask (n : Nat) : Byte := BitVec.ofNat 8 (2 ^ n - 1)

/-- `m`: the window mask of display byte `j` (43_compositor R73). -/
def blendMask (c : Config) (e : Descriptor) (j : Nat) : Byte := lowMask (blendHi c e j) &&& ~~~lowMask (blendLo e j)

/-- `n0`: the internal row that lands on bit 0 of display byte `j` (43_compositor R73). -/
def blendRow (e : Descriptor) (j : Nat) : Nat :=
  emod (8 * (j : Int) - e.dispY.toNat + e.offY.toNat) e.intH.toNat

/-- The eight internal rows from `n0` on do not cross the wrap of a padded column (43_compositor R73). -/
def blendStraight (e : Descriptor) (j : Nat) : Bool :=
  e.intH.toNat % 8 = 0 || blendRow e j + 7 < e.intH.toNat

/-- The two-byte combine of 43_compositor R73, "srcA" above "srcB". -/
def blendCombine (a b : Byte) (k : Nat) : Byte := if k = 0 then a else (a >>> k) ||| (b <<< (8 - k))

/-- The byte with bit b set by `f b` (the gather of 43_compositor R73). -/
def gatherByte (f : Nat → Bool) : Byte :=
  (List.range 8).foldl (fun v b => setBit v b (f b)) 0

/-- `val`: the eight internal pixels that land on display byte `j` of display column `x` (43_compositor R73). -/
def blendValue (e : Descriptor) (bitmap : Memory) (x j : Nat) : Byte :=
  let ix := emod ((x : Int) - e.dispX.toNat + e.offX.toNat) e.intW.toNat
  let cb := ceilDiv e.intH.toNat 8
  let n0 := blendRow e j
  if blendStraight e j then
    blendCombine (bitmap.read (ix * cb + n0 / 8)) (bitmap.read (ix * cb + (n0 / 8 + 1) % cb)) (n0 % 8)
  else gatherByte fun b => sbPix e bitmap ix (emod ((n0 : Int) + b) e.intH.toNat)

/-- One masked write of the blender (43_compositor R73). -/
def blendWrite (c : Config) (e : Descriptor) (bitmap dyn : Memory) (x j : Nat) : Memory :=
  let i := c.byteIndex x (8 * j)
  let m := blendMask c e j
  dyn.write i ((dyn.read i &&& ~~~m) ||| (blendValue e bitmap x j &&& m))

/-- `jF`: the first display byte of the window in a column (43_compositor R74). -/
def firstByte (e : Descriptor) : Nat := e.dispY.toNat / 8

/-- `jL`: the last display byte of the window in a column (43_compositor R74). -/
def lastByte (c : Config) (e : Descriptor) : Nat := (windowEndY c e - 1) / 8

/-- The display bytes a slot's window touches, as (column, byte of the column); none when the window has no row on the
display (43_compositor R70, R73). -/
def windowBytes (c : Config) (e : Descriptor) : List (Nat × Nat) :=
  if e.dispY.toNat < windowEndY c e then
    (List.range' e.dispX.toNat (windowEndX c e - e.dispX.toNat)).flatMap fun x =>
      (List.range' (firstByte e) (lastByte c e + 1 - firstByte e)).map fun j => (x, j)
  else []

/-- One slot rendered byte by byte (43_compositor R73). -/
def blendSlot (c : Config) (e : Descriptor) (bitmap dyn : Memory) : Memory :=
  (windowBytes c e).foldl (fun m p => blendWrite c e bitmap m p.1 p.2) dyn

/-- The six alignment cases (43_compositor R74). -/
inductive AlignCase where
  | alignedAligned
  | alignedScroll
  | alignedWindow
  | misalignedFirst
  | misalignedLast
  | misalignedMiddle
deriving DecidableEq, Repr

/-- `wp`: the window's bit phase (43_compositor R74). -/
def windowPhase (e : Descriptor) : Nat := e.dispY.toNat % 8

/-- `sp`: the scroll buffer's bit phase (43_compositor R74). -/
def scrollPhase (e : Descriptor) : Nat := e.offY.toNat % 8

/-- The case display byte `j` falls into (43_compositor R74); total, so no byte is left for a branch that "should never
happen" (R78). -/
def alignCase (c : Config) (e : Descriptor) (j : Nat) : AlignCase :=
  if windowPhase e = 0 then (if scrollPhase e = 0 then .alignedAligned else .alignedWindow)
  else if scrollPhase e = 0 then .alignedScroll
  else if j = firstByte e then .misalignedFirst
  else if j = lastByte c e then .misalignedLast
  else .misalignedMiddle

/-- The shift k the table of 43_compositor R74 gives each case. -/
def caseShift (e : Descriptor) : AlignCase → Nat
  | .alignedAligned => 0
  | .alignedScroll => 8 - windowPhase e
  | .alignedWindow => scrollPhase e
  | .misalignedFirst => emod ((scrollPhase e : Int) - windowPhase e) 8
  | .misalignedLast => emod ((scrollPhase e : Int) - windowPhase e) 8
  | .misalignedMiddle => emod ((scrollPhase e : Int) - windowPhase e) 8

/-- The mask of the table of 43_compositor R74: `0xFF << wp` in the first byte, `(1 << hL) - 1` in the last, both where
the two are one byte, 0xFF between. -/
def caseMask (c : Config) (e : Descriptor) (j : Nat) : Byte :=
  (if j = firstByte e then 0xFF#8 <<< windowPhase e else 0xFF) &&&
    (if j = lastByte c e then lowMask (windowEndY c e - 8 * lastByte c e) else 0xFF)

end Sys2Proof.Machine
end

