-- ==== Sys2Proof/Machine/Inverse.lean ====
section
/-! DEFINITION. The consumer's view of an LCD buffer (41_converter R55 to R57) and the "test-only inverse" of the
converter (R59). No command uses them; claims do. -/

namespace Sys2Proof.Machine

/-- The step whose slice carries the backplane (41_converter R48). -/
def Backplane.step : Backplane → Nat
  | .com2 => 0
  | .com1 => 1
  | .com3 => 2
  | .com0 => 3

/-- The backplane of step `s` (41_converter R48). -/
def backplaneAt (s : Nat) : Backplane := backplaneOrder.getD s .com0

/-- Where byte `t` of group `g` of chain index `h` in step `s` stands (41_converter R55). -/
def lcdIndex (c : Config) (s h g t : Nat) : Nat := s * c.sliceBytes + h * 120 + g * 6 + t

/-- The bytes the consumer sends in step `s`: `[s × SLICE, (s + 1) × SLICE)` (41_converter R57). -/
def sentSlice (c : Config) (lcd : Memory) (s : Nat) : List Byte :=
  (List.range c.sliceBytes).map fun j => lcd.read (s * c.sliceBytes + j)

/-- `MSB_FIRST(s)` (41_converter R56). -/
def msbFirstAt (s : Nat) : Bool := (backplaneAt s).msbFirst

/-- `d[n]` read back from the group layout (41_converter R59). -/
def readDataByte (c : Config) (lcd : Memory) (s h n : Nat) : Byte := lcd.read (lcdIndex c s h (n / 5) (n % 5))

/-- The column byte read back from the data bytes `d` (41_converter R59). -/
def columnOfData (d : Nat → Byte) (col : Nat) : Byte :=
  let q := col / 24
  let r := col % 24
  if r < 10 then d (25 * q + r) else (d (25 * q + r) >>> 4) ||| ((d (25 * q + r + 1) &&& 0x0F) <<< 4)

/-- The chain index of a half-panel of the panel row: the inverse of `halfPanelOf` (41_converter R49). -/
def chainIndexOf (c : Config) (row col : Nat) : Nat :=
  match c.topology with
  | .uLoop => if row = 0 then c.panels + col else c.panels - 1 - col
  | .linear => row * c.panels + col

/-- The backplane with the given byte offset (41_converter R51). -/
def backplaneOfOffset (k : Nat) : Backplane :=
  if k = 0 then .com0 else if k = 1 then .com1 else if k = 2 then .com2 else .com3

/-- Byte `n` of the converted panel row, read back from an LCD buffer (41_converter R59). -/
def recoveredByte (c : Config) (lcd : Memory) (n : Nat) : Byte :=
  let panel := n / 384
  let h := chainIndexOf c (panel / c.panels) (panel % c.panels)
  let col := n % 384 / 4
  let k := n % 4
  if (halfPanelOf c h).rotated then
    let b := backplaneOfOffset (3 - k)
    rev8 (endianCorrect (columnOfData (readDataByte c lcd b.step h) (95 - col)) b)
  else
    let b := backplaneOfOffset k
    endianCorrect (columnOfData (readDataByte c lcd b.step h) col) b

end Sys2Proof.Machine
end

