-- ==== Sys2Proof/Safety.lean ====
section
/-! DEFINITION. The invariant of the machine and the words that claims are stated in. -/

namespace Sys2Proof.Machine

/-- A region's list is canonical and lists no index outside the region. -/
abbrev Memory.fits (n : Nat) (m : Memory) : Prop := m.wf ∧ ∀ c ∈ m, c.1 < n

/-- The invariants of an occupied slot (10_state R16). -/
abbrev Descriptor.live (c : Config) (e : Descriptor) : Prop :=
  1 ≤ e.intW.toNat ∧ 1 ≤ e.intH.toNat ∧
    e.bufSize.toNat = bufSizeOf e.intW.toNat e.intH.toNat ∧ bufSizeOf e.intW.toNat e.intH.toNat ≤ c.slotBytes ∧
    e.offX.toNat < e.intW.toNat ∧ e.offY.toNat < e.intH.toNat ∧
    (e.speedX = 0 → e.tickX = 0) ∧ (e.speedX ≠ 0 → e.tickX.toNat < e.speedX.toNat) ∧
    (e.speedY = 0 → e.tickY = 0) ∧ (e.speedY ≠ 0 → e.tickY.toNat < e.speedY.toNat)

/-- The descriptor invariants (10_state R16): an unoccupied slot holds its reset values. -/
abbrev Descriptor.ok (c : Config) (e : Descriptor) : Prop :=
  (e.occupied = true → e.live c) ∧ (e.occupied = false → e = Descriptor.free)

/-- DEST holds a legal selector, and a SCROLL(id) names an occupied slot (10_state R13). -/
def State.destOk (s : State) : Bool :=
  (layerRegions? s.dest).isSome || s.dest == destNone ||
    match scrollId? s.dest with
    | some id => s.liveSlot id
    | none => false

/-- The invariant of the machine: what holds at reset and after every step. -/
structure State.Inv (s : State) : Prop where
  /-- The parameters are legal (00_scope R5). -/
  cfgOk : s.cfg.admitted = true
  /-- There are MAX_SB slots (10_state R15). -/
  slotCount : s.slots.length = s.cfg.maxSb
  /-- There are MAX_SB arenas (10_state R17). -/
  arenaCount : s.arena.length = s.cfg.maxSb
  /-- There are NUM_BUSES LCD buffers (10_state R20). -/
  lcdCount : s.lcd.length = s.cfg.numBuses
  /-- There are NUM_BUSES BUSY inputs (10_state R21). -/
  busyCount : s.busy.length = s.cfg.numBuses
  /-- STATUS holds a code of 60_exceptions R86. -/
  statusOk : s.status.toNat ≤ 8
  /-- RESULT is 0 after every failure (60_exceptions R86). -/
  resultOk : s.status ≠ 0 → s.result = 0
  /-- The descriptor invariants hold of every slot (10_state R16). -/
  slotsOk : ∀ e ∈ s.slots, e.ok s.cfg
  /-- The DEST rule holds (10_state R13). -/
  destLegal : s.destOk = true
  /-- Every region is canonical and holds nothing outside its size: an arena's bytes from bufSize on are 0
  (10_state R17), an unoccupied slot's arena is all 0. -/
  regionsOk : ∀ r, (s.region r).fits (s.regionSize r)

/-- What no command writes: the parameters, the BUSY inputs, the events to come, the HostRead port. -/
def State.sameOutside (s t : State) : Prop :=
  t.cfg = s.cfg ∧ t.busy = s.busy ∧ t.inputs = s.inputs ∧ t.port = s.port

/-- STATUS and RESULT as a command leaves them. -/
def State.endsWith (t : State) (c : Status) (v : Word) : Prop := t.status = c.code ∧ t.result = v

/-- Every byte of every region but those in `stored` reads as before. -/
def State.sameBytes (s t : State) (stored : Region → Prop) : Prop :=
  ∀ r, ¬ stored r → ∀ i, t.readByte r i = s.readByte r i

/-- Display pixel (x, y) lies in the slot's window (43_compositor R70). -/
def Descriptor.inWindow (e : Descriptor) (x y : Nat) : Prop :=
  e.dispX.toNat ≤ x ∧ x < e.dispX.toNat + e.dispW.toNat ∧ e.dispY.toNat ≤ y ∧ y < e.dispY.toNat + e.dispH.toNat

/-- The slot is assigned to the side: bit 0 = A, bit 1 = B (10_state R15). -/
def Descriptor.onSide (e : Descriptor) : Side → Bool
  | .a => e.side.getLsbD 0
  | .b => e.side.getLsbD 1

/-- Slot `i` renders display pixel (x, y) of side `d` (43_compositor R70 to R72). -/
def State.covers (s : State) (d : Side) (x y i : Nat) : Prop :=
  i < s.cfg.maxSb ∧ (s.slot i).occupied = true ∧ (s.slot i).onSide d = true ∧ (s.slot i).inWindow x y

/-- The rows of 30_encoding R37 whose frame length is fixed: byte 0 and the length. -/
def fixedFrames : List (Byte × Nat) :=
  [(0x00, 1), (0x10, 5), (0x20, 26), (0x21, 27), (0x22, 2), (0x30, 1), (0x31, 1), (0x32, 2), (0x40, 2), (0x41, 1),
    (0x42, 2), (0x43, 1)]

/-- Every opcode of 30_encoding R37: the fixed rows and LOAD's. -/
def opcodeBytes : List Byte := fixedFrames.map Prod.fst ++ [0x50]

/-- The code column of 20_memory R24; none for a slot or bus that does not exist. -/
def codeOfRegion (c : Config) : Region → Option Nat
  | .static .a => some 0x00
  | .static .b => some 0x01
  | .mask .a => some 0x10
  | .mask .b => some 0x11
  | .dyn .a => some 0x20
  | .dyn .b => some 0x21
  | .disp .a => some 0x30
  | .disp .b => some 0x31
  | .arena i => if i < c.maxSb then some (0x80 + i) else none
  | .lcd b => if b < c.numBuses then some (0x40 + b) else none

/-- The layer rows of 30_encoding R43: selector and the memories a LOAD writes. -/
def layerSelectors : List (Byte × List Region) :=
  [(0x00, [.static .a]), (0x01, [.static .b]), (0x02, [.static .a, .static .b]), (0x10, [.mask .a]),
    (0x11, [.mask .b]), (0x12, [.mask .a, .mask .b]), (0x20, [.dyn .a]), (0x21, [.dyn .b]), (0x22, [.dyn .a, .dyn .b])]

/-- The "written by" column of 20_memory R24; an LCD buffer only by a CONVERT that names its bus. -/
def Region.writtenBy : Region → Instr → Bool
  | .static _, .load _ _ => true
  | .mask _, .load _ _ => true
  | .dyn _, .load _ _ => true
  | .dyn _, .render => true
  | .dyn _, .sbUpdate _ _ => true
  | .dyn _, .sbDelete _ => true
  | .disp _, .merge _ => true
  | .arena _, .load _ _ => true
  | .arena _, .sbCreate _ => true
  | .arena i, .sbUpdate id _ => id.toNat == i
  | .arena i, .sbDelete id => id.toNat == i
  | .lcd b, .convert bus _ _ _ => bus.toNat == b
  | _, _ => false

/-- The commands in the "written by" column of the descriptor table (10_state R15). -/
def writesSlots : Instr → Bool
  | .sbCreate _ => true
  | .sbUpdate _ _ => true
  | .sbDelete _ => true
  | .advance => true
  | _ => false

/-- The operands of an SB_UPDATE with every field its sentinel (30_encoding R44). -/
def keepAll : SbFields where
  side := 0xFF
  dispX := 0xFFFF
  dispY := 0xFFFF
  dispW := 0xFFFF
  dispH := 0xFFFF
  intW := 0xFFFF
  intH := 0xFFFF
  offX := 0xFFFF
  offY := 0xFFFF
  speedX := 0xFFFF
  speedY := 0xFFFF
  stepX := 0x8000
  stepY := 0x8000

/-- The state after commands run one after another, each on the state the one before left (20_memory R31). -/
def runInOrder : List Instr → State → Option State
  | [], s => some s
  | i :: is, s =>
    match exec i s with
    | .next t => runInOrder is t
    | .fault _ => none
    | .refused _ => none

/-- The clauses of `State.Inv` as one test of a concrete state. -/
def State.invTest (s : State) : Bool :=
  s.cfg.admitted && s.slots.length == s.cfg.maxSb && s.arena.length == s.cfg.maxSb &&
    s.lcd.length == s.cfg.numBuses && s.busy.length == s.cfg.numBuses && s.status.toNat ≤ 8 &&
    (s.status == 0 || s.result == 0) && decide (∀ e ∈ s.slots, e.ok s.cfg) && s.destOk &&
    decide (∀ m ∈ [s.static.a, s.static.b, s.mask.a, s.mask.b, s.dyn.a, s.dyn.b, s.disp.a, s.disp.b],
      m.fits s.cfg.bitmapBytes) &&
    decide (∀ i ∈ List.range s.cfg.maxSb, (s.region (.arena i)).fits (s.regionSize (.arena i))) &&
    decide (∀ m ∈ s.lcd, m.fits s.cfg.frameBytes)

end Sys2Proof.Machine
end

