-- ==== Sys2Proof/Certificates/Slice0/Obligations.lean ====
section
/-! DEFINITION. The statements for the provers. "Inv" is `State.Inv`, itself stated of reset and of every step. -/

open Sys2Proof Sys2Proof.Machine

/-! ## Encoding (30_encoding) -/

/-- Decoding the frame of a well-formed command gives the command back, with every operand at every value. -/
def Obligations.DecodeOfEncodeIsTheCommand : Prop :=
  ∀ i : Instr, i.wellFormed = true → decode (encode i) = .ok i

/-- A frame that decodes is the frame of the command it decodes to, which is well-formed: no two frames spell one
command and no bit of a frame is dropped. -/
def Obligations.EncodeOfDecodeIsTheFrame : Prop :=
  ∀ (f : List Byte) (i : Instr), decode f = .ok i → i.wellFormed = true ∧ encode i = f

/-- The opcode map of R37 with the field types of R36: each field at its offset, multi-byte fields big-endian, s16 in
two's complement. -/
def Obligations.FieldsAtTheirOffsetsBigEndian : Prop :=
  ∀ f : List Byte,
    let u8 := fun o => f.getD o 0
    let u16 := fun o => 256 * (u8 o).toNat + (u8 (o + 1)).toNat
    let s16 := fun o => if u16 o < 2 ^ 15 then (u16 o : Int) else (u16 o : Int) - 2 ^ 16
    let fieldsAt := fun (o : Nat) (x : SbFields) =>
      x.side = u8 o ∧ x.dispX.toNat = u16 (o + 1) ∧ x.dispY.toNat = u16 (o + 3) ∧ x.dispW.toNat = u16 (o + 5) ∧
        x.dispH.toNat = u16 (o + 7) ∧ x.intW.toNat = u16 (o + 9) ∧ x.intH.toNat = u16 (o + 11) ∧
        x.offX.toNat = u16 (o + 13) ∧ x.offY.toNat = u16 (o + 15) ∧ x.speedX.toNat = u16 (o + 17) ∧
        x.speedY.toNat = u16 (o + 19) ∧ x.stepX.toInt = s16 (o + 21) ∧ x.stepY.toInt = s16 (o + 23)
    (f = [0x00] → decode f = .ok .nop) ∧
    (f.head? = some 0x10 → f.length = 5 → decode f = .ok (.convert (u8 1) (u8 2) (u8 3) (u8 4))) ∧
    (f.head? = some 0x20 → f.length = 26 → ∃ x, decode f = .ok (.sbCreate x) ∧ fieldsAt 1 x) ∧
    (f.head? = some 0x21 → f.length = 27 → ∃ x, decode f = .ok (.sbUpdate (u8 1) x) ∧ fieldsAt 2 x) ∧
    (f.head? = some 0x22 → f.length = 2 → decode f = .ok (.sbDelete (u8 1))) ∧
    (f = [0x30] → decode f = .ok .advance) ∧
    (f = [0x31] → decode f = .ok .render) ∧
    (f.head? = some 0x32 → f.length = 2 → decode f = .ok (.merge (u8 1))) ∧
    (f.head? = some 0x40 → f.length = 2 → decode f = .ok (.setDest (u8 1))) ∧
    (f = [0x41] → decode f = .ok .getDest) ∧
    (f.head? = some 0x42 → f.length = 2 → decode f = .ok (.setMaskEn (u8 1))) ∧
    (f = [0x43] → decode f = .ok .getMaskEn) ∧
    (f.head? = some 0x50 → 5 ≤ f.length → f.length = 5 + (65536 * u16 1 + u16 3) →
      ∃ len, len.toNat = 65536 * u16 1 + u16 3 ∧ decode f = .ok (.load len (f.drop 5)))

/-- The spec's own example frames decode to the commands they are printed beside (a sanity statement). -/
def Obligations.SpecExampleFramesDecode : Prop :=
  decode [0x10, 0x00, 0x01, 0x00, 0x00] = .ok (.convert 0x00 0x01 0x00 0x00) ∧
    decode [0x22, 0x00] = .ok (.sbDelete 0x00) ∧
    decode [0x32, 0x01] = .ok (.merge 0x01) ∧
    decode [0x40, 0x80] = .ok (.setDest 0x80) ∧
    decode [0x42, 0x01] = .ok (.setMaskEn 0x01) ∧
    decode [0x50, 0x00, 0x00, 0x00, 0x02, 0x81, 0x7E] = .ok (.load 2 [0x81, 0x7E])

/-- R39: a frame whose first byte is no opcode, of whatever length, reports ILLEGAL_OPCODE and changes nothing else. -/
def Obligations.UnlistedOpcodeReportsIllegalOpcode : Prop :=
  ∀ (s : State) (op : Byte) (rest : List Byte) (es : List Event), s.cfg.admitted = true →
    s.inputs = .command (op :: rest) :: es → op ∉ opcodeBytes →
    step s = .next { s with inputs := es, status := 0x06, result := 0 }

/-- R38: a frame whose length is not its opcode's reports BAD_LENGTH and changes nothing else; a LOAD frame needs five
bytes and then exactly as many as its length field says. -/
def Obligations.WrongFrameLengthReportsBadLength : Prop :=
  ∀ (s : State) (es : List Event), s.cfg.admitted = true →
    (∀ op n rest, (op, n) ∈ fixedFrames → rest.length + 1 ≠ n → s.inputs = .command (op :: rest) :: es →
      step s = .next { s with inputs := es, status := 0x07, result := 0 }) ∧
    (∀ rest : List Byte, rest.length < 4 → s.inputs = .command (0x50 :: rest) :: es →
      step s = .next { s with inputs := es, status := 0x07, result := 0 }) ∧
    (∀ (b0 b1 b2 b3 : Byte) (data : List Byte),
      data.length ≠ 2 ^ 24 * b0.toNat + 2 ^ 16 * b1.toNat + 2 ^ 8 * b2.toNat + b3.toNat →
      s.inputs = .command (0x50 :: b0 :: b1 :: b2 :: b3 :: data) :: es →
      step s = .next { s with inputs := es, status := 0x07, result := 0 })

/-- R35 and R94: a frame of length 0 is refused, and at every step a configuration outside 00_scope R5; each under a name
of its own. -/
def Obligations.EmptyFramesAndOtherConfigurationsAreRefused : Prop :=
  (∀ (s : State) (es : List Event), s.cfg.admitted = true → s.inputs = .command [] :: es →
    step s = .refused .emptyFrame) ∧
  ∀ s : State,
    ¬(1 ≤ s.cfg.panels ∧ 1 ≤ s.cfg.panelRows ∧ 1 ≤ s.cfg.numBuses ∧ s.cfg.numBuses ≤ 63 ∧ 1 ≤ s.cfg.maxSb ∧
      s.cfg.maxSb ≤ 127 ∧ 1 ≤ s.cfg.slotBytes ∧
      ∀ r k, s.cfg.ctrlMux4 &&& ctrlRam s.cfg r = 0 ∧ s.cfg.ctrlMux4 &&& ctrlAddr s.cfg k = 0 ∧
        ctrlRam s.cfg r &&& ctrlAddr s.cfg k = 0) →
    step s = .refused .configuration

/-! ## The step and the events at the boundary -/

/-- When the next event is a frame that decodes to a command, a step is `exec` of that command on the state whose
stream has moved past the frame. -/
def Obligations.StepRunsTheDecodedCommand : Prop :=
  ∀ (s : State) (f : List Byte) (i : Instr) (es : List Event), s.cfg.admitted = true →
    s.inputs = .command f :: es → decode f = .ok i → step s = exec i { s with inputs := es }

/-- R93: with no event pending the block is idle and holds its state. -/
def Obligations.IdleBlockHoldsItsState : Prop :=
  ∀ s : State, s.cfg.admitted = true → s.inputs = [] → step s = .next s

/-- A consumer's step is one BUSY change (R92); an event of a bus that does not exist is refused, which is the model's
choice (log 9). -/
def Obligations.BusyEventDrivesOneBus : Prop :=
  ∀ (s : State) (b : Nat) (v : Bool) (es : List Event), s.Inv → s.inputs = .busy b v :: es →
    (b < s.cfg.numBuses → ∃ t, step s = .next t ∧ t.busyAt b = v ∧ (∀ b', b' ≠ b → t.busyAt b' = s.busyAt b') ∧
      t = { s with inputs := es, busy := t.busy }) ∧
    (s.cfg.numBuses ≤ b → step s = .refused .noSuchBus)

/-- A HostRead gives the byte of the region its code names and changes no state of the block; outside every region it
is refused (20_memory R24). The port field is the model's own (log 4). -/
def Obligations.HostReadGivesTheNamedByte : Prop :=
  ∀ (s : State) (code : Byte) (i : Nat) (es : List Event), s.cfg.admitted = true →
    s.inputs = .hostRead code i :: es →
    (∀ r, codeOfRegion s.cfg r = some code.toNat → i < s.regionSize r →
      step s = .next { s with inputs := es, port := some (s.readByte r i) }) ∧
    ((∀ r, codeOfRegion s.cfg r = some code.toNat → s.regionSize r ≤ i) → step s = .refused .hostReadOutside)

/-- The sizes of the regions (20_memory R24 with 00_scope R6). -/
def Obligations.RegionSizes : Prop :=
  ∀ (s : State) (d : Side) (i b : Nat),
    s.regionSize (.static d) = 768 * s.cfg.panels * s.cfg.panelRows ∧
    s.regionSize (.mask d) = 768 * s.cfg.panels * s.cfg.panelRows ∧
    s.regionSize (.dyn d) = 768 * s.cfg.panels * s.cfg.panelRows ∧
    s.regionSize (.disp d) = 768 * s.cfg.panels * s.cfg.panelRows ∧
    (i < s.cfg.maxSb → (s.slot i).occupied = true → s.regionSize (.arena i) = (s.slot i).bufSize.toNat) ∧
    ((s.slot i).occupied = false → s.regionSize (.arena i) = 0) ∧
    (b < s.cfg.numBuses → s.regionSize (.lcd b) = 960 * s.cfg.panels)

/-- Reset between commands resets the whole system, the BUSY inputs with it, and keeps the parameters (R96); the events
still to come are the environment's and stay (log 5). -/
def Obligations.ResetEventResetsTheSystem : Prop :=
  ∀ (s : State) (es : List Event), s.cfg.admitted = true → s.inputs = .reset :: es →
    ∃ t, step s = .next t ∧ t.cfg = s.cfg ∧ t.inputs = es ∧ t.status = 0x00 ∧ t.result = 0 ∧ t.dest = 0xFF ∧
      t.maskEn = 0 ∧ (∀ i, t.slot i = Descriptor.free) ∧ (∀ r i, t.readByte r i = 0) ∧ (∀ b, t.busyAt b = false)

/-- The state after reset holds the values of R95. -/
def Obligations.ResetStateHoldsTheSpecValues : Prop :=
  State.reset.status = 0x00 ∧ State.reset.result = 0 ∧ State.reset.dest = 0xFF ∧ State.reset.maskEn = 0 ∧
    (∀ i, (State.reset.slot i) = Descriptor.free) ∧ (∀ r i, State.reset.readByte r i = 0) ∧
    (∀ b, State.reset.busyAt b = false)

/-- R25: a display pixel is one bit of one byte of a bitmap buffer, at the place the formula gives; writing it writes
that bit alone, and no two pixels share a bit. -/
def Obligations.PixelsLieAtTheirByteAndBit : Prop :=
  ∀ (c : Config) (m : Memory) (x y : Nat) (b : Bool), m.wf → x < 96 * c.panels → y < 64 * c.panelRows →
    let byte := ((y / 32) * c.panels + x / 96) * 384 + (x % 96) * 4 + (y % 32) / 8
    let bit := (y % 32) % 8
    byte < 768 * c.panels * c.panelRows ∧
    pixRead c m x y = (m.read byte).getLsbD bit ∧
    (∀ j k, k < 8 →
      ((pixWrite c m x y b).read j).getLsbD k = if j = byte ∧ k = bit then b else (m.read j).getLsbD k) ∧
    ∀ x' y', x' < 96 * c.panels → y' < 64 * c.panelRows →
      pixRead c (pixWrite c m x y b) x' y' = if x' = x ∧ y' = y then b else pixRead c m x' y'

/-! ## All commands -/

/-- Every command completes in every state, and one that reports a failure changes STATUS and RESULT and nothing else
(R88). -/
def Obligations.FailedCommandsChangeOnlyStatusAndResult : Prop :=
  ∀ (i : Instr) (s : State), ∃ t, exec i s = .next t ∧ t.status.toNat ≤ 8 ∧ s.sameOutside t ∧
    (t.status ≠ 0x00 → t = { s with status := t.status, result := 0 })

/-- A byte of a region changes only by the commands the "written by" column of 20_memory R24 names for it. -/
def Obligations.RegionBytesWrittenOnlyByTheirCommands : Prop :=
  ∀ (i : Instr) (s t : State), exec i s = .next t →
    ∀ r j, t.readByte r j ≠ s.readByte r j → r.writtenBy i = true

/-- DEST is written only by SET_DEST, MASK_EN only by SET_MASK_EN, the descriptor table only by the commands of its
"written by" column (10_state R13, R14, R15). -/
def Obligations.RegistersWrittenOnlyByTheirCommands : Prop :=
  ∀ (i : Instr) (s t : State), exec i s = .next t →
    (t.dest ≠ s.dest → i = .setDest t.dest) ∧
    (t.maskEn ≠ s.maskEn → i = .setMaskEn (t.maskEn.setWidth 8)) ∧
    (t.slots ≠ s.slots → writesSlots i = true)

/-- BUSY is read by CONVERT alone: any other command does the same whatever the consumers drive. -/
def Obligations.BusyInputsReadOnlyByConvert : Prop :=
  ∀ (i : Instr) (s t : State) (levels : List Bool), i.opcode ≠ .convert → exec i s = .next t →
    exec i { s with busy := levels } = .next { t with busy := levels }

/-- R32: while BUSY[b] = 1 no step but a reset of the whole system changes a byte of LCDBUF[b]. -/
def Obligations.LcdBufferKeptWhileBusy : Prop :=
  ∀ (s t : State) (b : Nat), s.busyAt b = true → step s = .next t → (∀ es, s.inputs ≠ .reset :: es) →
    ∀ j, t.readByte (.lcd b) j = s.readByte (.lcd b) j

/-- R103: from the moment BUSY[b] is 1, through any number of commands, HostReads and BUSY changes of the other buses,
LCDBUF[b] never changes. -/
def Obligations.LcdBufferKeptThroughTheTransfer : Prop :=
  ∀ (s t : State) (b : Nat) (es rest : List Event), s.busyAt b = true → s.inputs = es ++ rest →
    (∀ e ∈ es, e ≠ .reset ∧ e ≠ .busy b false) → Host.Core.run core es.length s = .next t →
    t.busyAt b = true ∧ ∀ j, t.readByte (.lcd b) j = s.readByte (.lcd b) j

/-- Commands issued as separate frames run in order, each on the state the one before left, and a failed one does not
stop the later ones (20_memory R31, 30_encoding R47). -/
def Obligations.IssuedCommandsRunInOrder : Prop :=
  ∀ (is : List Instr) (s : State) (es : List Event), (∀ i ∈ is, i.wellFormed = true) → s.cfg.admitted = true →
    s.inputs = commandEvents is ++ es →
    ∃ t, runInOrder is { s with inputs := es } = some t ∧ Host.Core.run core is.length s = .next t

/-! ## The invariant -/

/-- Every step keeps the invariant. -/
def Obligations.EveryStepKeepsTheInvariant : Prop :=
  ∀ s t : State, s.Inv → step s = .next t → t.Inv

/-- The state after reset has the invariant, and so has the reset of a machine with any admitted parameters. -/
def Obligations.ResetHasTheInvariant : Prop :=
  State.reset.Inv ∧ ∀ (c : Config) (es : List Event), c.admitted = true → (State.resetWith c es).Inv

/-! ## The converter (41_converter) -/

/-- R53: the 100 data bytes of four regions, ten byte-aligned columns and then fifteen nibble-shifted bytes each. -/
def Obligations.DataBytesByRegion : Prop :=
  ∀ (v : Nat → Byte) (q j : Nat), q < 4 →
    (j ≤ 9 → dataByte v (25 * q + j) = v (24 * q + j)) ∧
    (j ≤ 14 → dataByte v (25 * q + 10 + j) =
      ((v (24 * q + 10 + j - 1) >>> 4) |||
        ((if 24 * q + 10 + j ≤ 95 then v (24 * q + 10 + j) else 0x00) <<< 4)))

/-- R49: the source half-panel of each chain index, for both wirings, and the chain visits every half-panel of the panel
row exactly once. -/
def Obligations.ChainVisitsEveryHalfPanelOnce : Prop :=
  ∀ c : Config, 1 ≤ c.panels →
    (∀ h, h < 2 * c.panels →
      (c.topology = .uLoop → c.panels ≤ h → halfPanelOf c h = ⟨0, h - c.panels, false⟩) ∧
      (c.topology = .uLoop → h < c.panels → halfPanelOf c h = ⟨1, c.panels - 1 - h, true⟩) ∧
      (c.topology = .linear → halfPanelOf c h = ⟨h / c.panels, h % c.panels, false⟩)) ∧
    ∀ row col, row < 2 → col < c.panels →
      ∃ h, h < 2 * c.panels ∧ (halfPanelOf c h).row = row ∧ (halfPanelOf c h).col = col ∧
        ∀ h', h' < 2 * c.panels → (halfPanelOf c h').row = row → (halfPanelOf c h').col = col → h' = h

/-- R51 and R52: the column byte of a half-panel that is not rotated is the stored byte, bit-reversed for COM2 and COM3;
of a rotated one it is read at column 95 - c and offset 3 - k, and the two reversals cancel for COM2 and COM3. -/
def Obligations.ColumnByteFetchAndEndianCorrection : Prop :=
  (∀ (v : Byte) (i : Nat), i < 8 → (rev8 v).getLsbD i = v.getLsbD (7 - i)) ∧
  ∀ (c : Config) (src : Memory) (base h col : Nat) (k : Backplane), col ≤ 95 →
    let p := halfPanelOf c h
    let hpBase := base + (p.row * c.panels + p.col) * 384
    let stored := src.read (hpBase + col * 4 + k.offset)
    let turned := src.read (hpBase + (95 - col) * 4 + (3 - k.offset))
    (p.rotated = false → columnByte c src base h k col = if k = .com2 ∨ k = .com3 then rev8 stored else stored) ∧
    (p.rotated = true → columnByte c src base h k col = if k = .com2 ∨ k = .com3 then turned else rev8 turned)

/-- R55 and R58: a CONVERT with legal operands on an idle bus writes every byte of LCDBUF[bus], data bytes and control
bytes at their indices, reports OK with the byte length, and leaves everything else. -/
def Obligations.ConvertWritesTheFrame : Prop :=
  ∀ (s : State) (bus side row ram : Byte) (d : Side), s.Inv → bus.toNat < s.cfg.numBuses →
    (side = 0x01 ∧ d = .a ∨ side = 0x02 ∧ d = .b) → row.toNat < s.cfg.panelRows → ram.toNat ≤ 1 →
    s.busyAt bus.toNat = false →
    ∃ t, exec (.convert bus side row ram) s = .next t ∧ t.status = 0x00 ∧
      (480 * (2 * s.cfg.panels) < 2 ^ 32 → t.result.toNat = 480 * (2 * s.cfg.panels)) ∧
      (∀ st h g, st < 4 → h < 2 * s.cfg.panels → g < 20 →
        let k := [Backplane.com2, .com1, .com3, .com0].getD st .com0
        let at' := st * (120 * (2 * s.cfg.panels)) + h * 120 + g * 6
        let v := columnByte s.cfg (s.region (.disp d)) (row.toNat * (2 * s.cfg.panels) * 384) h k
        (∀ n, n < 5 → t.readByte (.lcd bus.toNat) (at' + n) = dataByte v (5 * g + n)) ∧
        t.readByte (.lcd bus.toNat) (at' + 5) =
          s.cfg.ctrlMux4 ||| (if ram = 0 then s.cfg.ctrlRam1 else s.cfg.ctrlRam2) ||| ctrlAddr s.cfg k) ∧
      s.sameOutside t ∧ t.dest = s.dest ∧ t.maskEn = s.maskEn ∧ t.slots = s.slots ∧
      s.sameBytes t (fun r => r = .lcd bus.toNat)

/-- R58 with R87: an operand outside its legal set is BAD_OPERAND, also when the bus is busy; a busy bus is BUSY; nothing
else changes in either case. -/
def Obligations.ConvertRefusals : Prop :=
  ∀ (s : State) (bus side row ram : Byte),
    let bad := s.cfg.numBuses ≤ bus.toNat ∨ (side ≠ 0x01 ∧ side ≠ 0x02) ∨ s.cfg.panelRows ≤ row.toNat ∨ 1 < ram.toNat
    (bad → exec (.convert bus side row ram) s = .next { s with status := 0x05, result := 0 }) ∧
    (¬ bad → s.busyAt bus.toNat = true →
      exec (.convert bus side row ram) s = .next { s with status := 0x03, result := 0 })

/-- R58: CONVERT never reads DISP bytes outside panel row `row`. -/
def Obligations.ConvertReadsOnlyItsPanelRow : Prop :=
  ∀ (s : State) (disp' : Sided Memory) (bus side row ram : Byte) (d : Side), s.Inv → bus.toNat < s.cfg.numBuses →
    (side = 0x01 ∧ d = .a ∨ side = 0x02 ∧ d = .b) → row.toNat < s.cfg.panelRows → ram.toNat ≤ 1 →
    s.busyAt bus.toNat = false →
    (∀ j, row.toNat * (2 * s.cfg.panels) * 384 ≤ j → j < (row.toNat + 1) * (2 * s.cfg.panels) * 384 →
      (s.disp.get d).read j = (disp'.get d).read j) →
    ∃ t t', exec (.convert bus side row ram) s = .next t ∧
      exec (.convert bus side row ram) { s with disp := disp' } = .next t' ∧
      t'.status = t.status ∧ t'.result = t.result ∧
      ∀ j, t'.readByte (.lcd bus.toNat) j = t.readByte (.lcd bus.toNat) j

/-- R59: every byte of the converted panel row can be recovered from the LCD buffer by the test-only inverse. -/
def Obligations.ConvertedRowIsRecoverable : Prop :=
  ∀ (s : State) (bus side row ram : Byte) (d : Side), s.Inv → bus.toNat < s.cfg.numBuses →
    (side = 0x01 ∧ d = .a ∨ side = 0x02 ∧ d = .b) → row.toNat < s.cfg.panelRows → ram.toNat ≤ 1 →
    s.busyAt bus.toNat = false →
    ∃ t, exec (.convert bus side row ram) s = .next t ∧
      ∀ n, n < 2 * s.cfg.panels * 384 →
        recoveredByte s.cfg (t.region (.lcd bus.toNat)) n =
          s.readByte (.disp d) (row.toNat * (2 * s.cfg.panels) * 384 + n)

/-- R60: at the byte-aligned positions of a half-panel that is not rotated, the output byte is the source byte for COM0
and COM1 and its bit-reversal for COM2 and COM3. -/
def Obligations.AlignedPositionsKeepBitOrder : Prop :=
  ∀ (c : Config) (src : Memory) (base h q j : Nat) (k : Backplane), (halfPanelOf c h).rotated = false → q < 4 →
    j ≤ 9 →
    let p := halfPanelOf c h
    let source := src.read (base + (p.row * c.panels + p.col) * 384 + (24 * q + j) * 4 + k.offset)
    dataByte (columnByte c src base h k) (25 * q + j) =
      if k = .com0 ∨ k = .com1 then source else rev8 source

/-- R45 and R56: the eight control bytes of the default parameters, and the bit order of each step's slice. -/
def Obligations.ControlByteAndBitOrderTables : Prop :=
  (let c := Config.default
   [ctrlByte c 0 .com0, ctrlByte c 0 .com1, ctrlByte c 0 .com2, ctrlByte c 0 .com3] = [0x30, 0x31, 0x32, 0x33] ∧
   [ctrlByte c 1 .com0, ctrlByte c 1 .com1, ctrlByte c 1 .com2, ctrlByte c 1 .com3] = [0x34, 0x35, 0x36, 0x37]) ∧
  (∀ st, st < 4 → (msbFirstAt st = true ↔ st = 1 ∨ st = 3))

/-! ## Scroll-buffer descriptors (42_scroll_descriptors) -/

/-- R64: SB_CREATE fills the lowest free slot, reports its id, zeroes its arena, and leaves everything else. -/
def Obligations.CreateFillsTheLowestFreeSlot : Prop :=
  ∀ (s : State) (x : SbFields) (i : Nat), s.Inv → x.side.toNat ≤ 3 → x.intW ≠ 0 → x.intH ≠ 0 → i < s.cfg.maxSb →
    (s.slot i).occupied = false → (∀ j, j < i → (s.slot j).occupied = true) →
    x.intW.toNat * ((x.intH.toNat + 7) / 8) ≤ s.cfg.slotBytes →
    ∃ t, exec (.sbCreate x) s = .next t ∧ t.status = 0x00 ∧ t.result.toNat = i ∧
      (let e := t.slot i
       e.occupied = true ∧ e.side.toNat = x.side.toNat ∧ e.dispX = x.dispX ∧ e.dispY = x.dispY ∧ e.dispW = x.dispW ∧
        e.dispH = x.dispH ∧ e.intW = x.intW ∧ e.intH = x.intH ∧
        e.bufSize.toNat = x.intW.toNat * ((x.intH.toNat + 7) / 8) ∧
        e.offX.toNat = x.offX.toNat % x.intW.toNat ∧ e.offY.toNat = x.offY.toNat % x.intH.toNat ∧
        e.speedX = x.speedX ∧ e.speedY = x.speedY ∧ e.stepX = x.stepX ∧ e.stepY = x.stepY ∧ e.tickX = 0 ∧
        e.tickY = 0) ∧
      (∀ j, j ≠ i → t.slot j = s.slot j) ∧ (∀ j, t.readByte (.arena i) j = 0) ∧
      s.sameOutside t ∧ t.dest = s.dest ∧ t.maskEn = s.maskEn ∧ s.sameBytes t (fun r => r = .arena i)

/-- R64 with R87: BAD_OPERAND, then POOL_FULL, then ALLOC_FAIL, with nothing else changed. -/
def Obligations.CreateRefusals : Prop :=
  ∀ (s : State) (x : SbFields), s.Inv →
    let bad := 3 < x.side.toNat ∨ x.intW = 0 ∨ x.intH = 0
    let full := ∀ j, j < s.cfg.maxSb → (s.slot j).occupied = true
    (bad → exec (.sbCreate x) s = .next { s with status := 0x05, result := 0 }) ∧
    (¬ bad → full → exec (.sbCreate x) s = .next { s with status := 0x01, result := 0 }) ∧
    (¬ bad → ¬ full → s.cfg.slotBytes < x.intW.toNat * ((x.intH.toNat + 7) / 8) →
      exec (.sbCreate x) s = .next { s with status := 0x02, result := 0 })

/-- R65: SB_UPDATE merges the written fields, reduces the offsets, restarts the tick of a written speed, zeroes the arena
on a resize and both dynamic layers on a geometry change, and leaves everything else. -/
def Obligations.UpdateMergesTheWrittenFields : Prop :=
  ∀ (s : State) (id : Byte) (x : SbFields), s.Inv → id.toNat < s.cfg.maxSb → (s.slot id.toNat).occupied = true →
    (x.side = 0xFF ∨ x.side.toNat ≤ 3) → x.intW ≠ 0 → x.intH ≠ 0 →
    let old := s.slot id.toNat
    let pick := fun (operand kept : Half) => if operand = 0xFFFF then kept else operand
    let pickStep := fun (operand kept : Half) => if operand = 0x8000 then kept else operand
    let w := pick x.intW old.intW
    let h := pick x.intH old.intH
    let resize := w ≠ old.intW ∨ h ≠ old.intH
    (resize → w.toNat * ((h.toNat + 7) / 8) ≤ s.cfg.slotBytes) →
    ∃ t, exec (.sbUpdate id x) s = .next t ∧ t.status = 0x00 ∧ t.result = 0 ∧
      (let new := t.slot id.toNat
       let geometry := new.side ≠ old.side ∨ new.dispX ≠ old.dispX ∨ new.dispY ≠ old.dispY ∨ new.dispW ≠ old.dispW ∨
        new.dispH ≠ old.dispH ∨ resize
       new.occupied = true ∧ new.side.toNat = (if x.side = 0xFF then old.side.toNat else x.side.toNat) ∧
        new.dispX = pick x.dispX old.dispX ∧ new.dispY = pick x.dispY old.dispY ∧
        new.dispW = pick x.dispW old.dispW ∧ new.dispH = pick x.dispH old.dispH ∧ new.intW = w ∧ new.intH = h ∧
        new.bufSize.toNat = w.toNat * ((h.toNat + 7) / 8) ∧
        new.offX.toNat = (pick x.offX old.offX).toNat % w.toNat ∧
        new.offY.toNat = (pick x.offY old.offY).toNat % h.toNat ∧
        new.speedX = pick x.speedX old.speedX ∧ new.speedY = pick x.speedY old.speedY ∧
        new.stepX = pickStep x.stepX old.stepX ∧ new.stepY = pickStep x.stepY old.stepY ∧
        new.tickX = (if x.speedX = 0xFFFF then old.tickX else 0) ∧
        new.tickY = (if x.speedY = 0xFFFF then old.tickY else 0) ∧
        (resize → ∀ j, t.readByte (.arena id.toNat) j = 0) ∧
        (¬ resize → ∀ j, t.readByte (.arena id.toNat) j = s.readByte (.arena id.toNat) j) ∧
        (geometry → ∀ d j, t.readByte (.dyn d) j = 0) ∧
        (¬ geometry → ∀ d j, t.readByte (.dyn d) j = s.readByte (.dyn d) j)) ∧
      (∀ j, j ≠ id.toNat → t.slot j = s.slot j) ∧ s.sameOutside t ∧ t.dest = s.dest ∧ t.maskEn = s.maskEn ∧
      s.sameBytes t (fun r => r = .arena id.toNat ∨ ∃ d, r = .dyn d)

/-- R65 with R87: BAD_OPERAND before INVALID_REF before ALLOC_FAIL (of a resize only), with nothing else changed. -/
def Obligations.UpdateRefusals : Prop :=
  ∀ (s : State) (id : Byte) (x : SbFields),
    let bad := (x.side ≠ 0xFF ∧ 3 < x.side.toNat) ∨ x.intW = 0 ∨ x.intH = 0
    let live := id.toNat < s.cfg.maxSb ∧ (s.slot id.toNat).occupied = true
    let w := if x.intW = 0xFFFF then (s.slot id.toNat).intW else x.intW
    let h := if x.intH = 0xFFFF then (s.slot id.toNat).intH else x.intH
    (bad → exec (.sbUpdate id x) s = .next { s with status := 0x05, result := 0 }) ∧
    (¬ bad → ¬ live → exec (.sbUpdate id x) s = .next { s with status := 0x04, result := 0 }) ∧
    (¬ bad → live → (w ≠ (s.slot id.toNat).intW ∨ h ≠ (s.slot id.toNat).intH) →
      s.cfg.slotBytes < w.toNat * ((h.toNat + 7) / 8) →
      exec (.sbUpdate id x) s = .next { s with status := 0x02, result := 0 })

/-- An SB_UPDATE with every field its sentinel reports OK and changes nothing (42_scroll_descriptors R65, corner cases);
this rests on the descriptor invariants. -/
def Obligations.UpdateOfAllSentinelsChangesNothing : Prop :=
  ∀ (s : State) (id : Byte), s.Inv → id.toNat < s.cfg.maxSb → (s.slot id.toNat).occupied = true →
    exec (.sbUpdate id keepAll) s = .next { s with status := 0x00, result := 0 }

/-- R66: SB_DELETE of a live slot that DEST does not name restores the slot's reset values, zeroes its arena and both
dynamic layers, and leaves everything else. -/
def Obligations.DeleteFreesTheSlot : Prop :=
  ∀ (s : State) (id : Byte), s.Inv → id.toNat < s.cfg.maxSb → (s.slot id.toNat).occupied = true →
    s.dest.toNat ≠ 0x80 + id.toNat →
    ∃ t, exec (.sbDelete id) s = .next t ∧ t.status = 0x00 ∧ t.result = 0 ∧
      t.slot id.toNat = Descriptor.free ∧ (∀ j, j ≠ id.toNat → t.slot j = s.slot j) ∧
      (∀ j, t.readByte (.arena id.toNat) j = 0) ∧ (∀ d j, t.readByte (.dyn d) j = 0) ∧
      s.sameOutside t ∧ t.dest = s.dest ∧ t.maskEn = s.maskEn ∧
      s.sameBytes t (fun r => r = .arena id.toNat ∨ ∃ d, r = .dyn d)

/-- R66: INVALID_REF for an id out of range or a free slot, IN_USE for the slot DEST names, with nothing else changed. -/
def Obligations.DeleteRefusals : Prop :=
  ∀ (s : State) (id : Byte),
    let live := id.toNat < s.cfg.maxSb ∧ (s.slot id.toNat).occupied = true
    (¬ live → exec (.sbDelete id) s = .next { s with status := 0x04, result := 0 }) ∧
    (live → s.dest.toNat = 0x80 + id.toNat → exec (.sbDelete id) s = .next { s with status := 0x08, result := 0 })

/-! ## The compositor (43_compositor) -/

/-- R68 and R69: ADVANCE moves each axis of every occupied slot by one tick and leaves everything else. -/
def Obligations.AdvanceMovesOccupiedSlots : Prop :=
  ∀ s : State, s.Inv →
    ∃ t, exec .advance s = .next t ∧ t.status = 0x00 ∧ t.result = 0 ∧
      (∀ i, (s.slot i).occupied = false → t.slot i = s.slot i) ∧
      (∀ i, (s.slot i).occupied = true →
        let e := s.slot i
        let e' := t.slot i
        let axis := fun (dim speed step off tick off' tick' : Half) =>
          (speed = 0 → off' = off ∧ tick' = tick) ∧
          (speed ≠ 0 → tick.toNat + 1 < speed.toNat → off' = off ∧ tick'.toNat = tick.toNat + 1) ∧
          (speed ≠ 0 → speed.toNat ≤ tick.toNat + 1 →
            tick' = 0 ∧ (off'.toNat : Int) = ((off.toNat : Int) + step.toInt) % (dim.toNat : Int))
        axis e.intW e.speedX e.stepX e.offX e.tickX e'.offX e'.tickX ∧
        axis e.intH e.speedY e.stepY e.offY e.tickY e'.offY e'.tickY ∧
        e' = { e with offX := e'.offX, tickX := e'.tickX, offY := e'.offY, tickY := e'.tickY }) ∧
      s.sameOutside t ∧ t.dest = s.dest ∧ t.maskEn = s.maskEn ∧ s.sameBytes t (fun _ => False)

/-- R68: with speed v ≥ 1 the offset moves once every v ADVANCE commands: from a counter at 0, v ADVANCE frames move it by
one step and bring the counter back to 0, and fewer leave it; on both axes. -/
def Obligations.OffsetMovesOncePerSpeedTicks : Prop :=
  ∀ (s : State) (i n : Nat) (es : List Event), s.Inv → (s.slot i).occupied = true →
    s.inputs = List.replicate n (.command [0x30]) ++ es →
    ∃ t, Host.Core.run core n s = .next t ∧
      (let e := s.slot i
       let e' := t.slot i
       let axis := fun (dim speed step off tick off' tick' : Half) =>
        speed ≠ 0 → tick = 0 →
          (n < speed.toNat → off' = off ∧ tick'.toNat = n) ∧
          (n = speed.toNat → tick' = 0 ∧ (off'.toNat : Int) = ((off.toNat : Int) + step.toInt) % (dim.toNat : Int))
       axis e.intW e.speedX e.stepX e.offX e.tickX e'.offX e'.tickX ∧
       axis e.intH e.speedY e.stepY e.offY e.tickY e'.offY e'.tickY)

/-- R77, property 2: for a slot with speedX = 1, an ADVANCE with stepX = t, an SB_UPDATE that writes stepX = -t and
speedX = 1, and an ADVANCE return offX to its value. -/
def Obligations.OppositeStepReturnsTheOffset : Prop :=
  ∀ (s : State) (id : Byte), s.Inv → id.toNat < s.cfg.maxSb → (s.slot id.toNat).occupied = true →
    (s.slot id.toNat).speedX = 1 → (s.slot id.toNat).stepX ≠ 0x8000 →
    ∃ t, runInOrder
        [.advance, .sbUpdate id { keepAll with speedX := 1, stepX := -(s.slot id.toNat).stepX }, .advance] s = some t ∧
      (t.slot id.toNat).offX = (s.slot id.toNat).offX

/-- R71 and R72: after RENDER every display pixel that some slot's window covers shows the source pixel of the highest
such slot, read toroidally; every other pixel of the dynamic layers, and everything else, stays. -/
def Obligations.RenderShowsTheHighestCoveringSlot : Prop :=
  ∀ s : State, s.Inv →
    ∃ t, exec .render s = .next t ∧ t.status = 0x00 ∧ t.result = 0 ∧
      (∀ d x y, x < 96 * s.cfg.panels → y < 64 * s.cfg.panelRows →
        (∀ i, s.covers d x y i → (∀ j, i < j → ¬ s.covers d x y j) →
          let e := s.slot i
          let ix := (x - e.dispX.toNat + e.offX.toNat) % e.intW.toNat
          let iy := (y - e.dispY.toNat + e.offY.toNat) % e.intH.toNat
          pixRead s.cfg (t.region (.dyn d)) x y =
            (s.readByte (.arena i) (ix * ((e.intH.toNat + 7) / 8) + iy / 8)).getLsbD (iy % 8)) ∧
        ((∀ i, ¬ s.covers d x y i) → pixRead s.cfg (t.region (.dyn d)) x y = pixRead s.cfg (s.region (.dyn d)) x y)) ∧
      t.slots = s.slots ∧ s.sameOutside t ∧ t.dest = s.dest ∧ t.maskEn = s.maskEn ∧
      s.sameBytes t (fun r => ∃ d, r = .dyn d)

/-- R77, property 5: two RENDER commands with no command between give the same state as one. -/
def Obligations.RenderTwiceIsRenderOnce : Prop :=
  ∀ s : State, s.Inv → ∃ t, runInOrder [.render] s = some t ∧ runInOrder [.render, .render] s = some t

/-- R73: the byte-at-a-time blender writes the same bytes as the pixel rule, for every live slot. -/
def Obligations.BlenderWritesTheSameBytes : Prop :=
  ∀ (c : Config) (e : Descriptor) (bitmap dyn : Memory), e.live c → dyn.fits c.bitmapBytes →
    blendSlot c e bitmap dyn = renderSlot c e bitmap dyn

/-- R74 and R78: for every byte the window touches, the shift and the mask of its alignment case are those of the
blender, the shift is in 0..7 and the mask is not 0. -/
def Obligations.AlignmentCasesGiveShiftAndMask : Prop :=
  ∀ (c : Config) (e : Descriptor) (j : Nat), e.live c → e.dispY.toNat < windowEndY c e → firstByte e ≤ j →
    j ≤ lastByte c e →
    caseMask c e j = blendMask c e j ∧ blendMask c e j ≠ 0 ∧ caseShift e (alignCase c e j) ≤ 7 ∧
      (e.intH.toNat % 8 = 0 → blendRow e j % 8 = caseShift e (alignCase c e j)) ∧
      (scrollPhase e = windowPhase e ↔ caseShift e (alignCase c e j) = 0)

/-- R77, property 3: rendering a slot whose internal bitmap is all ones sets exactly the window's bits and leaves every
other bit. -/
def Obligations.AllOnesRenderSetsExactlyTheWindow : Prop :=
  ∀ (c : Config) (e : Descriptor) (bitmap dyn : Memory), e.live c → dyn.fits c.bitmapBytes →
    (∀ ix iy, ix < e.intW.toNat → iy < e.intH.toNat → sbPix e bitmap ix iy = true) →
    ∀ x y, x < 96 * c.panels → y < 64 * c.panelRows →
      (pixRead c (renderSlot c e bitmap dyn) x y = true ↔ e.inWindow x y ∨ pixRead c dyn x y = true) ∧
      (¬ e.inWindow x y → pixRead c (renderSlot c e bitmap dyn) x y = pixRead c dyn x y)

/-- R27: the padding bits of a scroll buffer's columns are never read: two bitmaps that agree on the pixels of the
internal bitmap render alike. -/
def Obligations.PaddingBitsAreNeverRead : Prop :=
  ∀ (c : Config) (e : Descriptor) (bitmap bitmap' dyn : Memory), e.live c →
    (∀ ix iy, ix < e.intW.toNat → iy < e.intH.toNat → sbPix e bitmap ix iy = sbPix e bitmap' ix iy) →
    renderSlot c e bitmap dyn = renderSlot c e bitmap' dyn

/-- R75 and R76: MERGE composes every byte of the display buffer of each side it names, by MASK_EN and the mask polarity,
and leaves everything else. -/
def Obligations.MergeComposesTheLayers : Prop :=
  ∀ (s : State) (side : Byte), (side = 0x01 ∨ side = 0x02 ∨ side = 0x03) →
    let names := fun d => match d with
      | Side.a => side = 0x01 ∨ side = 0x03
      | Side.b => side = 0x02 ∨ side = 0x03
    ∃ t, exec (.merge side) s = .next t ∧ t.status = 0x00 ∧ t.result = 0 ∧
      (∀ d, names d → ∀ j, j < 768 * s.cfg.panels * s.cfg.panelRows →
        let st := s.readByte (.static d) j
        let mk := s.readByte (.mask d) j
        let dy := s.readByte (.dyn d) j
        (s.maskEn = 0 → t.readByte (.disp d) j = st) ∧
        (s.maskEn = 1 → s.cfg.maskPolarity = .showDynamic →
          t.readByte (.disp d) j = ((st &&& (0xFF ^^^ mk)) ||| (dy &&& mk))) ∧
        (s.maskEn = 1 → s.cfg.maskPolarity = .showStatic →
          t.readByte (.disp d) j = ((st &&& mk) ||| (dy &&& (0xFF ^^^ mk))))) ∧
      t.slots = s.slots ∧ s.sameOutside t ∧ t.dest = s.dest ∧ t.maskEn = s.maskEn ∧
      s.sameBytes t (fun r => ∃ d, names d ∧ r = .disp d)

/-- R76: MERGE of side 0 or of a side of 4 or more is BAD_OPERAND with nothing else changed. -/
def Obligations.MergeRefusesOtherSides : Prop :=
  ∀ (s : State) (side : Byte), side = 0x00 ∨ 4 ≤ side.toNat →
    exec (.merge side) s = .next { s with status := 0x05, result := 0 }

/-- R77, property 6: MERGE is idempotent and depends only on STATIC, MASK, DYN and MASK_EN: no earlier DISP value
survives a MERGE of both sides. -/
def Obligations.MergeDependsOnlyOnTheLayers : Prop :=
  (∀ (s : State) (side : Byte), ∃ t, runInOrder [.merge side] s = some t ∧
    runInOrder [.merge side, .merge side] s = some t) ∧
  ∀ s s' : State, s'.cfg = s.cfg → s'.maskEn = s.maskEn → s'.static = s.static → s'.mask = s.mask → s'.dyn = s.dyn →
    ∃ t t', exec (.merge 0x03) s = .next t ∧ exec (.merge 0x03) s' = .next t' ∧ t'.disp = t.disp

/-! ## Host control (44_host_control) -/

/-- R79: NOP reports OK with RESULT 0 and changes nothing else. -/
def Obligations.NopReportsOk : Prop :=
  ∀ s : State, exec .nop s = .next { s with status := 0x00, result := 0 }

/-- R80: SET_DEST accepts the layer selectors, NONE, and SCROLL(id) of an occupied slot. -/
def Obligations.SetDestAcceptsLegalSelectors : Prop :=
  ∀ (s : State) (sel : Byte),
    sel ∈ ([0x00, 0x01, 0x02, 0x10, 0x11, 0x12, 0x20, 0x21, 0x22, 0xFF] : List Byte) ∨
      (0x80 ≤ sel.toNat ∧ sel.toNat ≤ 0xFE ∧ sel.toNat - 0x80 < s.cfg.maxSb ∧
        (s.slot (sel.toNat - 0x80)).occupied = true) →
    exec (.setDest sel) s = .next { s with dest := sel, status := 0x00, result := 0 }

/-- R80: INVALID_REF for a scroll buffer out of range or unoccupied, BAD_OPERAND for a reserved selector; DEST keeps its
value. -/
def Obligations.SetDestRefusals : Prop :=
  ∀ (s : State) (sel : Byte),
    (0x80 ≤ sel.toNat → sel.toNat ≤ 0xFE →
      (s.cfg.maxSb ≤ sel.toNat - 0x80 ∨ (s.slot (sel.toNat - 0x80)).occupied = false) →
      exec (.setDest sel) s = .next { s with status := 0x04, result := 0 }) ∧
    ((0x03 ≤ sel.toNat ∧ sel.toNat ≤ 0x0F) ∨ (0x13 ≤ sel.toNat ∧ sel.toNat ≤ 0x1F) ∨
        (0x23 ≤ sel.toNat ∧ sel.toNat ≤ 0x7F) →
      exec (.setDest sel) s = .next { s with status := 0x05, result := 0 })

/-- R81 and R83: GET_DEST reports DEST and GET_MASK_EN reports MASK_EN in RESULT; nothing else changes. -/
def Obligations.GettersReportTheRegister : Prop :=
  ∀ s : State,
    (∃ t, exec .getDest s = .next t ∧ t.result.toNat = s.dest.toNat ∧ t = { s with status := 0x00, result := t.result }) ∧
    (∃ t, exec .getMaskEn s = .next t ∧ t.result.toNat = s.maskEn.toNat ∧
      t = { s with status := 0x00, result := t.result })

/-- R82: SET_MASK_EN writes 0 or 1; any other operand is BAD_OPERAND with MASK_EN unchanged. -/
def Obligations.SetMaskEnWritesTheFlag : Prop :=
  ∀ (s : State) (en : Byte),
    (en.toNat ≤ 1 → ∃ t, exec (.setMaskEn en) s = .next t ∧ t.maskEn.toNat = en.toNat ∧
      t = { s with maskEn := t.maskEn, status := 0x00, result := 0 }) ∧
    (2 ≤ en.toNat → exec (.setMaskEn en) s = .next { s with status := 0x05, result := 0 })

/-- R84 with R43: a LOAD of exactly BBS bytes writes them to each layer memory DEST selects, "both sides" selectors to
both, and leaves everything else. -/
def Obligations.LoadWritesTheSelectedLayers : Prop :=
  ∀ (s : State) (sel : Byte) (rs : List Region) (len : Word) (data : List Byte), s.Inv → (sel, rs) ∈ layerSelectors →
    s.dest = sel → data.length = len.toNat → len.toNat = 768 * s.cfg.panels * s.cfg.panelRows →
    ∃ t, exec (.load len data) s = .next t ∧ t.status = 0x00 ∧ t.result = 0 ∧
      (∀ r ∈ rs, ∀ j, j < len.toNat → t.readByte r j = data.getD j 0) ∧
      s.sameBytes t (fun r => r ∈ rs) ∧ t.dest = s.dest ∧ t.maskEn = s.maskEn ∧ t.slots = s.slots ∧ s.sameOutside t

/-- R84: a LOAD of exactly bufSize bytes writes them to the arena of the slot DEST names, and leaves everything else. -/
def Obligations.LoadWritesTheSelectedArena : Prop :=
  ∀ (s : State) (id : Nat) (len : Word) (data : List Byte), s.Inv → id < 127 → s.dest.toNat = 0x80 + id →
    data.length = len.toNat → len.toNat = (s.slot id).bufSize.toNat →
    ∃ t, exec (.load len data) s = .next t ∧ t.status = 0x00 ∧ t.result = 0 ∧
      (∀ j, j < len.toNat → t.readByte (.arena id) j = data.getD j 0) ∧
      (∀ j, len.toNat ≤ j → t.readByte (.arena id) j = s.readByte (.arena id) j) ∧
      s.sameBytes t (fun r => r = .arena id) ∧ t.dest = s.dest ∧ t.maskEn = s.maskEn ∧ t.slots = s.slots ∧
      s.sameOutside t

/-- R84 with R87: data bytes that are not as many as the length field are BAD_LENGTH first; then DEST = NONE is INVALID_REF
whatever the length, and a length that is not the destination's size is BAD_LENGTH; nothing else changes. -/
def Obligations.LoadRefusals : Prop :=
  ∀ (s : State) (len : Word) (data : List Byte),
    (data.length ≠ len.toNat → exec (.load len data) s = .next { s with status := 0x07, result := 0 }) ∧
    (data.length = len.toNat → s.dest = 0xFF →
      exec (.load len data) s = .next { s with status := 0x04, result := 0 }) ∧
    (∀ id, data.length = len.toNat → id < 127 → s.dest.toNat = 0x80 + id → len.toNat ≠ (s.slot id).bufSize.toNat →
      exec (.load len data) s = .next { s with status := 0x07, result := 0 }) ∧
    (∀ sel rs, data.length = len.toNat → (sel, rs) ∈ layerSelectors → s.dest = sel →
      len.toNat ≠ 768 * s.cfg.panels * s.cfg.panelRows →
      exec (.load len data) s = .next { s with status := 0x07, result := 0 })
end

