-- ==== Sys2Proof/Laws/Memory.lean ====
section
/-! SUPPORT. Region bytes: what a read gives after a write, a rebuild or a load, and that each keeps the canonical form. -/

namespace Sys2Proof.Machine

/-! The canonical form -/

theorem Memory.wf_nil : Memory.wf [] := ⟨List.Pairwise.nil, by simp⟩

theorem Memory.wf_cons {k : Nat} {v : Byte} {m : Memory} :
    Memory.wf ((k, v) :: m) ↔ (∀ c ∈ m, k < c.1) ∧ v ≠ 0 ∧ Memory.wf m := by
  simp only [Memory.wf, List.map_cons, List.pairwise_cons, List.mem_map, List.mem_cons]
  constructor
  · rintro ⟨⟨h1, h2⟩, h3⟩
    exact ⟨fun c hc => h1 _ ⟨c, hc, rfl⟩, h3 _ (Or.inl rfl), h2, fun c hc => h3 c (Or.inr hc)⟩
  · rintro ⟨h1, h2, h3, h4⟩
    refine ⟨⟨?_, h3⟩, ?_⟩
    · rintro _ ⟨c, hc, rfl⟩
      exact h1 c hc
    · rintro c (rfl | hc)
      · exact h2
      · exact h4 c hc

theorem Memory.fits_nil (n : Nat) : Memory.fits n [] := ⟨Memory.wf_nil, by simp⟩

theorem Memory.fits.mono {n n' : Nat} {m : Memory} (h : m.fits n) (hn : n ≤ n') : m.fits n' :=
  ⟨h.1, fun c hc => lt_of_lt_of_le (h.2 c hc) hn⟩

/-! Reading -/

@[simp] theorem Memory.read_nil (i : Nat) : Memory.read [] i = 0 := rfl

theorem Memory.read_below {m : Memory} {i : Nat} (h : ∀ c ∈ m, i < c.1) : m.read i = 0 := by
  cases m with
  | nil => rfl
  | cons c m =>
    obtain ⟨k, v⟩ := c
    have hk : i < k := h (k, v) (List.mem_cons_self ..)
    simp [Memory.read, hk]

/-- A canonical region reads 0 outside the indices it lists. -/
theorem Memory.read_unlisted {m : Memory} {i : Nat} (h : ∀ c ∈ m, c.1 ≠ i) : m.read i = 0 := by
  induction m with
  | nil => rfl
  | cons c m ih =>
    obtain ⟨k, v⟩ := c
    have hk : k ≠ i := h (k, v) (List.mem_cons_self ..)
    simp only [Memory.read, hk.symm, if_false]
    split
    · rfl
    · exact ih fun c hc => h c (List.mem_cons_of_mem _ hc)

theorem Memory.read_outside {n : Nat} {m : Memory} (h : m.fits n) {i : Nat} (hi : n ≤ i) : m.read i = 0 :=
  Memory.read_unlisted fun c hc => (lt_of_lt_of_le (h.2 c hc) hi).ne

theorem Memory.read_cons_below {k : Nat} {v : Byte} {m : Memory} {i : Nat} (h : i < k) :
    Memory.read ((k, v) :: m) i = 0 := by simp [Memory.read, h]

theorem Memory.read_cons_same {k : Nat} {v : Byte} {m : Memory} : Memory.read ((k, v) :: m) k = v := by
  simp [Memory.read]

theorem Memory.read_cons_above {k : Nat} {v : Byte} {m : Memory} {i : Nat} (h : k < i) :
    Memory.read ((k, v) :: m) i = m.read i := by
  simp [Memory.read, h.ne', not_lt.mpr h.le]

/-- Canonical regions with the same bytes are the same list: equal memories are equal data. -/
theorem Memory.ext_read {m m' : Memory} (h : m.wf) (h' : m'.wf) (heq : ∀ i, m.read i = m'.read i) : m = m' := by
  induction m generalizing m' with
  | nil =>
    cases m' with
    | nil => rfl
    | cons c m' =>
      obtain ⟨k, v⟩ := c
      have hv := (Memory.wf_cons.mp h').2.1
      have := heq k
      rw [Memory.read_cons_same, Memory.read_nil] at this
      exact absurd this.symm hv
  | cons c m ih =>
    obtain ⟨k, v⟩ := c
    obtain ⟨hk, hv, hm⟩ := Memory.wf_cons.mp h
    cases m' with
    | nil =>
      have := heq k
      rw [Memory.read_cons_same, Memory.read_nil] at this
      exact absurd this hv
    | cons c' m' =>
      obtain ⟨k', v'⟩ := c'
      obtain ⟨hk', hv', hm'⟩ := Memory.wf_cons.mp h'
      rcases lt_trichotomy k k' with hlt | rfl | hlt
      · have := heq k
        rw [Memory.read_cons_same, Memory.read_cons_below hlt] at this
        exact absurd this hv
      · have hvv : v = v' := by simpa [Memory.read_cons_same] using heq k
        subst hvv
        have : m = m' := by
          refine ih hm hm' fun i => ?_
          rcases lt_or_ge k i with hi | hi
          · simpa [Memory.read_cons_above hi] using heq i
          · rw [Memory.read_below fun c hc => lt_of_le_of_lt hi (hk c hc),
              Memory.read_below fun c hc => lt_of_le_of_lt hi (hk' c hc)]
        rw [this]
      · have := heq k'
        rw [Memory.read_cons_same, Memory.read_cons_below hlt] at this
        exact absurd this.symm hv'

/-! Writing one byte -/

theorem Memory.mem_write {m : Memory} {i : Nat} {v : Byte} {c : Host.Cell} (h : c ∈ m.write i v) :
    c ∈ m ∨ c = (i, v) := by
  induction m with
  | nil =>
    simp only [Memory.write] at h
    split at h <;> simp_all
  | cons d m ih =>
    obtain ⟨k, w⟩ := d
    simp only [Memory.write] at h
    split at h
    · split at h <;> simp_all
      tauto
    · split at h
      · rename_i hik
        subst hik
        split at h <;> simp_all
        tauto
      · rcases List.mem_cons.mp h with rfl | h
        · exact Or.inl (List.mem_cons_self ..)
        · rcases ih h with h | h
          · exact Or.inl (List.mem_cons_of_mem _ h)
          · exact Or.inr h

theorem Memory.wf_write {m : Memory} (h : m.wf) (i : Nat) (v : Byte) : (m.write i v).wf := by
  induction m with
  | nil =>
    simp only [Memory.write]
    split <;> simp_all [Memory.wf]
  | cons c m ih =>
    obtain ⟨k, w⟩ := c
    obtain ⟨hk, hw, hm⟩ := Memory.wf_cons.mp h
    simp only [Memory.write]
    split
    · rename_i hik
      split
      · exact h
      · rename_i hv
        refine Memory.wf_cons.mpr ⟨fun c hc => ?_, hv, h⟩
        rcases List.mem_cons.mp hc with rfl | hc
        · exact hik
        · exact hik.trans (hk c hc)
    · rename_i hik
      split
      · split
        · exact hm
        · rename_i hv
          exact Memory.wf_cons.mpr ⟨hk, hv, hm⟩
      · rename_i hne
        refine Memory.wf_cons.mpr ⟨fun c hc => ?_, hw, ih hm⟩
        rcases Memory.mem_write hc with hc | rfl
        · exact hk c hc
        · exact lt_of_le_of_ne (not_lt.mp hik) (Ne.symm hne)

theorem Memory.fits_write {n : Nat} {m : Memory} (h : m.fits n) {i : Nat} (hi : i < n) (v : Byte) :
    (m.write i v).fits n := by
  refine ⟨Memory.wf_write h.1 i v, fun c hc => ?_⟩
  rcases Memory.mem_write hc with hc | rfl
  · exact h.2 c hc
  · exact hi

/-- A read after a write: the byte written there, every other byte as before. -/
theorem Memory.read_write {m : Memory} (h : m.wf) (i j : Nat) (v : Byte) :
    (m.write i v).read j = if j = i then v else m.read j := by
  induction m with
  | nil =>
    simp only [Memory.write]
    split <;> by_cases hj : j = i <;> simp_all [Memory.read]
  | cons c m ih =>
    obtain ⟨k, w⟩ := c
    obtain ⟨hk, hw, hm⟩ := Memory.wf_cons.mp h
    simp only [Memory.write]
    split
    · rename_i hik
      split
      · rename_i hv
        subst hv
        split
        · rename_i hj
          subst hj
          exact Memory.read_cons_below hik
        · rfl
      · rcases lt_trichotomy j i with hj | rfl | hj
        · rw [Memory.read_cons_below hj, if_neg hj.ne, Memory.read_cons_below (hj.trans hik)]
        · rw [Memory.read_cons_same, if_pos rfl]
        · rw [Memory.read_cons_above hj, if_neg hj.ne']
    · rename_i hik
      split
      · rename_i hik2
        subst hik2
        split
        · rename_i hv
          subst hv
          rcases lt_trichotomy j i with hj | rfl | hj
          · rw [if_neg hj.ne, Memory.read_cons_below hj, Memory.read_below fun c hc => hj.trans (hk c hc)]
          · rw [if_pos rfl, Memory.read_below hk]
          · rw [if_neg hj.ne', Memory.read_cons_above hj]
        · rcases lt_trichotomy j i with hj | rfl | hj
          · rw [if_neg hj.ne, Memory.read_cons_below hj, Memory.read_cons_below hj]
          · rw [if_pos rfl, Memory.read_cons_same]
          · rw [if_neg hj.ne', Memory.read_cons_above hj, Memory.read_cons_above hj]
      · rename_i hne
        have hki : k < i := lt_of_le_of_ne (not_lt.mp hik) (Ne.symm hne)
        rcases lt_trichotomy j k with hj | rfl | hj
        · rw [Memory.read_cons_below hj, Memory.read_cons_below hj, if_neg (hj.trans hki).ne]
        · rw [Memory.read_cons_same, Memory.read_cons_same, if_neg hki.ne]
        · rw [Memory.read_cons_above hj, Memory.read_cons_above hj, ih hm]

/-! A region from its bytes -/

theorem Memory.mem_ofBytesFrom {k : Nat} {bytes : List Byte} {c : Host.Cell} (h : c ∈ Memory.ofBytesFrom k bytes) :
    k ≤ c.1 ∧ c.1 < k + bytes.length ∧ c.2 ≠ 0 := by
  induction bytes generalizing k with
  | nil => simp [Memory.ofBytesFrom] at h
  | cons v vs ih =>
    simp only [Memory.ofBytesFrom] at h
    simp only [List.length_cons]
    split at h
    · have := ih h
      exact ⟨by omega, by omega, this.2.2⟩
    · rename_i hv
      rcases List.mem_cons.mp h with rfl | h
      · exact ⟨le_rfl, by simp, hv⟩
      · have := ih h
        exact ⟨by omega, by omega, this.2.2⟩

theorem Memory.wf_ofBytesFrom (k : Nat) (bytes : List Byte) : (Memory.ofBytesFrom k bytes).wf := by
  induction bytes generalizing k with
  | nil => exact Memory.wf_nil
  | cons v vs ih =>
    simp only [Memory.ofBytesFrom]
    split
    · exact ih _
    · rename_i hv
      refine Memory.wf_cons.mpr ⟨fun c hc => ?_, hv, ih _⟩
      have := (Memory.mem_ofBytesFrom hc).1
      omega

theorem Memory.read_ofBytesFrom (k : Nat) (bytes : List Byte) (i : Nat) :
    (Memory.ofBytesFrom k bytes).read i = if k ≤ i then bytes.getD (i - k) 0 else 0 := by
  induction bytes generalizing k with
  | nil => simp [Memory.ofBytesFrom]
  | cons v vs ih =>
    have hrest : (Memory.ofBytesFrom (k + 1) vs).read i = if k + 1 ≤ i then vs.getD (i - (k + 1)) 0 else 0 := ih _
    simp only [Memory.ofBytesFrom]
    rcases lt_trichotomy i k with hi | rfl | hi
    · rw [if_neg (show ¬ k ≤ i by omega)]
      split
      · rw [hrest, if_neg (show ¬ k + 1 ≤ i by omega)]
      · rw [Memory.read_cons_below hi]
    · rw [if_pos (le_refl i)]
      split
      · rename_i hv
        rw [hrest, if_neg (show ¬ i + 1 ≤ i by omega)]
        simp [hv]
      · rw [Memory.read_cons_same]
        simp
    · have hsub : i - k = (i - (k + 1)) + 1 := by omega
      rw [if_pos (show k ≤ i by omega), hsub, List.getD_cons_succ]
      split
      · rw [hrest, if_pos (show k + 1 ≤ i by omega)]
      · rw [Memory.read_cons_above hi, hrest, if_pos (show k + 1 ≤ i by omega)]

@[simp] theorem Memory.read_ofBytes (bytes : List Byte) (i : Nat) : (Memory.ofBytes bytes).read i = bytes.getD i 0 := by
  simp [Memory.ofBytes, Memory.read_ofBytesFrom]

theorem Memory.fits_ofBytes {bytes : List Byte} {n : Nat} (h : bytes.length ≤ n) : (Memory.ofBytes bytes).fits n := by
  refine ⟨Memory.wf_ofBytesFrom _ _, fun c hc => ?_⟩
  have := (Memory.mem_ofBytesFrom hc).2.1
  omega

theorem Memory.read_ofFn (n : Nat) (f : Nat → Byte) (i : Nat) :
    (Memory.ofFn n f).read i = if i < n then f i else 0 := by
  rw [Memory.ofFn, Memory.read_ofBytes, List.getD_eq_getElem?_getD]
  by_cases h : i < n <;> simp [h]

theorem Memory.fits_ofFn (n : Nat) (f : Nat → Byte) : (Memory.ofFn n f).fits n :=
  Memory.fits_ofBytes (by simp)

/-! A LOAD into a region -/

theorem Memory.wf_append {m m' : Memory} (h : m.wf) (h' : m'.wf) (hlt : ∀ c ∈ m, ∀ d ∈ m', c.1 < d.1) :
    Memory.wf (m ++ m') := by
  simp only [Memory.wf, List.map_append, List.pairwise_append, List.mem_map, List.mem_append]
  refine ⟨⟨h.1, h'.1, ?_⟩, ?_⟩
  · rintro _ ⟨c, hc, rfl⟩ _ ⟨d, hd, rfl⟩
    exact hlt c hc d hd
  · rintro c (hc | hc)
    · exact h.2 c hc
    · exact h'.2 c hc

theorem Memory.wf_filter {m : Memory} (h : m.wf) (p : Host.Cell → Bool) : Memory.wf (m.filter p) :=
  ⟨h.1.sublist (List.filter_sublist.map _), fun c hc => h.2 c (List.mem_of_mem_filter hc)⟩

theorem Memory.wf_load {m : Memory} (h : m.wf) (data : List Byte) : (m.load data).wf := by
  refine Memory.wf_append (Memory.wf_ofBytesFrom _ _) (Memory.wf_filter h _) fun c hc d hd => ?_
  have h1 := (Memory.mem_ofBytesFrom hc).2.1
  have h2 := (List.mem_filter.mp hd).2
  simp only [decide_eq_true_eq] at h2
  omega

theorem Memory.fits_load {n : Nat} {m : Memory} (h : m.fits n) {data : List Byte} (hd : data.length ≤ n) :
    (m.load data).fits n := by
  refine ⟨Memory.wf_load h.1 data, fun c hc => ?_⟩
  rcases List.mem_append.mp hc with hc | hc
  · have := (Memory.mem_ofBytesFrom hc).2.1
    omega
  · exact h.2 c (List.mem_of_mem_filter hc)

theorem Memory.read_append {m m' : Memory} {n : Nat} (h : ∀ c ∈ m, c.1 < n) (h' : ∀ c ∈ m', n ≤ c.1) (i : Nat) :
    Memory.read (m ++ m') i = if i < n then m.read i else Memory.read m' i := by
  induction m with
  | nil =>
    split
    · rename_i hi
      exact Memory.read_below fun c hc => lt_of_lt_of_le hi (h' c hc)
    · rfl
  | cons c m ih =>
    obtain ⟨k, v⟩ := c
    have hk : k < n := h (k, v) (List.mem_cons_self ..)
    have ih := ih fun c hc => h c (List.mem_cons_of_mem _ hc)
    rw [List.cons_append]
    simp only [Memory.read, ih]
    split
    · rw [if_pos (by omega)]
    · split
      · rw [if_pos (by omega)]
      · rfl

theorem Memory.read_filter {m : Memory} (h : m.wf) (n i : Nat) (hi : n ≤ i) :
    Memory.read (m.filter fun c => n ≤ c.1) i = m.read i := by
  induction m with
  | nil => rfl
  | cons c m ih =>
    obtain ⟨k, v⟩ := c
    obtain ⟨hk, hv, hm⟩ := Memory.wf_cons.mp h
    rw [List.filter_cons]
    split
    · simp only [Memory.read, ih hm]
    · rename_i hn
      simp only [decide_eq_true_eq] at hn
      rw [ih hm, Memory.read_cons_above (by omega)]

/-- A LOAD writes the data from index 0 on and leaves the bytes above. -/
theorem Memory.read_load {m : Memory} (h : m.wf) (data : List Byte) (i : Nat) :
    (m.load data).read i = if i < data.length then data.getD i 0 else m.read i := by
  rw [Memory.load, Memory.read_append (n := data.length)]
  · split
    · rw [Memory.read_ofBytes]
    · rw [Memory.read_filter h _ _ (by omega)]
  · intro c hc
    have := (Memory.mem_ofBytesFrom hc).2.1
    omega
  · intro c hc
    simpa using (List.mem_filter.mp hc).2

end Sys2Proof.Machine
end

