-- ==== Sys2Proof/Laws/State.lean ====
section
/-! SUPPORT. One lemma per field of State per named update, so that no proof unfolds a record update. -/

namespace Sys2Proof.Machine

variable (s : State)

/-! `finish` -/

@[simp] theorem State.finish_cfg (v : Word) : (s.finish v).cfg = s.cfg := rfl
@[simp] theorem State.finish_status (v : Word) : (s.finish v).status = Status.ok.code := rfl
@[simp] theorem State.finish_result (v : Word) : (s.finish v).result = v := rfl
@[simp] theorem State.finish_dest (v : Word) : (s.finish v).dest = s.dest := rfl
@[simp] theorem State.finish_maskEn (v : Word) : (s.finish v).maskEn = s.maskEn := rfl
@[simp] theorem State.finish_slots (v : Word) : (s.finish v).slots = s.slots := rfl
@[simp] theorem State.finish_arena (v : Word) : (s.finish v).arena = s.arena := rfl
@[simp] theorem State.finish_static (v : Word) : (s.finish v).static = s.static := rfl
@[simp] theorem State.finish_mask (v : Word) : (s.finish v).mask = s.mask := rfl
@[simp] theorem State.finish_dyn (v : Word) : (s.finish v).dyn = s.dyn := rfl
@[simp] theorem State.finish_disp (v : Word) : (s.finish v).disp = s.disp := rfl
@[simp] theorem State.finish_lcd (v : Word) : (s.finish v).lcd = s.lcd := rfl
@[simp] theorem State.finish_busy (v : Word) : (s.finish v).busy = s.busy := rfl
@[simp] theorem State.finish_inputs (v : Word) : (s.finish v).inputs = s.inputs := rfl
@[simp] theorem State.finish_port (v : Word) : (s.finish v).port = s.port := rfl

/-! `raise` -/

@[simp] theorem State.raise_cfg (c : Status) : (s.raise c).cfg = s.cfg := rfl
@[simp] theorem State.raise_status (c : Status) : (s.raise c).status = c.code := rfl
@[simp] theorem State.raise_result (c : Status) : (s.raise c).result = 0 := rfl
@[simp] theorem State.raise_dest (c : Status) : (s.raise c).dest = s.dest := rfl
@[simp] theorem State.raise_maskEn (c : Status) : (s.raise c).maskEn = s.maskEn := rfl
@[simp] theorem State.raise_slots (c : Status) : (s.raise c).slots = s.slots := rfl
@[simp] theorem State.raise_arena (c : Status) : (s.raise c).arena = s.arena := rfl
@[simp] theorem State.raise_static (c : Status) : (s.raise c).static = s.static := rfl
@[simp] theorem State.raise_mask (c : Status) : (s.raise c).mask = s.mask := rfl
@[simp] theorem State.raise_dyn (c : Status) : (s.raise c).dyn = s.dyn := rfl
@[simp] theorem State.raise_disp (c : Status) : (s.raise c).disp = s.disp := rfl
@[simp] theorem State.raise_lcd (c : Status) : (s.raise c).lcd = s.lcd := rfl
@[simp] theorem State.raise_busy (c : Status) : (s.raise c).busy = s.busy := rfl
@[simp] theorem State.raise_inputs (c : Status) : (s.raise c).inputs = s.inputs := rfl
@[simp] theorem State.raise_port (c : Status) : (s.raise c).port = s.port := rfl

/-! `setDest` -/

@[simp] theorem State.setDest_cfg (sel : Byte) : (s.setDest sel).cfg = s.cfg := rfl
@[simp] theorem State.setDest_status (sel : Byte) : (s.setDest sel).status = s.status := rfl
@[simp] theorem State.setDest_result (sel : Byte) : (s.setDest sel).result = s.result := rfl
@[simp] theorem State.setDest_dest (sel : Byte) : (s.setDest sel).dest = sel := rfl
@[simp] theorem State.setDest_maskEn (sel : Byte) : (s.setDest sel).maskEn = s.maskEn := rfl
@[simp] theorem State.setDest_slots (sel : Byte) : (s.setDest sel).slots = s.slots := rfl
@[simp] theorem State.setDest_arena (sel : Byte) : (s.setDest sel).arena = s.arena := rfl
@[simp] theorem State.setDest_static (sel : Byte) : (s.setDest sel).static = s.static := rfl
@[simp] theorem State.setDest_mask (sel : Byte) : (s.setDest sel).mask = s.mask := rfl
@[simp] theorem State.setDest_dyn (sel : Byte) : (s.setDest sel).dyn = s.dyn := rfl
@[simp] theorem State.setDest_disp (sel : Byte) : (s.setDest sel).disp = s.disp := rfl
@[simp] theorem State.setDest_lcd (sel : Byte) : (s.setDest sel).lcd = s.lcd := rfl
@[simp] theorem State.setDest_busy (sel : Byte) : (s.setDest sel).busy = s.busy := rfl
@[simp] theorem State.setDest_inputs (sel : Byte) : (s.setDest sel).inputs = s.inputs := rfl
@[simp] theorem State.setDest_port (sel : Byte) : (s.setDest sel).port = s.port := rfl

/-! `setMaskEn` -/

@[simp] theorem State.setMaskEn_cfg (b : BitVec 1) : (s.setMaskEn b).cfg = s.cfg := rfl
@[simp] theorem State.setMaskEn_status (b : BitVec 1) : (s.setMaskEn b).status = s.status := rfl
@[simp] theorem State.setMaskEn_result (b : BitVec 1) : (s.setMaskEn b).result = s.result := rfl
@[simp] theorem State.setMaskEn_dest (b : BitVec 1) : (s.setMaskEn b).dest = s.dest := rfl
@[simp] theorem State.setMaskEn_maskEn (b : BitVec 1) : (s.setMaskEn b).maskEn = b := rfl
@[simp] theorem State.setMaskEn_slots (b : BitVec 1) : (s.setMaskEn b).slots = s.slots := rfl
@[simp] theorem State.setMaskEn_arena (b : BitVec 1) : (s.setMaskEn b).arena = s.arena := rfl
@[simp] theorem State.setMaskEn_static (b : BitVec 1) : (s.setMaskEn b).static = s.static := rfl
@[simp] theorem State.setMaskEn_mask (b : BitVec 1) : (s.setMaskEn b).mask = s.mask := rfl
@[simp] theorem State.setMaskEn_dyn (b : BitVec 1) : (s.setMaskEn b).dyn = s.dyn := rfl
@[simp] theorem State.setMaskEn_disp (b : BitVec 1) : (s.setMaskEn b).disp = s.disp := rfl
@[simp] theorem State.setMaskEn_lcd (b : BitVec 1) : (s.setMaskEn b).lcd = s.lcd := rfl
@[simp] theorem State.setMaskEn_busy (b : BitVec 1) : (s.setMaskEn b).busy = s.busy := rfl
@[simp] theorem State.setMaskEn_inputs (b : BitVec 1) : (s.setMaskEn b).inputs = s.inputs := rfl
@[simp] theorem State.setMaskEn_port (b : BitVec 1) : (s.setMaskEn b).port = s.port := rfl

/-! `setSlot` -/

@[simp] theorem State.setSlot_cfg (i : Nat) (e : Descriptor) : (s.setSlot i e).cfg = s.cfg := rfl
@[simp] theorem State.setSlot_status (i : Nat) (e : Descriptor) : (s.setSlot i e).status = s.status := rfl
@[simp] theorem State.setSlot_result (i : Nat) (e : Descriptor) : (s.setSlot i e).result = s.result := rfl
@[simp] theorem State.setSlot_dest (i : Nat) (e : Descriptor) : (s.setSlot i e).dest = s.dest := rfl
@[simp] theorem State.setSlot_maskEn (i : Nat) (e : Descriptor) : (s.setSlot i e).maskEn = s.maskEn := rfl
@[simp] theorem State.setSlot_slots (i : Nat) (e : Descriptor) : (s.setSlot i e).slots = s.slots.set i e := rfl
@[simp] theorem State.setSlot_arena (i : Nat) (e : Descriptor) : (s.setSlot i e).arena = s.arena := rfl
@[simp] theorem State.setSlot_static (i : Nat) (e : Descriptor) : (s.setSlot i e).static = s.static := rfl
@[simp] theorem State.setSlot_mask (i : Nat) (e : Descriptor) : (s.setSlot i e).mask = s.mask := rfl
@[simp] theorem State.setSlot_dyn (i : Nat) (e : Descriptor) : (s.setSlot i e).dyn = s.dyn := rfl
@[simp] theorem State.setSlot_disp (i : Nat) (e : Descriptor) : (s.setSlot i e).disp = s.disp := rfl
@[simp] theorem State.setSlot_lcd (i : Nat) (e : Descriptor) : (s.setSlot i e).lcd = s.lcd := rfl
@[simp] theorem State.setSlot_busy (i : Nat) (e : Descriptor) : (s.setSlot i e).busy = s.busy := rfl
@[simp] theorem State.setSlot_inputs (i : Nat) (e : Descriptor) : (s.setSlot i e).inputs = s.inputs := rfl
@[simp] theorem State.setSlot_port (i : Nat) (e : Descriptor) : (s.setSlot i e).port = s.port := rfl

/-! `setSlots` -/

@[simp] theorem State.setSlots_cfg (es : List Descriptor) : (s.setSlots es).cfg = s.cfg := rfl
@[simp] theorem State.setSlots_status (es : List Descriptor) : (s.setSlots es).status = s.status := rfl
@[simp] theorem State.setSlots_result (es : List Descriptor) : (s.setSlots es).result = s.result := rfl
@[simp] theorem State.setSlots_dest (es : List Descriptor) : (s.setSlots es).dest = s.dest := rfl
@[simp] theorem State.setSlots_maskEn (es : List Descriptor) : (s.setSlots es).maskEn = s.maskEn := rfl
@[simp] theorem State.setSlots_slots (es : List Descriptor) : (s.setSlots es).slots = es := rfl
@[simp] theorem State.setSlots_arena (es : List Descriptor) : (s.setSlots es).arena = s.arena := rfl
@[simp] theorem State.setSlots_static (es : List Descriptor) : (s.setSlots es).static = s.static := rfl
@[simp] theorem State.setSlots_mask (es : List Descriptor) : (s.setSlots es).mask = s.mask := rfl
@[simp] theorem State.setSlots_dyn (es : List Descriptor) : (s.setSlots es).dyn = s.dyn := rfl
@[simp] theorem State.setSlots_disp (es : List Descriptor) : (s.setSlots es).disp = s.disp := rfl
@[simp] theorem State.setSlots_lcd (es : List Descriptor) : (s.setSlots es).lcd = s.lcd := rfl
@[simp] theorem State.setSlots_busy (es : List Descriptor) : (s.setSlots es).busy = s.busy := rfl
@[simp] theorem State.setSlots_inputs (es : List Descriptor) : (s.setSlots es).inputs = s.inputs := rfl
@[simp] theorem State.setSlots_port (es : List Descriptor) : (s.setSlots es).port = s.port := rfl

/-! `setBusy` -/

@[simp] theorem State.setBusy_cfg (b : Nat) (v : Bool) : (s.setBusy b v).cfg = s.cfg := rfl
@[simp] theorem State.setBusy_status (b : Nat) (v : Bool) : (s.setBusy b v).status = s.status := rfl
@[simp] theorem State.setBusy_result (b : Nat) (v : Bool) : (s.setBusy b v).result = s.result := rfl
@[simp] theorem State.setBusy_dest (b : Nat) (v : Bool) : (s.setBusy b v).dest = s.dest := rfl
@[simp] theorem State.setBusy_maskEn (b : Nat) (v : Bool) : (s.setBusy b v).maskEn = s.maskEn := rfl
@[simp] theorem State.setBusy_slots (b : Nat) (v : Bool) : (s.setBusy b v).slots = s.slots := rfl
@[simp] theorem State.setBusy_arena (b : Nat) (v : Bool) : (s.setBusy b v).arena = s.arena := rfl
@[simp] theorem State.setBusy_static (b : Nat) (v : Bool) : (s.setBusy b v).static = s.static := rfl
@[simp] theorem State.setBusy_mask (b : Nat) (v : Bool) : (s.setBusy b v).mask = s.mask := rfl
@[simp] theorem State.setBusy_dyn (b : Nat) (v : Bool) : (s.setBusy b v).dyn = s.dyn := rfl
@[simp] theorem State.setBusy_disp (b : Nat) (v : Bool) : (s.setBusy b v).disp = s.disp := rfl
@[simp] theorem State.setBusy_lcd (b : Nat) (v : Bool) : (s.setBusy b v).lcd = s.lcd := rfl
@[simp] theorem State.setBusy_busy (b : Nat) (v : Bool) : (s.setBusy b v).busy = s.busy.set b v := rfl
@[simp] theorem State.setBusy_inputs (b : Nat) (v : Bool) : (s.setBusy b v).inputs = s.inputs := rfl
@[simp] theorem State.setBusy_port (b : Nat) (v : Bool) : (s.setBusy b v).port = s.port := rfl

/-! `setInputs` -/

@[simp] theorem State.setInputs_cfg (es : List Event) : (s.setInputs es).cfg = s.cfg := rfl
@[simp] theorem State.setInputs_status (es : List Event) : (s.setInputs es).status = s.status := rfl
@[simp] theorem State.setInputs_result (es : List Event) : (s.setInputs es).result = s.result := rfl
@[simp] theorem State.setInputs_dest (es : List Event) : (s.setInputs es).dest = s.dest := rfl
@[simp] theorem State.setInputs_maskEn (es : List Event) : (s.setInputs es).maskEn = s.maskEn := rfl
@[simp] theorem State.setInputs_slots (es : List Event) : (s.setInputs es).slots = s.slots := rfl
@[simp] theorem State.setInputs_arena (es : List Event) : (s.setInputs es).arena = s.arena := rfl
@[simp] theorem State.setInputs_static (es : List Event) : (s.setInputs es).static = s.static := rfl
@[simp] theorem State.setInputs_mask (es : List Event) : (s.setInputs es).mask = s.mask := rfl
@[simp] theorem State.setInputs_dyn (es : List Event) : (s.setInputs es).dyn = s.dyn := rfl
@[simp] theorem State.setInputs_disp (es : List Event) : (s.setInputs es).disp = s.disp := rfl
@[simp] theorem State.setInputs_lcd (es : List Event) : (s.setInputs es).lcd = s.lcd := rfl
@[simp] theorem State.setInputs_busy (es : List Event) : (s.setInputs es).busy = s.busy := rfl
@[simp] theorem State.setInputs_inputs (es : List Event) : (s.setInputs es).inputs = es := rfl
@[simp] theorem State.setInputs_port (es : List Event) : (s.setInputs es).port = s.port := rfl

/-! `setPort` -/

@[simp] theorem State.setPort_cfg (v : Byte) : (s.setPort v).cfg = s.cfg := rfl
@[simp] theorem State.setPort_status (v : Byte) : (s.setPort v).status = s.status := rfl
@[simp] theorem State.setPort_result (v : Byte) : (s.setPort v).result = s.result := rfl
@[simp] theorem State.setPort_dest (v : Byte) : (s.setPort v).dest = s.dest := rfl
@[simp] theorem State.setPort_maskEn (v : Byte) : (s.setPort v).maskEn = s.maskEn := rfl
@[simp] theorem State.setPort_slots (v : Byte) : (s.setPort v).slots = s.slots := rfl
@[simp] theorem State.setPort_arena (v : Byte) : (s.setPort v).arena = s.arena := rfl
@[simp] theorem State.setPort_static (v : Byte) : (s.setPort v).static = s.static := rfl
@[simp] theorem State.setPort_mask (v : Byte) : (s.setPort v).mask = s.mask := rfl
@[simp] theorem State.setPort_dyn (v : Byte) : (s.setPort v).dyn = s.dyn := rfl
@[simp] theorem State.setPort_disp (v : Byte) : (s.setPort v).disp = s.disp := rfl
@[simp] theorem State.setPort_lcd (v : Byte) : (s.setPort v).lcd = s.lcd := rfl
@[simp] theorem State.setPort_busy (v : Byte) : (s.setPort v).busy = s.busy := rfl
@[simp] theorem State.setPort_inputs (v : Byte) : (s.setPort v).inputs = s.inputs := rfl
@[simp] theorem State.setPort_port (v : Byte) : (s.setPort v).port = some v := rfl

/-! `setDyn` -/

@[simp] theorem State.setDyn_cfg (d : Sided Memory) : (s.setDyn d).cfg = s.cfg := rfl
@[simp] theorem State.setDyn_status (d : Sided Memory) : (s.setDyn d).status = s.status := rfl
@[simp] theorem State.setDyn_result (d : Sided Memory) : (s.setDyn d).result = s.result := rfl
@[simp] theorem State.setDyn_dest (d : Sided Memory) : (s.setDyn d).dest = s.dest := rfl
@[simp] theorem State.setDyn_maskEn (d : Sided Memory) : (s.setDyn d).maskEn = s.maskEn := rfl
@[simp] theorem State.setDyn_slots (d : Sided Memory) : (s.setDyn d).slots = s.slots := rfl
@[simp] theorem State.setDyn_arena (d : Sided Memory) : (s.setDyn d).arena = s.arena := rfl
@[simp] theorem State.setDyn_static (d : Sided Memory) : (s.setDyn d).static = s.static := rfl
@[simp] theorem State.setDyn_mask (d : Sided Memory) : (s.setDyn d).mask = s.mask := rfl
@[simp] theorem State.setDyn_dyn (d : Sided Memory) : (s.setDyn d).dyn = d := rfl
@[simp] theorem State.setDyn_disp (d : Sided Memory) : (s.setDyn d).disp = s.disp := rfl
@[simp] theorem State.setDyn_lcd (d : Sided Memory) : (s.setDyn d).lcd = s.lcd := rfl
@[simp] theorem State.setDyn_busy (d : Sided Memory) : (s.setDyn d).busy = s.busy := rfl
@[simp] theorem State.setDyn_inputs (d : Sided Memory) : (s.setDyn d).inputs = s.inputs := rfl
@[simp] theorem State.setDyn_port (d : Sided Memory) : (s.setDyn d).port = s.port := rfl

/-! `zeroDyn` -/

@[simp] theorem State.zeroDyn_cfg : s.zeroDyn.cfg = s.cfg := rfl
@[simp] theorem State.zeroDyn_status : s.zeroDyn.status = s.status := rfl
@[simp] theorem State.zeroDyn_result : s.zeroDyn.result = s.result := rfl
@[simp] theorem State.zeroDyn_dest : s.zeroDyn.dest = s.dest := rfl
@[simp] theorem State.zeroDyn_maskEn : s.zeroDyn.maskEn = s.maskEn := rfl
@[simp] theorem State.zeroDyn_slots : s.zeroDyn.slots = s.slots := rfl
@[simp] theorem State.zeroDyn_arena : s.zeroDyn.arena = s.arena := rfl
@[simp] theorem State.zeroDyn_static : s.zeroDyn.static = s.static := rfl
@[simp] theorem State.zeroDyn_mask : s.zeroDyn.mask = s.mask := rfl
@[simp] theorem State.zeroDyn_dyn : s.zeroDyn.dyn = ⟨[], []⟩ := rfl
@[simp] theorem State.zeroDyn_disp : s.zeroDyn.disp = s.disp := rfl
@[simp] theorem State.zeroDyn_lcd : s.zeroDyn.lcd = s.lcd := rfl
@[simp] theorem State.zeroDyn_busy : s.zeroDyn.busy = s.busy := rfl
@[simp] theorem State.zeroDyn_inputs : s.zeroDyn.inputs = s.inputs := rfl
@[simp] theorem State.zeroDyn_port : s.zeroDyn.port = s.port := rfl

/-! `setRegion`: it writes no register, no slot and no input -/

@[simp] theorem State.setRegion_cfg (r : Region) (m : Memory) : (s.setRegion r m).cfg = s.cfg := by
  cases r <;> rfl
@[simp] theorem State.setRegion_status (r : Region) (m : Memory) : (s.setRegion r m).status = s.status := by
  cases r <;> rfl
@[simp] theorem State.setRegion_result (r : Region) (m : Memory) : (s.setRegion r m).result = s.result := by
  cases r <;> rfl
@[simp] theorem State.setRegion_dest (r : Region) (m : Memory) : (s.setRegion r m).dest = s.dest := by
  cases r <;> rfl
@[simp] theorem State.setRegion_maskEn (r : Region) (m : Memory) : (s.setRegion r m).maskEn = s.maskEn := by
  cases r <;> rfl
@[simp] theorem State.setRegion_slots (r : Region) (m : Memory) : (s.setRegion r m).slots = s.slots := by
  cases r <;> rfl
@[simp] theorem State.setRegion_busy (r : Region) (m : Memory) : (s.setRegion r m).busy = s.busy := by
  cases r <;> rfl
@[simp] theorem State.setRegion_inputs (r : Region) (m : Memory) : (s.setRegion r m).inputs = s.inputs := by
  cases r <;> rfl
@[simp] theorem State.setRegion_port (r : Region) (m : Memory) : (s.setRegion r m).port = s.port := by
  cases r <;> rfl

/-! `resetWith` -/

@[simp] theorem State.resetWith_cfg (c : Config) (es : List Event) : (State.resetWith c es).cfg = c := rfl
@[simp] theorem State.resetWith_status (c : Config) (es : List Event) : (State.resetWith c es).status = 0 := rfl
@[simp] theorem State.resetWith_result (c : Config) (es : List Event) : (State.resetWith c es).result = 0 := rfl
@[simp] theorem State.resetWith_dest (c : Config) (es : List Event) : (State.resetWith c es).dest = 0xFF := rfl
@[simp] theorem State.resetWith_maskEn (c : Config) (es : List Event) : (State.resetWith c es).maskEn = 0 := rfl
@[simp] theorem State.resetWith_slots (c : Config) (es : List Event) : (State.resetWith c es).slots = List.replicate c.maxSb Descriptor.free := rfl
@[simp] theorem State.resetWith_arena (c : Config) (es : List Event) : (State.resetWith c es).arena = List.replicate c.maxSb [] := rfl
@[simp] theorem State.resetWith_static (c : Config) (es : List Event) : (State.resetWith c es).static = ⟨[], []⟩ := rfl
@[simp] theorem State.resetWith_mask (c : Config) (es : List Event) : (State.resetWith c es).mask = ⟨[], []⟩ := rfl
@[simp] theorem State.resetWith_dyn (c : Config) (es : List Event) : (State.resetWith c es).dyn = ⟨[], []⟩ := rfl
@[simp] theorem State.resetWith_disp (c : Config) (es : List Event) : (State.resetWith c es).disp = ⟨[], []⟩ := rfl
@[simp] theorem State.resetWith_lcd (c : Config) (es : List Event) : (State.resetWith c es).lcd = List.replicate c.numBuses [] := rfl
@[simp] theorem State.resetWith_busy (c : Config) (es : List Event) : (State.resetWith c es).busy = List.replicate c.numBuses false := rfl
@[simp] theorem State.resetWith_inputs (c : Config) (es : List Event) : (State.resetWith c es).inputs = es := rfl
@[simp] theorem State.resetWith_port (c : Config) (es : List Event) : (State.resetWith c es).port = none := rfl

/-! Sides, regions and slots -/

@[simp] theorem Sided.get_set_same {α : Type} (p : Sided α) (d : Side) (v : α) : (p.set d v).get d = v := by
  cases d <;> rfl

theorem Sided.get_set {α : Type} (p : Sided α) (d d' : Side) (v : α) :
    (p.set d v).get d' = if d' = d then v else p.get d' := by
  cases d <;> cases d' <;> rfl

theorem Sided.ext_get {α : Type} {p q : Sided α} (h : ∀ d, p.get d = q.get d) : p = q := by
  obtain ⟨a, b⟩ := p
  obtain ⟨a', b'⟩ := q
  have ha : a = a' := h .a
  have hb : b = b' := h .b
  rw [ha, hb]

/-- Whether the region has a place in the state: a layer always, an arena or LCD buffer when the list is that long. -/
def State.hasRegion (s : State) : Region → Prop
  | .arena i => i < s.arena.length
  | .lcd b => b < s.lcd.length
  | _ => True

theorem State.region_setRegion_same {r : Region} (m : Memory) (h : s.hasRegion r) : (s.setRegion r m).region r = m := by
  cases r <;> simp_all [State.hasRegion, State.region, State.setRegion, List.getD_eq_getElem?_getD]

theorem State.region_setRegion_other {r r' : Region} (m : Memory) (h : r' ≠ r) :
    (s.setRegion r m).region r' = s.region r' := by
  cases r <;> cases r' <;>
    simp_all [State.region, State.setRegion, Sided.get_set, List.getD_eq_getElem?_getD, eq_comm]

@[simp] theorem State.finish_region (v : Word) (r : Region) : (s.finish v).region r = s.region r := by
  cases r <;> rfl
@[simp] theorem State.raise_region (c : Status) (r : Region) : (s.raise c).region r = s.region r := by
  cases r <;> rfl
@[simp] theorem State.setDest_region (sel : Byte) (r : Region) : (s.setDest sel).region r = s.region r := by
  cases r <;> rfl
@[simp] theorem State.setMaskEn_region (b : BitVec 1) (r : Region) : (s.setMaskEn b).region r = s.region r := by
  cases r <;> rfl
@[simp] theorem State.setSlot_region (i : Nat) (e : Descriptor) (r : Region) : (s.setSlot i e).region r = s.region r := by
  cases r <;> rfl
@[simp] theorem State.setSlots_region (es : List Descriptor) (r : Region) : (s.setSlots es).region r = s.region r := by
  cases r <;> rfl
@[simp] theorem State.setBusy_region (b : Nat) (v : Bool) (r : Region) : (s.setBusy b v).region r = s.region r := by
  cases r <;> rfl
@[simp] theorem State.setInputs_region (es : List Event) (r : Region) : (s.setInputs es).region r = s.region r := by
  cases r <;> rfl
@[simp] theorem State.setPort_region (v : Byte) (r : Region) : (s.setPort v).region r = s.region r := by
  cases r <;> rfl

theorem State.setDyn_region_other (d : Sided Memory) {r : Region} (h : ∀ side, r ≠ .dyn side) :
    (s.setDyn d).region r = s.region r := by
  cases r <;> first | rfl | exact absurd rfl (h _)

@[simp] theorem State.setDyn_region_dyn (d : Sided Memory) (side : Side) :
    (s.setDyn d).region (.dyn side) = d.get side := rfl

@[simp] theorem State.zeroDyn_region_dyn (side : Side) : s.zeroDyn.region (.dyn side) = [] := by
  cases side <;> rfl

theorem State.zeroDyn_region_other {r : Region} (h : ∀ side, r ≠ .dyn side) : s.zeroDyn.region r = s.region r :=
  s.setDyn_region_other _ h

@[simp] theorem State.setRegion_slot (r : Region) (m : Memory) (i : Nat) : (s.setRegion r m).slot i = s.slot i := by
  cases r <;> rfl

@[simp] theorem State.finish_slot (v : Word) (j : Nat) : (s.finish v).slot j = s.slot j := rfl
@[simp] theorem State.raise_slot (c : Status) (j : Nat) : (s.raise c).slot j = s.slot j := rfl
@[simp] theorem State.setDest_slot (sel : Byte) (j : Nat) : (s.setDest sel).slot j = s.slot j := rfl
@[simp] theorem State.setMaskEn_slot (b : BitVec 1) (j : Nat) : (s.setMaskEn b).slot j = s.slot j := rfl
@[simp] theorem State.setBusy_slot (b : Nat) (v : Bool) (j : Nat) : (s.setBusy b v).slot j = s.slot j := rfl
@[simp] theorem State.setInputs_slot (es : List Event) (j : Nat) : (s.setInputs es).slot j = s.slot j := rfl
@[simp] theorem State.setPort_slot (v : Byte) (j : Nat) : (s.setPort v).slot j = s.slot j := rfl
@[simp] theorem State.setDyn_slot (d : Sided Memory) (j : Nat) : (s.setDyn d).slot j = s.slot j := rfl
@[simp] theorem State.zeroDyn_slot (j : Nat) : s.zeroDyn.slot j = s.slot j := rfl

theorem State.slot_setSlot_same {i : Nat} (e : Descriptor) (h : i < s.slots.length) : (s.setSlot i e).slot i = e := by
  simp [State.slot, State.setSlot, List.getD_eq_getElem?_getD, h]

theorem State.slot_setSlot_other {i j : Nat} (e : Descriptor) (h : j ≠ i) : (s.setSlot i e).slot j = s.slot j := by
  simp [State.slot, State.setSlot, List.getD_eq_getElem?_getD, h.symm]

theorem State.slot_mem {i : Nat} (h : i < s.slots.length) : s.slot i ∈ s.slots := by
  simp [State.slot, List.getD_eq_getElem?_getD, h]

theorem State.slot_beyond {i : Nat} (h : s.slots.length ≤ i) : s.slot i = Descriptor.free := by
  simp [State.slot, List.getD_eq_getElem?_getD, h]

end Sys2Proof.Machine
end

