-- ==== Sys2Proof/Laws/Convert.lean ====
section
/-! SUPPORT. The layout of a converted frame: its length, and which byte stands where (41_converter R54, R55). -/

namespace Sys2Proof.Machine

/-! Concatenations of blocks of one length -/

theorem length_flatMap_range {α : Type} {n len : Nat} {f : Nat → List α} (hlen : ∀ i < n, (f i).length = len) :
    ((List.range n).flatMap f).length = n * len := by
  induction n with
  | zero => simp
  | succ n ih =>
    rw [List.range_succ, List.flatMap_append, List.length_append, ih fun i hi => hlen i (by omega)]
    simp [hlen n (by omega), Nat.add_mul]

theorem getD_flatMap_range {α : Type} {n len : Nat} {f : Nat → List α} (hlen : ∀ i < n, (f i).length = len) {i j : Nat}
    (hi : i < n) (hj : j < len) (d : α) : ((List.range n).flatMap f).getD (i * len + j) d = (f i).getD j d := by
  induction n with
  | zero => omega
  | succ n ih =>
    have hpre := length_flatMap_range (f := f) (fun i (hi : i < n) => hlen i (by omega))
    rw [List.range_succ, List.flatMap_append]
    by_cases hin : i = n
    · subst hin
      rw [List.getD_append_right _ _ _ _ (by omega), hpre]
      simp
    · have hlt : i < n := by omega
      have hle : (i + 1) * len ≤ n * len := Nat.mul_le_mul_right _ hlt
      rw [Nat.add_mul, Nat.one_mul] at hle
      rw [List.getD_append _ _ _ _ (by omega)]
      exact ih (fun i hi => hlen i (by omega)) hlt

/-! The frame -/

@[simp] theorem columnGroup_length (v : Nat → Byte) (ctrl : Byte) (g : Nat) : (columnGroup v ctrl g).length = 6 := rfl

theorem halfPanelBytes_length (c : Config) (src : Memory) (base : Nat) (ram : Byte) (k : Backplane) (h : Nat) :
    (halfPanelBytes c src base ram k h).length = 120 :=
  length_flatMap_range fun _ _ => columnGroup_length ..

theorem sliceOf_length (c : Config) (src : Memory) (base : Nat) (ram : Byte) (k : Backplane) :
    (sliceOf c src base ram k).length = c.sliceBytes := by
  have := length_flatMap_range (n := c.halfPanels) (f := halfPanelBytes c src base ram k)
    (fun h _ => halfPanelBytes_length c src base ram k h)
  rw [sliceOf, this]
  unfold Config.sliceBytes
  omega

/-- The frame is L bytes long for every content (41_converter R55). -/
theorem lcdFrame_length (c : Config) (src : Memory) (base : Nat) (ram : Byte) :
    (lcdFrame c src base ram).length = c.frameBytes := by
  simp only [lcdFrame, backplaneOrder, List.flatMap_cons, List.flatMap_nil, List.length_append, sliceOf_length,
    List.length_nil]
  unfold Config.frameBytes
  omega

theorem lcdFrame_slice (c : Config) (src : Memory) (base : Nat) (ram : Byte) {s j : Nat} (hs : s < 4)
    (hj : j < c.sliceBytes) :
    (lcdFrame c src base ram).getD (s * c.sliceBytes + j) 0 = (sliceOf c src base ram (backplaneAt s)).getD j 0 := by
  have hl := sliceOf_length c src base ram
  simp only [lcdFrame, backplaneOrder, List.flatMap_cons, List.flatMap_nil, List.append_nil]
  obtain rfl | rfl | rfl | rfl : s = 0 ∨ s = 1 ∨ s = 2 ∨ s = 3 := by omega
  · rw [List.getD_append _ _ _ _ (by rw [hl]; omega)]
    simp [backplaneAt, backplaneOrder]
  · rw [List.getD_append_right _ _ _ _ (by rw [hl]; omega), hl, List.getD_append _ _ _ _ (by rw [hl]; omega)]
    have : 1 * c.sliceBytes + j - c.sliceBytes = j := by omega
    rw [this]
    rfl
  · rw [List.getD_append_right _ _ _ _ (by rw [hl]; omega), hl,
      List.getD_append_right _ _ _ _ (by rw [hl]; omega), hl, List.getD_append _ _ _ _ (by rw [hl]; omega)]
    have : 2 * c.sliceBytes + j - c.sliceBytes - c.sliceBytes = j := by omega
    rw [this]
    rfl
  · rw [List.getD_append_right _ _ _ _ (by rw [hl]; omega), hl,
      List.getD_append_right _ _ _ _ (by rw [hl]; omega), hl,
      List.getD_append_right _ _ _ _ (by rw [hl]; omega), hl]
    have : 3 * c.sliceBytes + j - c.sliceBytes - c.sliceBytes - c.sliceBytes = j := by omega
    rw [this]
    rfl

/-- Byte t of group g of chain index h in step s (41_converter R54, R55). -/
theorem lcdFrame_getD (c : Config) (src : Memory) (base : Nat) (ram : Byte) {s h g t : Nat} (hs : s < 4)
    (hh : h < c.halfPanels) (hg : g < 20) (ht : t < 6) :
    (lcdFrame c src base ram).getD (lcdIndex c s h g t) 0 =
      (columnGroup (columnByte c src base h (backplaneAt s)) (ctrlByte c ram (backplaneAt s)) g).getD t 0 := by
  have hj : h * 120 + (g * 6 + t) < c.sliceBytes := by
    unfold Config.sliceBytes
    have : (h + 1) * 120 ≤ c.halfPanels * 120 := Nat.mul_le_mul_right _ hh
    omega
  have hidx : lcdIndex c s h g t = s * c.sliceBytes + (h * 120 + (g * 6 + t)) := by
    unfold lcdIndex
    omega
  rw [hidx, lcdFrame_slice c src base ram hs hj, sliceOf,
    getD_flatMap_range (fun i _ => halfPanelBytes_length c src base ram _ i) hh (by omega), halfPanelBytes,
    getD_flatMap_range (fun _ _ => columnGroup_length ..) hg ht]

/-- Every index of an LCD buffer is that of one byte of one group (41_converter R55). -/
theorem lcdIndex_surjective (c : Config) {n : Nat} (h : n < c.frameBytes) :
    ∃ s k g t, s < 4 ∧ k < c.halfPanels ∧ g < 20 ∧ t < 6 ∧ lcdIndex c s k g t = n := by
  unfold Config.frameBytes at h
  have hpos : 0 < c.sliceBytes := by omega
  have hs : n / c.sliceBytes < 4 := Nat.div_lt_of_lt_mul (by omega)
  have hm : n % c.sliceBytes < c.sliceBytes := Nat.mod_lt _ hpos
  have hk : n % c.sliceBytes / 120 < c.halfPanels :=
    Nat.div_lt_of_lt_mul (by unfold Config.sliceBytes at hm ⊢; omega)
  have hdm := Nat.div_add_mod n c.sliceBytes
  rw [Nat.mul_comm] at hdm
  refine ⟨n / c.sliceBytes, n % c.sliceBytes / 120, n % c.sliceBytes % 120 / 6, n % c.sliceBytes % 6, hs, hk,
    by omega, by omega, ?_⟩
  unfold lcdIndex
  omega

end Sys2Proof.Machine
end

