-- ==== Sys2Proof/Laws/Decode.lean ====
section
/-! SUPPORT. Field readers against field writers (30_encoding R36), and the opcode map. -/

namespace Sys2Proof

/-- A 16-bit field is its two bytes, the more significant first. -/
theorem half_of_bytes (h : Half) : h.extractLsb' 8 8 ++ h.extractLsb' 0 8 = h := by
  refine BitVec.eq_of_getLsbD_eq fun i hi => ?_
  rw [BitVec.getLsbD_append]
  by_cases h8 : i < 8
  · simp [h8]
  · have : i - 8 < 8 := by omega
    have h' : 8 + (i - 8) = i := by omega
    simp [h8, this, h', hi]

/-- A 32-bit field is its two halves, the more significant first. -/
theorem word_of_halves (w : Word) :
    (w.extractLsb' 24 8 ++ w.extractLsb' 16 8 : Half) ++ (w.extractLsb' 8 8 ++ w.extractLsb' 0 8 : Half) = w := by
  refine BitVec.eq_of_getLsbD_eq fun i hi => ?_
  simp only [BitVec.getLsbD_append, BitVec.getLsbD_extractLsb']
  split_ifs <;> simp <;> grind

@[simp] theorem halfBytes_length (h : Half) : (halfBytes h).length = 2 := rfl

@[simp] theorem wordBytes_length (w : Word) : (wordBytes w).length = 4 := rfl

@[simp] theorem sbFieldsBytes_length (x : SbFields) : (sbFieldsBytes x).length = 25 := rfl

/-- The byte of an opcode names it. -/
theorem Opcode.ofByte?_code (o : Opcode) : Opcode.ofByte? o.code = some o := by
  cases o <;> decide

/-- Only an opcode's own byte names it. -/
theorem Opcode.code_of_ofByte? {b : Byte} {o : Opcode} (h : Opcode.ofByte? b = some o) : o.code = b := by
  have := List.find?_some h
  simpa using this

/-- The thirteen fields read back from their bytes. -/
theorem sbFieldsAt_create (x : SbFields) : sbFieldsAt (Opcode.sbCreate.code :: sbFieldsBytes x) 1 = x := by
  cases x
  simp [sbFieldsAt, sbFieldsBytes, halfBytes, halfAt, byteAt, half_of_bytes]

theorem sbFieldsAt_update (id : Byte) (x : SbFields) :
    sbFieldsAt (Opcode.sbUpdate.code :: id :: sbFieldsBytes x) 2 = x := by
  cases x
  simp [sbFieldsAt, sbFieldsBytes, halfBytes, halfAt, byteAt, half_of_bytes]

/-- A LOAD's length field read back from its bytes. -/
theorem wordAt_load (b : Byte) (w : Word) (data : List Byte) : wordAt (b :: (wordBytes w ++ data)) 1 = w := by
  simp only [wordAt, halfAt, byteAt, wordBytes, List.cons_append, List.nil_append]
  exact word_of_halves w

/-- What two bytes make, in numbers (30_encoding R36). -/
theorem toNat_append_bytes (a b : Byte) : (a ++ b : Half).toNat = 256 * a.toNat + b.toNat := by
  rw [BitVec.toNat_append, ← Nat.shiftLeft_add_eq_or_of_lt b.isLt, Nat.shiftLeft_eq, Nat.mul_comm]

theorem halfAt_toNat (f : List Byte) (o : Nat) :
    (halfAt f o).toNat = 256 * (byteAt f o).toNat + (byteAt f (o + 1)).toNat :=
  toNat_append_bytes _ _

theorem wordAt_toNat (f : List Byte) (o : Nat) :
    (wordAt f o).toNat = 65536 * (halfAt f o).toNat + (halfAt f (o + 2)).toNat := by
  have h : (halfAt f (o + 2)).toNat < 2 ^ 16 := (halfAt f (o + 2)).isLt
  rw [wordAt, BitVec.toNat_append, ← Nat.shiftLeft_add_eq_or_of_lt h, Nat.shiftLeft_eq, Nat.mul_comm]

theorem getLsbD_joined_bytes (a b : Byte) (i : Nat) :
    (a ++ b : Half).getLsbD i = if i < 8 then b.getLsbD i else a.getLsbD (i - 8) := by
  have h := BitVec.getLsbD_append (x := a) (y := b) (i := i)
  split at h <;> simp_all

theorem getLsbD_joined_halves (a b : Half) (i : Nat) :
    (a ++ b : Word).getLsbD i = if i < 16 then b.getLsbD i else a.getLsbD (i - 16) := by
  have h := BitVec.getLsbD_append (x := a) (y := b) (i := i)
  split at h <;> simp_all

/-- The two bytes of a field are the bytes it was read from. -/
theorem halfBytes_append (a b : Byte) : halfBytes (a ++ b) = [a, b] := by
  have h1 : (a ++ b : Half).extractLsb' 8 8 = a := by
    refine BitVec.eq_of_getLsbD_eq fun i hi => ?_
    rw [BitVec.getLsbD_extractLsb', getLsbD_joined_bytes, if_neg (by omega), Nat.add_sub_cancel_left]
    simp [hi]
  have h2 : (a ++ b : Half).extractLsb' 0 8 = b := by
    refine BitVec.eq_of_getLsbD_eq fun i hi => ?_
    rw [BitVec.getLsbD_extractLsb', getLsbD_joined_bytes, Nat.zero_add, if_pos hi]
    simp [hi]
  rw [halfBytes, h1, h2]

theorem wordBytes_append (a b c d : Byte) : wordBytes ((a ++ b : Half) ++ (c ++ d : Half)) = [a, b, c, d] := by
  have h (k : Nat) : ((a ++ b : Half) ++ (c ++ d : Half) : Word).extractLsb' k 8 =
      (if k < 16 then (c ++ d : Half).extractLsb' k 8 else (a ++ b : Half).extractLsb' (k - 16) 8) ∨ k % 8 ≠ 0 := by
    by_cases hk : k % 8 = 0
    · refine Or.inl (BitVec.eq_of_getLsbD_eq fun i hi => ?_)
      rw [BitVec.getLsbD_extractLsb', getLsbD_joined_halves]
      by_cases h16 : k < 16
      · rw [if_pos h16, if_pos (by omega), BitVec.getLsbD_extractLsb']
      · rw [if_neg h16, if_neg (by omega), BitVec.getLsbD_extractLsb', show k + i - 16 = k - 16 + i by omega]
    · exact Or.inr hk
  have h24 := (h 24).resolve_right (by decide)
  have h16 := (h 16).resolve_right (by decide)
  have h8 := (h 8).resolve_right (by decide)
  have h0 := (h 0).resolve_right (by decide)
  have ab : (a ++ b : Half).extractLsb' 8 8 = a ∧ (a ++ b : Half).extractLsb' 0 8 = b := by
    simpa [halfBytes] using halfBytes_append a b
  have cd : (c ++ d : Half).extractLsb' 8 8 = c ∧ (c ++ d : Half).extractLsb' 0 8 = d := by
    simpa [halfBytes] using halfBytes_append c d
  rw [wordBytes, h24, h16, h8, h0]
  exact congrArg₂ _ ab.1 (congrArg₂ _ ab.2 (congrArg₂ _ cd.1 (congrArg₂ _ cd.2 rfl)))

/-- The decoder on a frame with an opcode: the length decides (30_encoding R38). -/
theorem decode_of_opcode {op : Byte} {o : Opcode} (h : Opcode.ofByte? op = some o) (rest : List Byte) :
    decode (op :: rest) =
      if o.lengthOk (op :: rest) = true then .ok (decodeFields (op :: rest) o) else .error .badLength := by
  simp only [decode, h]

/-- The decoder on a frame without an opcode (30_encoding R39). -/
theorem decode_illegal {op : Byte} (h : Opcode.ofByte? op = none) (rest : List Byte) :
    decode (op :: rest) = .error .illegalOpcode := by
  simp only [decode, h]

end Sys2Proof
end

