-- ==== Sys2Proof/Laws/Descriptors.lean ====
section
/-! SUPPORT. The arithmetic of the descriptor operations: sizes, reduced offsets, which slot is lowest, which operands
are legal. -/

namespace Sys2Proof.Machine

theorem half_pos {d : Half} (h : d ≠ 0) : 1 ≤ d.toNat := by
  rcases Nat.eq_zero_or_pos d.toNat with h0 | h0
  · exact absurd (BitVec.eq_of_toNat_eq (by simpa using h0)) h
  · exact h0

theorem emod_lt (a : Int) {m : Nat} (h : 1 ≤ m) : emod a m < m := by
  unfold emod
  have h1 := Int.emod_nonneg a (b := (m : Int)) (by omega)
  have h2 := Int.emod_lt_of_pos a (b := (m : Int)) (by omega)
  omega

/-- A buffer size fits the 32 bits of bufSize (10_state R15). -/
theorem bufSizeOf_toNat (w h : Half) :
    (BitVec.ofNat 32 (bufSizeOf w.toNat h.toNat)).toNat = bufSizeOf w.toNat h.toNat := by
  have hw := w.isLt
  have hh := h.isLt
  have : w.toNat * ((h.toNat + 8 - 1) / 8) ≤ 65535 * 65535 := Nat.mul_le_mul (by omega) (by omega)
  rw [BitVec.toNat_ofNat]
  unfold bufSizeOf ceilDiv
  omega

theorem reduceOffset_toNat (o d : Half) : (reduceOffset o d).toNat = o.toNat % d.toNat := by
  simp only [reduceOffset, BitVec.toNat_ofNat, emod]
  have := o.isLt
  have : o.toNat % d.toNat ≤ o.toNat := Nat.mod_le _ _
  rw [← Int.natCast_mod, Int.toNat_natCast]
  omega

theorem sideSetLegal_iff (side : Byte) : sideSetLegal side = true ↔ side.toNat ≤ 3 := by
  revert side
  decide

theorem createLegal_iff {x : SbFields} : createLegal x = true ↔ x.side.toNat ≤ 3 ∧ x.intW ≠ 0 ∧ x.intH ≠ 0 := by
  simp only [createLegal, Bool.and_eq_true, bne_iff_ne, sideSetLegal_iff, and_assoc]

theorem updateLegal_iff {x : SbFields} :
    updateLegal x = true ↔ (x.side = 0xFF ∨ x.side.toNat ≤ 3) ∧ x.intW ≠ 0 ∧ x.intH ≠ 0 := by
  simp only [updateLegal, keepSide, Bool.and_eq_true, Bool.or_eq_true, beq_iff_eq, bne_iff_ne, sideSetLegal_iff,
    and_assoc]

theorem State.liveSlot_iff {s : State} {i : Nat} : s.liveSlot i = true ↔ i < s.cfg.maxSb ∧ (s.slot i).occupied = true := by
  simp [State.liveSlot]

theorem State.lowestFree_eq_some {s : State} {i : Nat} (hi : i < s.slots.length) (hfree : (s.slot i).occupied = false)
    (hlow : ∀ j, j < i → (s.slot j).occupied = true) : s.lowestFree = some i := by
  unfold State.lowestFree
  rw [List.findIdx?_eq_some_iff_getElem]
  refine ⟨hi, ?_, fun j hj => ?_⟩
  · simpa [State.slot, List.getD_eq_getElem?_getD, hi] using hfree
  · simpa [State.slot, List.getD_eq_getElem?_getD, hj.trans hi] using hlow j hj

theorem State.lowestFree_eq_none {s : State} :
    s.lowestFree = none ↔ ∀ j, j < s.slots.length → (s.slot j).occupied = true := by
  unfold State.lowestFree
  rw [List.findIdx?_eq_none_iff]
  constructor
  · intro h j hj
    simpa using h _ (State.slot_mem s hj)
  · intro h e he
    obtain ⟨j, hj, rfl⟩ := List.getElem_of_mem he
    have := h j hj
    simpa [State.slot, List.getD_eq_getElem?_getD, hj] using this

/-- ADVANCE acts slot by slot. -/
theorem State.slot_advance (s : State) (i : Nat) :
    (s.setSlots (s.slots.map Descriptor.advance)).slot i = (s.slot i).advance := by
  simp only [State.slot, State.setSlots, List.getD_eq_getElem?_getD, List.getElem?_map]
  cases s.slots[i]? with
  | none => simp [Descriptor.advance, Descriptor.free]
  | some e => rfl

end Sys2Proof.Machine
end

