-- ==== Sys2Proof/Laws/Exec.lean ====
section
/-! SUPPORT. `exec` as one function to states, and the shared shapes of the commands: runs of region writes, endings that
keep what no command writes. -/

namespace Sys2Proof.Machine

/-- The state a command leaves: every command completes in every state (60_exceptions R94). -/
def execState : Instr → State → State
  | .nop, s => s.finish 0
  | .convert bus side row ram, s => convertState bus side row ram s
  | .sbCreate x, s => createState x s
  | .sbUpdate id x, s => updateState id x s
  | .sbDelete id, s => deleteState id s
  | .advance, s => advanceState s
  | .render, s => renderState s
  | .merge side, s => mergeState side s
  | .setDest sel, s => setDestState sel s
  | .getDest, s => s.finish (s.dest.setWidth 32)
  | .setMaskEn en, s => setMaskEnState en s
  | .getMaskEn, s => s.finish (s.maskEn.setWidth 32)
  | .load len data, s => loadState len data s

theorem exec_eq (i : Instr) (s : State) : exec i s = .next (execState i s) := by
  cases i <;> rfl

theorem exec_next {i : Instr} {s t : State} (h : exec i s = .next t) : t = execState i s := by
  rw [exec_eq] at h
  injection h with h
  exact h.symm

theorem runInOrder_cons (i : Instr) (is : List Instr) (s : State) :
    runInOrder (i :: is) s = runInOrder is (execState i s) := by
  rw [runInOrder, exec_eq]

/-! A run of region writes -/

/-- The regions outside the list keep their bytes. -/
theorem State.region_foldl_other {α : Type} {r : Region} (f : α → Region) (g : α → State → Memory) (l : List α)
    (h : ∀ a ∈ l, r ≠ f a) (s : State) :
    (l.foldl (fun t a => t.setRegion (f a) (g a t)) s).region r = s.region r := by
  induction l generalizing s with
  | nil => rfl
  | cons a l ih =>
    rw [List.foldl_cons, ih (fun b hb => h b (List.mem_cons_of_mem _ hb)),
      State.region_setRegion_other _ _ (h a (List.mem_cons_self ..))]

theorem State.hasRegion_setRegion (s : State) (r r' : Region) (m : Memory) :
    (s.setRegion r m).hasRegion r' ↔ s.hasRegion r' := by
  cases r <;> cases r' <;> simp [State.hasRegion, State.setRegion]

/-- A region in a list without repeats takes the value written for it, when that value depends on the region's own
bytes before the run. -/
theorem State.region_foldl_same {r : Region} (g : Region → Memory → Memory) (l : List Region) (hr : r ∈ l)
    (hnd : l.Nodup) (s : State) (hs : s.hasRegion r) :
    (l.foldl (fun t a => t.setRegion a (g a (t.region a))) s).region r = g r (s.region r) := by
  induction l generalizing s with
  | nil => cases hr
  | cons a l ih =>
    obtain ⟨hna, hnd⟩ := List.nodup_cons.mp hnd
    rw [List.foldl_cons]
    rcases List.mem_cons.mp hr with rfl | hr
    · have hne (b : Region) (hb : b ∈ l) : r ≠ b := fun h => hna (h ▸ hb)
      rw [State.region_foldl_other (fun a => a) (fun b t => g b (t.region b)) l hne, State.region_setRegion_same _ _ hs]
    · have hne : r ≠ a := fun h => hna (h ▸ hr)
      rw [ih hr hnd _ ((State.hasRegion_setRegion ..).mpr hs), State.region_setRegion_other _ _ hne]

/-- A run of region writes writes no register, slot or input. -/
theorem State.rest_foldl {α : Type} (f : α → Region) (g : α → State → Memory) (l : List α) (s : State) :
    let t := l.foldl (fun t a => t.setRegion (f a) (g a t)) s
    t.cfg = s.cfg ∧ t.status = s.status ∧ t.result = s.result ∧ t.dest = s.dest ∧ t.maskEn = s.maskEn ∧
      t.slots = s.slots ∧ t.busy = s.busy ∧ t.inputs = s.inputs ∧ t.port = s.port := by
  induction l generalizing s with
  | nil => exact ⟨rfl, rfl, rfl, rfl, rfl, rfl, rfl, rfl, rfl⟩
  | cons a l ih => simpa using ih (s.setRegion (f a) (g a s))

/-! Equal states from equal parts -/

/-- Two states with the same registers, slots, inputs and regions are the same state, when they hold as many arenas and
LCD buffers. -/
theorem State.ext_regions {s t : State} (hcfg : t.cfg = s.cfg) (hstatus : t.status = s.status)
    (hresult : t.result = s.result) (hdest : t.dest = s.dest) (hmask : t.maskEn = s.maskEn) (hslots : t.slots = s.slots)
    (hbusy : t.busy = s.busy) (hinputs : t.inputs = s.inputs) (hport : t.port = s.port)
    (harena : t.arena.length = s.arena.length) (hlcd : t.lcd.length = s.lcd.length)
    (hregion : ∀ r, t.region r = s.region r) : t = s := by
  have hget (l l' : List Memory) (hl : l.length = l'.length) (h : ∀ i, l.getD i [] = l'.getD i []) : l = l' := by
    refine List.ext_getElem hl fun i h1 h2 => ?_
    simpa [List.getD_eq_getElem?_getD, h1, h2] using h i
  cases s
  cases t
  simp only [State.mk.injEq]
  exact ⟨hcfg, hstatus, hresult, hdest, hmask, hslots, hget _ _ harena fun i => hregion (.arena i),
    Sided.ext_get fun d => hregion (.static d), Sided.ext_get fun d => hregion (.mask d),
    Sided.ext_get fun d => hregion (.dyn d), Sided.ext_get fun d => hregion (.disp d),
    hget _ _ hlcd fun i => hregion (.lcd i), hbusy, hinputs, hport⟩

/-! What no command writes -/

theorem State.sameOutside_refl (s : State) : s.sameOutside s := ⟨rfl, rfl, rfl, rfl⟩

theorem State.sameOutside_setRegion {s u : State} (h : s.sameOutside u) (r : Region) (m : Memory) :
    s.sameOutside (u.setRegion r m) := by
  simpa [State.sameOutside] using h

theorem State.sameOutside_finish {s u : State} (h : s.sameOutside u) (v : Word) : s.sameOutside (u.finish v) := h

theorem State.sameOutside_raise (s : State) (c : Status) : s.sameOutside (s.raise c) := s.sameOutside_refl

end Sys2Proof.Machine
end

