-- ==== Sys2Proof/Laws/HostPort.lean ====
section
/-! SUPPORT. The region codes of 20_memory R24 read both ways. -/

namespace Sys2Proof.Machine

/-- The code table and the HostRead port name the same region. -/
theorem codeOfRegion_iff {c : Config} (hbus : c.numBuses ≤ 63) (code : Byte) (r : Region) :
    codeOfRegion c r = some code.toNat ↔ regionOfCode c code = some r := by
  have hlt := code.isLt
  constructor
  · intro h
    unfold regionOfCode
    rcases r with ⟨_ | _⟩ | ⟨_ | _⟩ | ⟨_ | _⟩ | ⟨_ | _⟩ | i | i
    all_goals simp only [codeOfRegion, Option.ite_none_right_eq_some, Option.some.injEq] at h
    iterate 8
      · rw [← h]
        rfl
    · rw [← h.2]
      iterate 8 rw [if_neg (by omega)]
      rw [if_pos (by omega), Nat.add_sub_cancel_left]
    · rw [← h.2]
      iterate 9 rw [if_neg (by omega)]
      rw [if_pos (by omega), Nat.add_sub_cancel_left]
  · intro h
    unfold regionOfCode at h
    iterate 8
      rcases ite_eq_iff.mp h with ⟨hc, h⟩ | ⟨-, h⟩
      · rw [← Option.some.inj h, hc, codeOfRegion]
    rcases ite_eq_iff.mp h with ⟨hc, h⟩ | ⟨-, h⟩
    · rw [← Option.some.inj h, codeOfRegion, if_pos (by omega)]
      exact congrArg some (by omega)
    rcases ite_eq_iff.mp h with ⟨hc, h⟩ | ⟨-, h⟩
    · rw [← Option.some.inj h, codeOfRegion, if_pos (by omega)]
      exact congrArg some (by omega)
    · cases h

end Sys2Proof.Machine
end

