-- ==== Sys2Proof/Laws/Invariant.lean ====
section
/-! SUPPORT. The invariant of a concrete state by test, and what each shared operation keeps of it. -/

namespace Sys2Proof.Machine

/-- A state that passes the test has the invariant. -/
theorem State.inv_of_test {s : State} (h : s.invTest = true) : s.Inv := by
  simp only [State.invTest, Bool.and_eq_true, beq_iff_eq, decide_eq_true_eq, Bool.or_eq_true, List.mem_cons,
    List.not_mem_nil, or_false, forall_eq_or_imp, forall_eq, List.mem_range] at h
  obtain ⟨⟨⟨⟨⟨⟨⟨⟨⟨⟨⟨hc, h1⟩, h2⟩, h3⟩, h4⟩, h5⟩, h6⟩, h7⟩, h8⟩, hlayers⟩, harena⟩, hlcd⟩ := h
  refine ⟨hc, h1, h2, h3, h4, h5, fun hne => h6.resolve_left hne, h7, h8, fun r => ?_⟩
  obtain ⟨l1, l2, l3, l4, l5, l6, l7, l8⟩ := hlayers
  match r with
  | .static .a => exact l1
  | .static .b => exact l2
  | .mask .a => exact l3
  | .mask .b => exact l4
  | .dyn .a => exact l5
  | .dyn .b => exact l6
  | .disp .a => exact l7
  | .disp .b => exact l8
  | .arena i =>
    by_cases hi : i < s.cfg.maxSb
    · exact harena i hi
    · have : s.region (.arena i) = [] := by
        simp [State.region, List.getD_eq_getElem?_getD, List.getElem?_eq_none (h2 ▸ not_lt.mp hi)]
      rw [this]
      exact Memory.fits_nil _
  | .lcd b =>
    by_cases hb : b < s.cfg.numBuses
    · have hb' : b < s.lcd.length := h3 ▸ hb
      have hmem : s.region (.lcd b) ∈ s.lcd := by
        simp [State.region, List.getD_eq_getElem?_getD, hb']
      have hsize : s.regionSize (.lcd b) = s.cfg.frameBytes := by simp [State.regionSize, hb]
      rw [hsize]
      exact hlcd _ hmem
    · have : s.region (.lcd b) = [] := by
        simp [State.region, List.getD_eq_getElem?_getD, List.getElem?_eq_none (h3 ▸ not_lt.mp hb)]
      rw [this]
      exact Memory.fits_nil _

/-- The invariant without what it says of STATUS and RESULT, slot by slot. -/
structure State.Sound (s : State) : Prop where
  cfgOk : s.cfg.admitted = true
  slotCount : s.slots.length = s.cfg.maxSb
  arenaCount : s.arena.length = s.cfg.maxSb
  lcdCount : s.lcd.length = s.cfg.numBuses
  busyCount : s.busy.length = s.cfg.numBuses
  slotsOk : ∀ i, i < s.cfg.maxSb → (s.slot i).ok s.cfg
  destLegal : s.destOk = true
  regionsOk : ∀ r, (s.region r).fits (s.regionSize r)

theorem State.Inv.sound {s : State} (h : s.Inv) : s.Sound :=
  ⟨h.cfgOk, h.slotCount, h.arenaCount, h.lcdCount, h.busyCount,
    fun _ hi => h.slotsOk _ (State.slot_mem _ (h.slotCount.symm ▸ hi)), h.destLegal, h.regionsOk⟩

theorem State.Sound.all_slots {s : State} (h : s.Sound) : ∀ e ∈ s.slots, e.ok s.cfg := by
  intro e he
  obtain ⟨i, hi, rfl⟩ := List.getElem_of_mem he
  have := h.slotsOk i (h.slotCount ▸ hi)
  simpa [State.slot, List.getD_eq_getElem?_getD, hi] using this

/-- The sizes of the regions depend on the parameters and the slots alone. -/
theorem State.regionSize_congr {s t : State} (hcfg : t.cfg = s.cfg) (hslots : t.slots = s.slots) (r : Region) :
    t.regionSize r = s.regionSize r := by
  cases r <;> simp [State.regionSize, hcfg, State.slot, hslots]

/-- A command that ends with OK leaves the invariant, when all but STATUS and RESULT is sound. -/
theorem State.Sound.finish {s : State} (h : s.Sound) (v : Word) : (s.finish v).Inv :=
  ⟨h.cfgOk, h.slotCount, h.arenaCount, h.lcdCount, h.busyCount, by simp [Status.code], fun hne => absurd rfl hne,
    h.all_slots, h.destLegal, fun r => by
      rw [State.finish_region, State.regionSize_congr (s := s) (t := s.finish v) rfl rfl]
      exact h.regionsOk r⟩

/-- A command that fails keeps the invariant. -/
theorem State.Sound.raise {s : State} (h : s.Sound) (c : Status) : (s.raise c).Inv :=
  ⟨h.cfgOk, h.slotCount, h.arenaCount, h.lcdCount, h.busyCount, by cases c <;> simp [Status.code], fun _ => rfl,
    h.all_slots, h.destLegal, fun r => by
      rw [State.raise_region, State.regionSize_congr (s := s) (t := s.raise c) rfl rfl]
      exact h.regionsOk r⟩

/-- A state that differs only in region contents, all of them still inside their sizes. -/
theorem State.Sound.withRegions {s t : State} (h : s.Sound) (hcfg : t.cfg = s.cfg) (hslots : t.slots = s.slots)
    (hdest : t.dest = s.dest) (harena : t.arena.length = s.arena.length) (hlcd : t.lcd.length = s.lcd.length)
    (hbusy : t.busy.length = s.busy.length) (hr : ∀ r, (t.region r).fits (s.regionSize r)) : t.Sound := by
  refine ⟨by rw [hcfg, h.cfgOk], by rw [hcfg, hslots, h.slotCount], by rw [hcfg, harena, h.arenaCount],
    by rw [hcfg, hlcd, h.lcdCount], by rw [hcfg, hbusy, h.busyCount], ?_, ?_, fun r => ?_⟩
  · simpa only [State.slot, hcfg, hslots] using h.slotsOk
  · simpa only [State.destOk, State.liveSlot, State.slot, hcfg, hslots, hdest] using h.destLegal
  · rw [State.regionSize_congr hcfg hslots]
    exact hr r

/-- A region write gives every region the new bytes (the region itself) or its own. -/
theorem State.region_setRegion_cases (s : State) (r r' : Region) (m : Memory) :
    (s.setRegion r m).region r' = m ∧ r' = r ∨ (s.setRegion r m).region r' = s.region r' := by
  by_cases h : r' = r
  · subst h
    by_cases hs : s.hasRegion r'
    · exact Or.inl ⟨State.region_setRegion_same _ _ hs, rfl⟩
    · right
      cases r' <;> simp [State.hasRegion] at hs <;>
        simp [State.setRegion, State.region, List.getD_eq_getElem?_getD, hs]
  · exact Or.inr (State.region_setRegion_other _ _ h)

theorem State.Sound.setRegion {s : State} (h : s.Sound) {r : Region} {m : Memory} (hm : m.fits (s.regionSize r)) :
    (s.setRegion r m).Sound := by
  refine h.withRegions (by simp) (by simp) (by simp) (by cases r <;> simp [State.setRegion])
    (by cases r <;> simp [State.setRegion]) (by simp) fun r' => ?_
  rcases State.region_setRegion_cases s r r' m with ⟨h1, rfl⟩ | h1
  · rw [h1]
    exact hm
  · rw [h1]
    exact h.regionsOk r'

/-- A run of region writes, each inside its region. -/
theorem State.Sound.foldl {α : Type} {s : State} (h : s.Sound) (f : α → Region) (g : α → State → Memory) (l : List α)
    (hg : ∀ x ∈ l, ∀ u : State, u.Sound → u.cfg = s.cfg → u.slots = s.slots → (g x u).fits (u.regionSize (f x))) :
    (l.foldl (fun t x => t.setRegion (f x) (g x t)) s).Sound := by
  have key : ∀ u : State, u.Sound → u.cfg = s.cfg → u.slots = s.slots →
      (l.foldl (fun t x => t.setRegion (f x) (g x t)) u).Sound := by
    induction l with
    | nil => exact fun u hu _ _ => hu
    | cons x l ih =>
      intro u hu hcfg hslots
      exact ih (fun y hy => hg y (List.mem_cons_of_mem _ hy)) _
        (hu.setRegion (hg x (List.mem_cons_self ..) u hu hcfg hslots)) (by simpa using hcfg) (by simpa using hslots)
  exact key s h rfl rfl

theorem State.Sound.zeroDyn {s : State} (h : s.Sound) : s.zeroDyn.Sound := by
  refine h.withRegions rfl rfl rfl rfl rfl rfl fun r => ?_
  by_cases hr : ∃ d, r = .dyn d
  · obtain ⟨d, rfl⟩ := hr
    rw [State.zeroDyn_region_dyn]
    exact Memory.fits_nil _
  · rw [State.zeroDyn_region_other _ fun d hd => hr ⟨d, hd⟩]
    exact h.regionsOk r

/-- A slot write: the new slot is legal, stays occupied while DEST names it, and its arena's bytes are inside it. -/
theorem State.Sound.setSlot {s : State} (h : s.Sound) {i : Nat} {e : Descriptor} (hi : i < s.cfg.maxSb)
    (he : e.ok s.cfg) (hd : s.dest.toNat = 128 + i → e.occupied = true)
    (hr : (s.region (.arena i)).fits (if e.occupied then e.bufSize.toNat else 0)) : (s.setSlot i e).Sound := by
  have hsame : (s.setSlot i e).slot i = e := State.slot_setSlot_same _ _ (h.slotCount.symm ▸ hi)
  refine ⟨h.cfgOk, by simpa using h.slotCount, h.arenaCount, h.lcdCount, h.busyCount, fun j hj => ?_, ?_, fun r => ?_⟩
  · by_cases hji : j = i
    · subst hji
      rw [hsame]
      exact he
    · rw [State.slot_setSlot_other _ _ hji]
      exact h.slotsOk j hj
  · have hlegal := h.destLegal
    unfold State.destOk at hlegal ⊢
    rw [State.setSlot_dest]
    simp only [Bool.or_eq_true] at hlegal ⊢
    refine hlegal.imp_right fun hs => ?_
    split at hs
    · rename_i id hid
      simp only [scrollId?] at hid
      split_ifs at hid with hsel
      simp only [Option.some.injEq] at hid
      unfold State.liveSlot at hs ⊢
      by_cases hji : id = i
      · subst hji
        rw [hsame, hd (by omega)]
        exact Bool.and_eq_true _ _ ▸ ⟨decide_eq_true hi, rfl⟩
      · rw [State.slot_setSlot_other _ _ hji]
        exact hs
    · cases hs
  · rw [State.setSlot_region]
    by_cases hri : r = .arena i
    · subst hri
      simpa only [State.regionSize, hsame, State.setSlot_cfg, hi, true_and] using hr
    · have : (s.setSlot i e).regionSize r = s.regionSize r := by
        cases r <;> try rfl
        rename_i j
        simp only [State.regionSize]
        rw [State.slot_setSlot_other _ _ fun hji => hri (by rw [hji])]
        rfl
      rw [this]
      exact h.regionsOk r

/-- The arena of a free slot holds nothing. -/
theorem State.Sound.free_arena {s : State} (h : s.Sound) {i : Nat} (hfree : (s.slot i).occupied = false) :
    s.region (.arena i) = [] := by
  have := (h.regionsOk (.arena i)).2
  simp only [State.regionSize, hfree, Bool.false_eq_true, and_false, if_false] at this
  exact List.eq_nil_iff_forall_not_mem.mpr fun c hc => absurd (this c hc) (by omega)

/-- DEST names only live slots (10_state R13). -/
theorem State.Sound.dest_live {s : State} (h : s.Sound) {i : Nat} (hi : i < 127) (hd : s.dest.toNat = 128 + i) :
    (s.slot i).occupied = true ∧ i < s.cfg.maxSb := by
  have hl := h.destLegal
  have hlow (v : Byte) (hv : v.toNat < 128) : s.dest ≠ v := by
    rintro hdv
    rw [hdv] at hd
    omega
  have h1 : layerRegions? s.dest = none := by
    unfold layerRegions?
    simp only [if_neg (hlow 0x00 (by decide)), if_neg (hlow 0x01 (by decide)), if_neg (hlow 0x02 (by decide)),
      if_neg (hlow 0x10 (by decide)), if_neg (hlow 0x11 (by decide)), if_neg (hlow 0x12 (by decide)),
      if_neg (hlow 0x20 (by decide)), if_neg (hlow 0x21 (by decide)), if_neg (hlow 0x22 (by decide))]
  have h2 : s.dest ≠ destNone := by
    intro hdn
    rw [hdn] at hd
    simp [destNone] at hd
    omega
  have h3 : scrollId? s.dest = some i := by
    unfold scrollId?
    rw [if_pos ⟨by omega, h2⟩]
    exact congrArg some (by omega)
  unfold State.destOk at hl
  rw [h1, h3] at hl
  simp only [Option.isSome_none, Bool.false_or, Bool.or_eq_true, beq_iff_eq, h2, false_or, State.liveSlot,
    Bool.and_eq_true, decide_eq_true_eq] at hl
  exact ⟨hl.2, hl.1⟩

end Sys2Proof.Machine
end

