-- ==== Sys2Proof/Laws/Outside.lean ====
section
/-! SUPPORT. What a command leaves does not depend on the events to come, on the HostRead port, or (CONVERT excepted) on
the BUSY inputs. -/

namespace Sys2Proof.Machine

/-- `s` with what no command writes replaced, the parameters excepted. -/
def State.withOutside (s : State) (levels : List Bool) (es : List Event) (p : Option Byte) : State :=
  { s with busy := levels, inputs := es, port := p }

theorem State.withOutside_setRegion (s : State) (r : Region) (m : Memory) (levels : List Bool) (es : List Event)
    (p : Option Byte) : (s.withOutside levels es p).setRegion r m = (s.setRegion r m).withOutside levels es p := by
  cases r <;> rfl

theorem State.withOutside_region (s : State) (r : Region) (levels : List Bool) (es : List Event) (p : Option Byte) :
    (s.withOutside levels es p).region r = s.region r := by
  cases r <;> rfl

theorem State.withOutside_foldl {α : Type} (f : State → α → State) (levels : List Bool) (es : List Event)
    (p : Option Byte) (hf : ∀ u x, f (u.withOutside levels es p) x = (f u x).withOutside levels es p) (l : List α)
    (s : State) : l.foldl f (s.withOutside levels es p) = (l.foldl f s).withOutside levels es p := by
  induction l generalizing s with
  | nil => rfl
  | cons x l ih => rw [List.foldl_cons, hf, ih, List.foldl_cons]

/-- A command does the same whatever the events to come and the port, and, but for CONVERT, whatever the consumers
drive. -/
theorem execState_withOutside (i : Instr) (s : State) (levels : List Bool) (es : List Event) (p : Option Byte)
    (h : i.opcode = .convert → levels = s.busy) :
    execState i (s.withOutside levels es p) = (execState i s).withOutside levels es p := by
  cases i with
  | convert bus side row ram =>
    obtain rfl := h rfl
    simp only [execState, convertState]
    rw [show (s.withOutside s.busy es p).cfg = s.cfg from rfl,
      show (s.withOutside s.busy es p).busyAt bus.toNat = s.busyAt bus.toNat from rfl]
    split
    · rfl
    · simp only [State.withOutside_setRegion]
      split_ifs <;> rfl
  | sbCreate x =>
    simp only [execState, createState]
    rw [show (s.withOutside levels es p).cfg = s.cfg from rfl,
      show (s.withOutside levels es p).lowestFree = s.lowestFree from rfl]
    split
    · rfl
    · split
      · rfl
      · split_ifs <;> rfl
  | sbUpdate id x =>
    simp only [execState, updateState]
    rw [show (s.withOutside levels es p).liveSlot id.toNat = s.liveSlot id.toNat from rfl,
      show (s.withOutside levels es p).slot id.toNat = s.slot id.toNat from rfl,
      show (s.withOutside levels es p).cfg = s.cfg from rfl]
    split_ifs <;> rfl
  | sbDelete id =>
    simp only [execState, deleteState]
    rw [show (s.withOutside levels es p).liveSlot id.toNat = s.liveSlot id.toNat from rfl,
      show (s.withOutside levels es p).dest = s.dest from rfl]
    split_ifs <;> rfl
  | merge side =>
    simp only [execState, mergeState]
    split
    · rfl
    · rw [State.withOutside_foldl _ _ _ _ fun u d => State.withOutside_setRegion ..]
      rfl
  | setDest sel =>
    simp only [execState, setDestState]
    split_ifs
    · rfl
    · split
      · rename_i id _
        rw [show (s.withOutside levels es p).liveSlot id = s.liveSlot id from rfl]
        split_ifs <;> rfl
      · rfl
  | setMaskEn en =>
    simp only [execState, setMaskEnState]
    split_ifs <;> rfl
  | load len data =>
    simp only [execState, loadState]
    rw [show loadTarget (s.withOutside levels es p) = loadTarget s from rfl]
    split_ifs
    · rfl
    · split
      · rfl
      · split_ifs
        · rfl
        · rw [State.withOutside_foldl _ _ _ _ fun u r => by rw [State.withOutside_region, State.withOutside_setRegion]]
          rfl
  | _ => rfl

end Sys2Proof.Machine
end

