-- ==== Sys2Proof/Laws/PerInstr.lean ====
section
/-! SUPPORT. A statement about every command as syntax, made per constructor: its frame begins with its opcode and has
the length 30_encoding R37 gives that opcode. -/

namespace Sys2Proof.Laws.FrameShape

/-- A well-formed command's frame begins with its opcode's byte and passes the length check of 30_encoding R38. -/
def Statement (i : Instr) : Prop :=
  i.wellFormed = true → (encode i).head? = some i.opcode.code ∧ i.opcode.lengthOk (encode i) = true

theorem nop : Statement .nop := fun _ => ⟨rfl, rfl⟩

theorem convert (bus side row ram : Byte) : Statement (.convert bus side row ram) := fun _ => ⟨rfl, rfl⟩

theorem sbCreate (fields : SbFields) : Statement (.sbCreate fields) := fun _ => ⟨rfl, rfl⟩

theorem sbUpdate (id : Byte) (fields : SbFields) : Statement (.sbUpdate id fields) := fun _ => ⟨rfl, rfl⟩

theorem sbDelete (id : Byte) : Statement (.sbDelete id) := fun _ => ⟨rfl, rfl⟩

theorem advance : Statement .advance := fun _ => ⟨rfl, rfl⟩

theorem render : Statement .render := fun _ => ⟨rfl, rfl⟩

theorem merge (side : Byte) : Statement (.merge side) := fun _ => ⟨rfl, rfl⟩

theorem setDest (sel : Byte) : Statement (.setDest sel) := fun _ => ⟨rfl, rfl⟩

theorem getDest : Statement .getDest := fun _ => ⟨rfl, rfl⟩

theorem setMaskEn (en : Byte) : Statement (.setMaskEn en) := fun _ => ⟨rfl, rfl⟩

theorem getMaskEn : Statement .getMaskEn := fun _ => ⟨rfl, rfl⟩

theorem load (len : Word) (data : List Byte) : Statement (.load len data) := by
  intro h
  have hlen : data.length = len.toNat := by simpa [Instr.wellFormed] using h
  refine ⟨rfl, ?_⟩
  simp [Opcode.lengthOk, Opcode.frameLength, encode, Instr.opcode, Instr.operandBytes, wordAt_load, hlen]
  omega

end Sys2Proof.Laws.FrameShape
end

