-- ==== Sys2Proof/Laws/Pixels.lean ====
section
/-! SUPPORT. Pixels of a bitmap buffer: each pixel has a bit of its own, a pixel write changes that bit alone, and the
pixels of a side are all the bits of its buffer (20_memory R25). -/

namespace Sys2Proof

/-! The place of a pixel -/

theorem Config.byteIndex_lt {c : Config} {x y : Nat} (hx : x < c.width) (hy : y < c.height) :
    c.byteIndex x y < c.bitmapBytes := by
  unfold Config.width at hx
  unfold Config.height at hy
  have hrow : y / 32 + 1 ≤ 2 * c.panelRows := by omega
  have hcol : x / 96 + 1 ≤ c.panels := by omega
  have hmul : (y / 32 + 1) * c.panels ≤ 2 * c.panelRows * c.panels := Nat.mul_le_mul_right _ hrow
  have hsum : (y / 32) * c.panels + x / 96 + 1 ≤ 2 * c.panelRows * c.panels := by
    rw [Nat.add_mul, Nat.one_mul] at hmul
    omega
  have hbbs : c.bitmapBytes = 2 * c.panelRows * c.panels * 384 := by
    unfold Config.bitmapBytes
    ring
  rw [hbbs]
  unfold Config.byteIndex
  omega

/-- Distinct pixels have distinct bits (20_memory R25). -/
theorem Config.pixel_injective {c : Config} {x y x' y' : Nat} (hx : x < c.width) (hx' : x' < c.width)
    (hbyte : c.byteIndex x y = c.byteIndex x' y') (hbit : bitIndex y = bitIndex y') : x = x' ∧ y = y' := by
  unfold Config.width at hx hx'
  unfold Config.byteIndex at hbyte
  unfold bitIndex at hbit
  have hcol : x / 96 < c.panels := by omega
  have hcol' : x' / 96 < c.panels := by omega
  have hpanel : y / 32 * c.panels + x / 96 = y' / 32 * c.panels + x' / 96 := by omega
  have hrow : y / 32 = y' / 32 := by
    have h1 : (y / 32 * c.panels + x / 96) / c.panels = y / 32 := by
      rw [Nat.mul_comm, Nat.mul_add_div (by omega), Nat.div_eq_of_lt hcol, Nat.add_zero]
    have h2 : (y' / 32 * c.panels + x' / 96) / c.panels = y' / 32 := by
      rw [Nat.mul_comm, Nat.mul_add_div (by omega), Nat.div_eq_of_lt hcol', Nat.add_zero]
    rw [← h1, hpanel, h2]
  rw [hrow] at hpanel
  omega

/-- Every bit of a bitmap buffer is some pixel of its side (20_memory R25). -/
theorem Config.pixel_surjective {c : Config} {j b : Nat} (hj : j < c.bitmapBytes) (hb : b < 8) :
    ∃ x y, x < c.width ∧ y < c.height ∧ c.byteIndex x y = j ∧ bitIndex y = b := by
  have hbbs : c.bitmapBytes = 384 * (c.panels * (2 * c.panelRows)) := by
    unfold Config.bitmapBytes
    ring
  rw [hbbs] at hj
  have hpos : 0 < c.panels := by
    rcases Nat.eq_zero_or_pos c.panels with h | h
    · simp [h] at hj
    · exact h
  have hpanel : j / 384 < c.panels * (2 * c.panelRows) := Nat.div_lt_of_lt_mul hj
  have hrow : j / 384 / c.panels < 2 * c.panelRows := Nat.div_lt_of_lt_mul hpanel
  have hcol : j / 384 % c.panels < c.panels := Nat.mod_lt _ hpos
  refine ⟨j / 384 % c.panels * 96 + j % 384 / 4, j / 384 / c.panels * 32 + j % 4 * 8 + b, ?_, ?_, ?_, ?_⟩
  · unfold Config.width
    omega
  · unfold Config.height
    omega
  · have h1 : (j / 384 / c.panels * 32 + j % 4 * 8 + b) / 32 = j / 384 / c.panels := by omega
    have h2 : (j / 384 / c.panels * 32 + j % 4 * 8 + b) % 32 / 8 = j % 4 := by omega
    have h3 : (j / 384 % c.panels * 96 + j % 384 / 4) / 96 = j / 384 % c.panels := by omega
    have h4 : (j / 384 % c.panels * 96 + j % 384 / 4) % 96 = j % 384 / 4 := by omega
    unfold Config.byteIndex
    rw [h1, h2, h3, h4]
    have h5 : j / 384 / c.panels * c.panels + j / 384 % c.panels = j / 384 := by
      rw [Nat.mul_comm]
      exact Nat.div_add_mod _ _
    rw [h5]
    omega
  · unfold bitIndex
    omega

namespace Machine

/-! One bit of a byte -/

theorem getLsbD_setBit (v : Byte) {k j : Nat} (b : Bool) (hj : j < 8) :
    (setBit v k b).getLsbD j = if j = k then b else v.getLsbD j := by
  unfold setBit
  by_cases h : j = k
  · subst h
    cases b <;> simp [hj]
  · by_cases h1 : j < k
    · cases b <;> simp [h, hj, h1]
    · have : (1#8).getLsbD (j - k) = false := by
        rw [BitVec.getLsbD_one]
        simp only [Bool.and_eq_false_iff, decide_eq_false_iff_not]
        right
        omega
      cases b <;> simp_all

theorem bitIndex_lt (y : Nat) : bitIndex y < 8 := by
  unfold bitIndex
  omega

/-! Pixel reads and writes -/

theorem Memory.fits_pixWrite {c : Config} {m : Memory} (h : m.fits c.bitmapBytes) {x y : Nat} (hx : x < c.width)
    (hy : y < c.height) (b : Bool) : (pixWrite c m x y b).fits c.bitmapBytes :=
  Memory.fits_write h (Config.byteIndex_lt hx hy) _

/-- A pixel write sets its own pixel and no other. -/
theorem pixRead_pixWrite {c : Config} {m : Memory} (h : m.wf) {x y x' y' : Nat} (hx : x < c.width)
    (hx' : x' < c.width) (b : Bool) :
    pixRead c (pixWrite c m x y b) x' y' = if x' = x ∧ y' = y then b else pixRead c m x' y' := by
  unfold pixRead pixWrite
  rw [Memory.read_write h]
  by_cases hbyte : c.byteIndex x' y' = c.byteIndex x y
  · rw [if_pos hbyte, getLsbD_setBit _ _ (bitIndex_lt y')]
    by_cases hbit : bitIndex y' = bitIndex y
    · obtain ⟨h1, h2⟩ := Config.pixel_injective hx' hx hbyte hbit
      rw [if_pos hbit, if_pos ⟨h1, h2⟩]
    · have hne : ¬(x' = x ∧ y' = y) := fun hh => hbit (by rw [hh.2])
      rw [if_neg hbit, if_neg hne, hbyte]
  · have hne : ¬(x' = x ∧ y' = y) := fun hh => hbyte (by rw [hh.1, hh.2])
    rw [if_neg hbyte, if_neg hne]

/-- Two buffers with the same pixels are the same buffer. -/
theorem Memory.ext_pixels {c : Config} {m m' : Memory} (h : m.fits c.bitmapBytes) (h' : m'.fits c.bitmapBytes)
    (heq : ∀ x y, x < c.width → y < c.height → pixRead c m x y = pixRead c m' x y) : m = m' := by
  refine Memory.ext_read h.1 h'.1 fun j => ?_
  by_cases hj : j < c.bitmapBytes
  · refine BitVec.eq_of_getLsbD_eq fun b hb => ?_
    obtain ⟨x, y, hx, hy, hbyte, hbit⟩ := Config.pixel_surjective hj hb
    have := heq x y hx hy
    unfold pixRead at this
    rwa [hbyte, hbit] at this
  · rw [Memory.read_outside h (not_lt.mp hj), Memory.read_outside h' (not_lt.mp hj)]

/-! A run of pixel writes -/

/-- What a run of pixel writes leaves, when the value written depends on the pixel alone. -/
theorem pixRead_foldl_pixWrite {c : Config} (f : Nat → Nat → Bool) (ps : List (Nat × Nat)) {m : Memory}
    (h : m.fits c.bitmapBytes) (hps : ∀ p ∈ ps, p.1 < c.width ∧ p.2 < c.height) :
    (ps.foldl (fun m p => pixWrite c m p.1 p.2 (f p.1 p.2)) m).fits c.bitmapBytes ∧
      ∀ x y, x < c.width →
        pixRead c (ps.foldl (fun m p => pixWrite c m p.1 p.2 (f p.1 p.2)) m) x y =
          if (x, y) ∈ ps then f x y else pixRead c m x y := by
  induction ps generalizing m with
  | nil => exact ⟨h, fun x y _ => by simp⟩
  | cons p ps ih =>
    obtain ⟨hp1, hp2⟩ := hps p (List.mem_cons_self ..)
    have hfit := Memory.fits_pixWrite h hp1 hp2 (f p.1 p.2)
    obtain ⟨ih1, ih2⟩ := ih hfit fun q hq => hps q (List.mem_cons_of_mem _ hq)
    refine ⟨ih1, fun x y hx => ?_⟩
    rw [List.foldl_cons, ih2 x y hx, pixRead_pixWrite h.1 hp1 hx]
    by_cases hmem : (x, y) ∈ ps
    · rw [if_pos hmem, if_pos (List.mem_cons_of_mem _ hmem)]
    · rw [if_neg hmem]
      by_cases heq : x = p.1 ∧ y = p.2
      · obtain ⟨rfl, rfl⟩ := heq
        rw [if_pos ⟨rfl, rfl⟩, if_pos (List.mem_cons_self ..)]
      · rw [if_neg heq, if_neg]
        intro hcons
        rcases List.mem_cons.mp hcons with hcons | hcons
        · exact heq (by rw [← hcons]; exact ⟨rfl, rfl⟩)
        · exact hmem hcons

end Machine
end Sys2Proof
end

