-- ==== Sys2Proof/Laws/Render.lean ====
section
/-! SUPPORT. What rendering one slot, and all slots in order, does to a dynamic layer (43_compositor R70 to R72). -/

namespace Sys2Proof.Machine

/-- The pixels a slot's render writes are the window's pixels on the display (43_compositor R70). -/
theorem mem_windowPixels {c : Config} {e : Descriptor} {x y : Nat} :
    (x, y) ∈ windowPixels c e ↔ x < c.width ∧ y < c.height ∧ e.inWindow x y := by
  simp only [windowPixels, windowEndX, windowEndY, Descriptor.inWindow, List.mem_flatMap, List.mem_map,
    List.mem_range'_1, Prod.mk.injEq]
  constructor
  · rintro ⟨x', hx, y', hy, rfl, rfl⟩
    omega
  · intro h
    exact ⟨x, by omega, y, by omega, rfl, rfl⟩

/-- One slot's render: the window's pixels take their source pixels, the others stay (43_compositor R71). -/
theorem renderSlot_spec {c : Config} {dyn : Memory} (e : Descriptor) (bitmap : Memory) (h : dyn.fits c.bitmapBytes) :
    (renderSlot c e bitmap dyn).fits c.bitmapBytes ∧
      ∀ x y, x < c.width → y < c.height → (e.inWindow x y →
          pixRead c (renderSlot c e bitmap dyn) x y = sourcePixel e bitmap x y) ∧
        (¬ e.inWindow x y → pixRead c (renderSlot c e bitmap dyn) x y = pixRead c dyn x y) := by
  have hps : ∀ p ∈ windowPixels c e, p.1 < c.width ∧ p.2 < c.height := fun p hp =>
    let hw := mem_windowPixels.mp hp
    ⟨hw.1, hw.2.1⟩
  obtain ⟨h1, h2⟩ := pixRead_foldl_pixWrite (sourcePixel e bitmap) (windowPixels c e) h hps
  refine ⟨h1, fun x y hx hy => ⟨fun hin => ?_, fun hout => ?_⟩⟩
  · exact (h2 x y hx).trans (if_pos (mem_windowPixels.mpr ⟨hx, hy, hin⟩))
  · exact (h2 x y hx).trans (if_neg fun hmem => hout (mem_windowPixels.mp hmem).2.2)

/-- One slot's render into the sides it is assigned to (43_compositor R72). -/
theorem renderSides_get (c : Config) (e : Descriptor) (bitmap : Memory) (dyn : Sided Memory) (d : Side) :
    (renderSides c e bitmap dyn).get d =
      if e.occupied ∧ e.onSide d then renderSlot c e bitmap (dyn.get d) else dyn.get d := by
  unfold renderSides
  cases ho : e.occupied
  · simp
  · cases d <;> simp [Sided.get, Descriptor.onSide, -BitVec.getLsbD_eq_getElem]

/-- The dynamic layers after the first `n` slots are rendered. -/
def renderedUpTo (s : State) (n : Nat) : Sided Memory :=
  (List.range n).foldl (fun d i => renderSides s.cfg (s.slot i) (s.region (.arena i)) d) s.dyn

theorem renderedDyn_eq (s : State) : renderedDyn s = renderedUpTo s s.cfg.maxSb := rfl

@[simp] theorem renderedUpTo_zero (s : State) : renderedUpTo s 0 = s.dyn := rfl

theorem renderedUpTo_succ (s : State) (n : Nat) :
    renderedUpTo s (n + 1) = renderSides s.cfg (s.slot n) (s.region (.arena n)) (renderedUpTo s n) := by
  simp [renderedUpTo, List.range_succ]

theorem renderedUpTo_fits {s : State} (h : ∀ d, (s.dyn.get d).fits s.cfg.bitmapBytes) (n : Nat) (d : Side) :
    ((renderedUpTo s n).get d).fits s.cfg.bitmapBytes := by
  induction n with
  | zero => exact h d
  | succ n ih =>
    rw [renderedUpTo_succ, renderSides_get]
    split
    · exact (renderSlot_spec _ _ ih).1
    · exact ih

end Sys2Proof.Machine
end

