-- ==== Sys2Proof/Tests/Slice0.lean ====
section
/-! SUPPORT. The model's own tests: expected values come from spec/95_test_vectors (V and W numbers) and the encoding tables of
30_encoding; then, for every statement with hypotheses, a state and operands that meet them. -/

namespace Sys2Proof.Tests

open Sys2Proof Sys2Proof.Machine

/-! ## Well-formedness -/

theorem test_load_with_matching_length : (Instr.load 2 [0x81, 0x7E]).wellFormed = true := by decide

theorem test_load_with_too_few_bytes_refused : (Instr.load 2 [0x81]).wellFormed = false := by decide

theorem test_load_with_too_many_bytes_refused : (Instr.load 0 [0x81]).wellFormed = false := by decide

/-! ## Decoding: frames written out from 30_encoding R37 -/

theorem test_decode_nop : decode [0x00] = .ok .nop := by decide

theorem test_decode_convert : decode [0x10, 0x01, 0x02, 0x03, 0x04] = .ok (.convert 0x01 0x02 0x03 0x04) := by decide

/-- The frame of V2.1, with a step of -5 on x. -/
theorem test_decode_sbCreate :
    decode [0x20, 0x01, 0x00, 0x0A, 0x00, 0x03, 0x00, 0x60, 0x00, 0x10, 0x00, 0x61, 0x00, 0x11, 0x00, 0x64, 0xFF, 0xFD,
        0x00, 0x05, 0x00, 0x02, 0xFF, 0xFB, 0x00, 0x07] =
      .ok (.sbCreate ⟨0x01, 10, 3, 96, 16, 97, 17, 100, 65533, 5, 2, BitVec.ofInt 16 (-5), 7⟩) := by decide

/-- The frame of V2.8. -/
theorem test_decode_sbUpdate :
    decode [0x21, 0x00, 0xFF, 0xFF, 0xFF, 0xFF, 0xFF, 0xFF, 0xFF, 0xFF, 0xFF, 0xFF, 0xFF, 0xFF, 0xFF, 0x00, 0x14, 0xFF,
        0xFF, 0xFF, 0xFF, 0xFF, 0xFF, 0x80, 0x00, 0x80, 0x00] =
      .ok (.sbUpdate 0x00 { keepAll with offX := 20 }) := by decide

theorem test_decode_sbDelete : decode [0x22, 0xC8] = .ok (.sbDelete 200) := by decide

theorem test_decode_advance : decode [0x30] = .ok .advance := by decide

theorem test_decode_render : decode [0x31] = .ok .render := by decide

theorem test_decode_merge : decode [0x32, 0x03] = .ok (.merge 3) := by decide

theorem test_decode_setDest : decode [0x40, 0x80] = .ok (.setDest 0x80) := by decide

theorem test_decode_getDest : decode [0x41] = .ok .getDest := by decide

theorem test_decode_setMaskEn : decode [0x42, 0x01] = .ok (.setMaskEn 1) := by decide

theorem test_decode_getMaskEn : decode [0x43] = .ok .getMaskEn := by decide

theorem test_decode_load : decode [0x50, 0x00, 0x00, 0x00, 0x02, 0x81, 0x7E] = .ok (.load 2 [0x81, 0x7E]) := by decide

/-- V5.1: the opcode comes before the length. -/
theorem test_decode_illegal_opcode : decode (List.replicate 30 0x99) = .error .illegalOpcode := by decide

/-- V4.2, V4.17, V4.14: a frame of the wrong length. -/
theorem test_decode_bad_length :
    decode [0x00, 0x00] = .error .badLength ∧ decode [0x50, 0x00, 0x00] = .error .badLength ∧
      decode [0x50, 0x00, 0x00, 0x00, 0x02, 0x81] = .error .badLength := by decide

/-! ## One step of each command -/

/-- The next state, if there is one. -/
def nextOf : Result → Option State
  | .next t => some t
  | .fault _ => none
  | .refused _ => none

/-- STATUS and RESULT after a command. -/
def outcome (i : Instr) (s : State) : Option (Byte × Word) := (nextOf (exec i s)).map fun t => (t.status, t.result)

/-- One field of the state after a command. -/
def look {α : Type} (f : State → α) (i : Instr) (s : State) : Option α := (nextOf (exec i s)).map f

/-- A slot of one column with the window of W7: rows dispY to dispY + 19, intH 32. -/
def w7Slot (dispY offY : Half) : Descriptor :=
  { Descriptor.free with
    occupied := true, side := 1, dispY := dispY, dispW := 1, dispH := 20, intW := 1, intH := 32, bufSize := 4,
    offY := offY }

/-- The state of W7 before its RENDER, the internal column being "pat" = 01 80 0F F0. -/
def w7State (dispY offY : Half) : State :=
  ((State.reset.setSlot 0 (w7Slot dispY offY)).setRegion (.arena 0) (Memory.ofBytes [0x01, 0x80, 0x0F, 0xF0])).setDest
    0x80

/-- Slot 0 of V4.21: intW 2, intH 8, moving by 1 on x every tick; DEST = NONE. -/
def demoSlot : Descriptor :=
  { Descriptor.free with
    occupied := true, side := 3, dispX := 1, dispY := 2, dispW := 3, dispH := 4, intW := 2, intH := 8, bufSize := 2,
    speedX := 1, stepX := 1 }

/-- The default configuration with one live slot, its bitmap 81 7E, DYN[A] byte 0 = 0x11. -/
def demo : State :=
  ((State.reset.setSlot 0 demoSlot).setRegion (.arena 0) (Memory.ofBytes [0x81, 0x7E])).setRegion (.dyn .a) [(0, 0x11)]

/-- V4.1. -/
theorem test_nop : outcome .nop (State.reset.raise .busy) = some (0x00, 0) := by decide

/-- V1.1, pixel (0, 32): LCDBUF[0][597] = 0x10, OK/960. -/
theorem test_convert_pixel :
    look (fun t => (t.status, t.result, t.readByte (.lcd 0) 597, t.readByte (.lcd 0) 600))
      (.convert 0 1 0 0) (State.reset.setRegion (.disp .a) [(384, 0x01)]) = some (0x00, 960, 0x10, 0x00) := by
  decide +kernel

/-- V5.4: BAD_OPERAND comes before BUSY; W5: BUSY. -/
theorem test_convert_refused :
    outcome (.convert 1 1 5 0) (State.reset.setBusy 1 true) = some (0x05, 0) ∧
      outcome (.convert 1 1 0 0) (State.reset.setBusy 1 true) = some (0x03, 0) := by decide +kernel

/-- V2.1: offX = 4, offY = 13, bufSize = 192. -/
theorem test_sbCreate :
    look (fun t => (t.status, t.result, (t.slot 0).offX, (t.slot 0).offY, (t.slot 0).bufSize))
      (.sbCreate ⟨0x01, 0, 0, 96, 16, 96, 16, 100, 0xFFFD, 0, 2, 0, 0⟩) State.reset = some (0x00, 0, 4, 13, 192) := by
  decide +kernel

/-- V2.5 and V2.6: ALLOC_FAIL at 4097 bytes, OK at 4096. -/
theorem test_sbCreate_sizes :
    outcome (.sbCreate ⟨0x01, 0, 0, 1, 1, 4097, 1, 0, 0, 0, 0, 0, 0⟩) State.reset = some (0x02, 0) ∧
      outcome (.sbCreate ⟨0x01, 0, 0, 1, 1, 512, 64, 0, 0, 0, 0, 0, 0⟩) State.reset = some (0x00, 0) := by decide +kernel

/-- V2.8: offX = 20 mod 16 = 4, tickX stays 2, DYN stays. -/
theorem test_sbUpdate_offset :
    look (fun t => ((t.slot 0).offX, (t.slot 0).tickX, t.readByte (.dyn .a) 0)) (.sbUpdate 0 { keepAll with offX := 20 })
      (demo.setSlot 0 { demoSlot with intW := 16, bufSize := 16, offX := 4, speedX := 3, stepX := 5, tickX := 2 }) =
      some (4, 2, 0x11) := by decide +kernel

/-- V2.9 and V2.17: a window change zeroes DYN, a written speed restarts its counter. -/
theorem test_sbUpdate_geometry :
    look (fun t => ((t.slot 0).dispX, (t.slot 0).tickX, t.readByte (.dyn .a) 0))
      (.sbUpdate 0 { keepAll with dispX := 4, speedX := 3 })
      (demo.setSlot 0 { demoSlot with speedX := 3, tickX := 1 }) = some (4, 0, 0x00) := by decide +kernel

/-- W9: IN_USE while DEST names the slot. -/
theorem test_sbDelete_in_use : outcome (.sbDelete 0) (demo.setDest 0x80) = some (0x08, 0) := by decide +kernel

/-- W9, step 5. -/
theorem test_sbDelete :
    look (fun t => (t.status, (t.slot 0).occupied, t.readByte (.dyn .a) 0)) (.sbDelete 0) demo = some (0x00, false, 0) := by
  decide +kernel

/-- V3.8: offX = emod(13 - 32768, 200) = 45. -/
theorem test_advance_negative_step :
    advanceOffset 200 13 1 0x8000 0 = 45 := by decide

/-- V3.1: the third tick of speed 3 moves the offset from 4 to 9. -/
theorem test_advance :
    look (fun t => ((t.slot 0).offX, (t.slot 0).tickX)) .advance
      (demo.setSlot 0 { demoSlot with intW := 16, offX := 4, speedX := 3, stepX := 5, tickX := 2 }) = some (9, 0) := by
  decide +kernel

/-- W7, row dispY 5, offY 3, "pat": DYN[A] bytes 0..3 = 00 00 3E 00. -/
theorem test_render :
    look (fun t => (t.readByte (.dyn .a) 0, t.readByte (.dyn .a) 1, t.readByte (.dyn .a) 2, t.readByte (.dyn .a) 3))
      .render (w7State 5 3) = some (0x00, 0x00, 0x3E, 0x00) := by decide +kernel

/-- V3.19: intH 5, offY 3, the gather path: DYN bytes 0..2 = 84 10 02. -/
theorem test_render_short_column :
    look (fun t => (t.readByte (.dyn .a) 0, t.readByte (.dyn .a) 1, t.readByte (.dyn .a) 2)) .render
      ((w7State 0 3).setSlot 0 { w7Slot 0 3 with intH := 5 } |>.setRegion (.arena 0) [(0, 0xE1)]) =
      some (0x84, 0x10, 0x02) := by decide +kernel

/-- Byte 0 of the layers of V3.21 to V3.24, side A. -/
def mergeDemo : State :=
  ((State.reset.setRegion (.static .a) [(0, 0xF0)]).setRegion (.mask .a) [(0, 0x3C)]).setRegion (.dyn .a) [(0, 0xAA)]

/-- V3.22: E8. -/
theorem test_merge :
    look (fun t => t.readByte (.disp .a) 0) (.merge 3) (mergeDemo.setMaskEn 1) = some 0xE8 := by decide +kernel

/-- V3.21 and V3.23: F0 with MASK_EN 0, B2 with the other polarity. -/
theorem test_merge_polarity :
    mergeByte 0 .showStatic 0xF0 0x3C 0xAA = 0xF0 ∧ mergeByte 1 .showStatic 0xF0 0x3C 0xAA = 0xB2 := by decide

/-- V4.3 and V4.4: accepted and reserved selectors. -/
theorem test_setDest :
    look (fun t => (t.status, t.dest)) (.setDest 0x12) State.reset = some (0x00, 0x12) ∧
      look (fun t => (t.status, t.dest)) (.setDest 0x7F) (State.reset.setDest 0x22) = some (0x05, 0x22) := by
  decide +kernel

/-- V4.5 and V4.6: no such live slot. -/
theorem test_setDest_invalid_ref :
    outcome (.setDest 0x80) State.reset = some (0x04, 0) ∧ outcome (.setDest 0xFE) State.reset = some (0x04, 0) := by
  decide +kernel

/-- V4.8 and V4.9. -/
theorem test_getDest :
    outcome .getDest (State.reset.setDest 0x12) = some (0x00, 18) ∧ outcome .getDest State.reset = some (0x00, 255) := by
  decide

/-- V4.10 and V4.11. -/
theorem test_setMaskEn :
    outcome (.setMaskEn 2) State.reset = some (0x05, 0) ∧ look (·.maskEn) (.setMaskEn 1) State.reset = some 1 := by decide

/-- V4.11. -/
theorem test_getMaskEn : outcome .getMaskEn (State.reset.setMaskEn 1) = some (0x00, 1) := by decide

/-- V4.21: ARENA[0][0..1] = 81 7E. -/
theorem test_load :
    look (fun t => (t.status, t.readByte (.arena 0) 0, t.readByte (.arena 0) 1)) (.load 2 [0x81, 0x7E])
      ((demo.setRegion (.arena 0) []).setDest 0x80) = some (0x00, 0x81, 0x7E) := by decide +kernel

/-- V5.8 and V4.18: INVALID_REF with DEST = NONE, BAD_LENGTH with length 0. -/
theorem test_load_refused :
    outcome (.load 5 [0, 0, 0, 0, 0]) State.reset = some (0x04, 0) ∧
      outcome (.load 0 []) (State.reset.setDest 0x22) = some (0x07, 0) := by decide +kernel

/-- The host's table words: GET_DEST runs as the first step after reset. -/
theorem test_withFetchWord :
    (nextOf (step (State.reset.withFetchWord 8 0x41))).map (fun t => (t.status, t.result)) = some (0x00, 255) := by
  decide +kernel

/-- V2.9: the assembler line and its frame. -/
theorem test_assemble_update :
    assembleFrames "SB_UPDATE 0, _, 4, _, _, _, _, _, _, _, _, _, _, _ ; V2.9" =
      some [[0x21, 0x00, 0xFF, 0x00, 0x04, 0xFF, 0xFF, 0xFF, 0xFF, 0xFF, 0xFF, 0xFF, 0xFF, 0xFF, 0xFF, 0xFF, 0xFF, 0xFF,
        0xFF, 0xFF, 0xFF, 0xFF, 0xFF, 0x80, 0x00, 0x80, 0x00]] := by decide +kernel

/-- V7.1 in small (a fill among the data), W9 step 2, and the expansion of TICK. -/
theorem test_assemble_lines :
    assembleFrames "LOAD 0x01, fill(3, 0)" = some [[0x50, 0x00, 0x00, 0x00, 0x04, 0x01, 0x00, 0x00, 0x00]] ∧
      assembleFrames "SET_DEST SCROLL(0)" = some [[0x40, 0x80]] ∧ assembleFrames "TICK" = some [[0x30], [0x31], [0x32, 0x03]] := by
  decide +kernel

/-! ## Witnesses: for each statement with hypotheses, a state and operands that meet all of them -/

theorem reset_inv : State.reset.Inv := State.inv_of_test (by decide +kernel)

theorem demo_inv : demo.Inv := State.inv_of_test (by decide +kernel)

theorem witness_DecodeOfEncodeIsTheCommand : (Instr.load 2 [0x81, 0x7E]).wellFormed = true := by decide

theorem witness_EncodeOfDecodeIsTheFrame : decode [0x50, 0x00, 0x00, 0x00, 0x00] = .ok (.load 0 []) := by decide

/-- A frame for each clause with a length premise; the last two are the shortest LOAD frames. -/
theorem witness_FieldsAtTheirOffsetsBigEndian :
    (([0x10, 0, 1, 0, 0] : List Byte).head? = some 0x10 ∧ ([0x10, 0, 1, 0, 0] : List Byte).length = 5) ∧
      ((0x20 :: List.replicate 25 (0xFF : Byte)).head? = some 0x20 ∧
        (0x20 :: List.replicate 25 (0xFF : Byte)).length = 26) ∧
      ((0x21 :: List.replicate 26 (0x80 : Byte)).head? = some 0x21 ∧
        (0x21 :: List.replicate 26 (0x80 : Byte)).length = 27) ∧
      (([0x22, 0] : List Byte).head? = some 0x22 ∧ ([0x22, 0] : List Byte).length = 2) ∧
      (([0x32, 3] : List Byte).head? = some 0x32 ∧ ([0x32, 3] : List Byte).length = 2) ∧
      (([0x40, 0xFF] : List Byte).head? = some 0x40 ∧ ([0x40, 0xFF] : List Byte).length = 2) ∧
      (([0x42, 1] : List Byte).head? = some 0x42 ∧ ([0x42, 1] : List Byte).length = 2) ∧
      (let f : List Byte := [0x50, 0, 0, 0, 0]
       f.head? = some 0x50 ∧ 5 ≤ f.length ∧
        f.length = 5 + (65536 * (256 * (f.getD 1 0).toNat + (f.getD 2 0).toNat) +
          (256 * (f.getD 3 0).toNat + (f.getD 4 0).toNat))) ∧
      (let f : List Byte := [0x50, 0, 0, 0, 1, 0x7E]
       f.head? = some 0x50 ∧ 5 ≤ f.length ∧
        f.length = 5 + (65536 * (256 * (f.getD 1 0).toNat + (f.getD 2 0).toNat) +
          (256 * (f.getD 3 0).toNat + (f.getD 4 0).toNat))) := by decide

theorem witness_UnlistedOpcodeReportsIllegalOpcode :
    let s := { State.reset with inputs := [.command (0x51 :: [0x99]), .reset] }
    s.cfg.admitted = true ∧ s.inputs = .command (0x51 :: [0x99]) :: [.reset] ∧ (0x51 : Byte) ∉ opcodeBytes ∧
      (0x01 : Byte) ∉ opcodeBytes ∧ (0xFF : Byte) ∉ opcodeBytes := by decide

/-- One state for each clause: a GET_DEST frame of two bytes, a LOAD header of four bytes, a LOAD one byte short. -/
theorem witness_WrongFrameLengthReportsBadLength :
    State.reset.cfg.admitted = true ∧
      (((0x41, 1) : Byte × Nat) ∈ fixedFrames ∧ ([0x00] : List Byte).length + 1 ≠ 1 ∧
        { State.reset with inputs := [.command [0x41, 0x00]] }.inputs = .command (0x41 :: [0x00]) :: []) ∧
      (([0, 0, 0] : List Byte).length < 4 ∧
        { State.reset with inputs := [.command [0x50, 0, 0, 0]] }.inputs = .command (0x50 :: [0, 0, 0]) :: []) ∧
      (([0x81] : List Byte).length ≠
          2 ^ 24 * (0 : Byte).toNat + 2 ^ 16 * (0 : Byte).toNat + 2 ^ 8 * (0 : Byte).toNat + (2 : Byte).toNat ∧
        { State.reset with inputs := [.command [0x50, 0, 0, 0, 2, 0x81]] }.inputs =
          .command (0x50 :: 0 :: 0 :: 0 :: 2 :: [0x81]) :: []) := by decide

/-- An empty frame; a machine of 128 slots, one more than the largest legal number. -/
theorem witness_EmptyFramesAndOtherConfigurationsAreRefused :
    (let s := { State.reset with inputs := [.command []] }
     s.cfg.admitted = true ∧ s.inputs = .command [] :: []) ∧
      (let s := { State.reset with cfg := { Config.default with maxSb := 128 } }
       ¬(1 ≤ s.cfg.panels ∧ 1 ≤ s.cfg.panelRows ∧ 1 ≤ s.cfg.numBuses ∧ s.cfg.numBuses ≤ 63 ∧ 1 ≤ s.cfg.maxSb ∧
        s.cfg.maxSb ≤ 127 ∧ 1 ≤ s.cfg.slotBytes ∧
        ∀ r k, s.cfg.ctrlMux4 &&& ctrlRam s.cfg r = 0 ∧ s.cfg.ctrlMux4 &&& ctrlAddr s.cfg k = 0 ∧
          ctrlRam s.cfg r &&& ctrlAddr s.cfg k = 0)) := by
  refine ⟨by decide, ?_⟩
  rintro s ⟨_, _, _, _, _, h, _⟩
  exact absurd h (by decide)

theorem witness_StepRunsTheDecodedCommand :
    let s := { State.reset with inputs := [.command [0x41], .busy 1 true] }
    s.cfg.admitted = true ∧ s.inputs = .command [0x41] :: [.busy 1 true] ∧ decode [0x41] = .ok .getDest := by decide

theorem witness_IdleBlockHoldsItsState : State.reset.cfg.admitted = true ∧ State.reset.inputs = [] := by decide

/-- The last bus that exists and the first that does not. -/
theorem witness_BusyEventDrivesOneBus :
    (let s := { State.reset with inputs := [.busy 1 true] }
     s.Inv ∧ s.inputs = .busy 1 true :: [] ∧ 1 < s.cfg.numBuses) ∧
      (let s := { State.reset with inputs := [.busy 2 true] }
       s.Inv ∧ s.inputs = .busy 2 true :: [] ∧ s.cfg.numBuses ≤ 2) :=
  ⟨⟨State.inv_of_test (by decide +kernel), by decide, by decide⟩,
    ⟨State.inv_of_test (by decide +kernel), by decide, by decide⟩⟩

/-- The last byte of STATIC[A], the first index outside it, and a code that names no region. -/
theorem witness_HostReadGivesTheNamedByte :
    (let s := { State.reset with inputs := [.hostRead 0x00 767] }
     s.cfg.admitted = true ∧ s.inputs = .hostRead 0x00 767 :: [] ∧
      codeOfRegion s.cfg (.static .a) = some (0x00 : Byte).toNat ∧ 767 < s.regionSize (.static .a)) ∧
      (let s := { State.reset with inputs := [.hostRead 0x00 768] }
       s.cfg.admitted = true ∧ s.inputs = .hostRead 0x00 768 :: [] ∧
        ∀ r, codeOfRegion s.cfg r = some (0x00 : Byte).toNat → s.regionSize r ≤ 768) ∧
      (let s := { State.reset with inputs := [.hostRead 0x42 0] }
       s.cfg.admitted = true ∧ s.inputs = .hostRead 0x42 0 :: [] ∧
        ∀ r, codeOfRegion s.cfg r = some (0x42 : Byte).toNat → s.regionSize r ≤ 0) := by
  refine ⟨by decide, ⟨by decide, by decide, fun r hr => ?_⟩, by decide, by decide, fun r hr => ?_⟩
  · obtain rfl : Region.static .a = r := Option.some.inj ((codeOfRegion_iff (by decide) _ _).mp hr)
    decide
  · exact nomatch (codeOfRegion_iff (by decide) _ _).mp hr

theorem witness_RegionSizes :
    (0 < demo.cfg.maxSb ∧ (demo.slot 0).occupied = true) ∧ (demo.slot 1).occupied = false ∧ 1 < demo.cfg.numBuses := by
  decide

theorem witness_ResetEventResetsTheSystem :
    let s := { demo with inputs := [.reset, .command [0x00]] }
    s.cfg.admitted = true ∧ s.inputs = .reset :: [.command [0x00]] := by decide

/-- The last pixel of the display. -/
theorem witness_PixelsLieAtTheirByteAndBit :
    Memory.wf [(767, 0x80)] ∧ 95 < 96 * Config.default.panels ∧ 63 < 64 * Config.default.panelRows ∧ 7 < 8 := by decide

/-- A LOAD into an arena changes its byte 0. -/
theorem witness_RegionBytesWrittenOnlyByTheirCommands :
    ∃ t, exec (.load 2 [0x01, 0x02]) (demo.setDest 0x80) = .next t ∧
      t.readByte (.arena 0) 0 ≠ (demo.setDest 0x80).readByte (.arena 0) 0 :=
  ⟨_, rfl, by decide +kernel⟩

theorem witness_RegistersWrittenOnlyByTheirCommands :
    (∃ t, exec (.setDest 0x12) State.reset = .next t ∧ t.dest ≠ State.reset.dest) ∧
      (∃ t, exec (.setMaskEn 1) State.reset = .next t ∧ t.maskEn ≠ State.reset.maskEn) ∧
      (∃ t, exec .advance demo = .next t ∧ t.slots ≠ demo.slots) :=
  ⟨⟨_, rfl, by decide +kernel⟩, ⟨_, rfl, by decide⟩, ⟨_, rfl, by decide +kernel⟩⟩

theorem witness_BusyInputsReadOnlyByConvert :
    Instr.opcode (.merge 3) ≠ .convert ∧ ∃ t, exec (.merge 3) State.reset = .next t :=
  ⟨by decide, _, rfl⟩

/-- CONVERT to a busy bus. -/
theorem witness_LcdBufferKeptWhileBusy :
    let s := { State.reset.setBusy 1 true with inputs := [.command [0x10, 0x01, 0x01, 0x00, 0x00]] }
    s.busyAt 1 = true ∧ (∃ t, step s = .next t) ∧ ∀ es, s.inputs ≠ .reset :: es :=
  ⟨by decide, ⟨_, rfl⟩, fun _ h => nomatch h⟩

/-- Two events while bus 1 transmits: a CONVERT to it, and the other bus falling. -/
theorem witness_LcdBufferKeptThroughTheTransfer :
    let es : List Event := [.command [0x10, 0x01, 0x01, 0x00, 0x00], .busy 0 false]
    let s := { State.reset.setBusy 1 true with inputs := es ++ [.busy 1 false] }
    s.busyAt 1 = true ∧ s.inputs = es ++ [.busy 1 false] ∧ (∀ e ∈ es, e ≠ Event.reset ∧ e ≠ Event.busy 1 false) ∧
      ∃ t, Host.Core.run core es.length s = .next t :=
  ⟨by decide, rfl, by decide, _, rfl⟩

theorem witness_IssuedCommandsRunInOrder :
    let is : List Instr := [.setMaskEn 2, .getMaskEn]
    let s := { State.reset with inputs := commandEvents is ++ [Event.reset] }
    (∀ i ∈ is, i.wellFormed = true) ∧ s.cfg.admitted = true ∧ s.inputs = commandEvents is ++ [Event.reset] := by decide

theorem witness_EveryStepKeepsTheInvariant :
    let s := { demo with inputs := [.command [0x30]] }
    s.Inv ∧ ∃ t, step s = .next t :=
  ⟨State.inv_of_test (by decide +kernel), _, rfl⟩

theorem witness_ResetHasTheInvariant :
    Config.admitted { Config.default with numBuses := 63, maxSb := 127, topology := .linear } = true := by decide

theorem witness_DataBytesByRegion : 3 < 4 ∧ 9 ≤ 9 ∧ 14 ≤ 14 := by decide

/-- Both wirings; the first rotated position, and the first that is not. -/
theorem witness_ChainVisitsEveryHalfPanelOnce :
    (let c := { Config.default with panels := 2 }
     1 ≤ c.panels ∧ c.topology = .uLoop ∧ 0 < 2 * c.panels ∧ 0 < c.panels ∧ 2 < 2 * c.panels ∧ c.panels ≤ 2) ∧
      (let c := { Config.default with panels := 2, topology := .linear }
       1 ≤ c.panels ∧ c.topology = .linear ∧ 3 < 2 * c.panels) ∧ 1 < 2 ∧ 1 < 2 := by decide

theorem witness_ColumnByteFetchAndEndianCorrection :
    7 < 8 ∧ 95 ≤ 95 ∧ (halfPanelOf Config.default 1).rotated = false ∧ (halfPanelOf Config.default 0).rotated = true := by
  decide

/-- The last bus, the last panel row, either side, either RAM, both buses idle. -/
theorem witness_ConvertWritesTheFrame :
    demo.Inv ∧ (1 : Byte).toNat < demo.cfg.numBuses ∧
      ((0x02 : Byte) = 0x01 ∧ Side.b = .a ∨ (0x02 : Byte) = 0x02 ∧ Side.b = .b) ∧
      (0 : Byte).toNat < demo.cfg.panelRows ∧ (1 : Byte).toNat ≤ 1 ∧ demo.busyAt (1 : Byte).toNat = false ∧
      480 * (2 * demo.cfg.panels) < 2 ^ 32 ∧ 3 < 4 ∧ 1 < 2 * demo.cfg.panels ∧ 19 < 20 ∧ 4 < 5 :=
  ⟨demo_inv, by decide⟩

/-- Each operand at its first illegal value; a busy bus with legal operands. -/
theorem witness_ConvertRefusals :
    State.reset.cfg.numBuses ≤ (2 : Byte).toNat ∧ ((0x03 : Byte) ≠ 0x01 ∧ (0x03 : Byte) ≠ 0x02) ∧
      State.reset.cfg.panelRows ≤ (1 : Byte).toNat ∧ 1 < (2 : Byte).toNat ∧
      (let s := State.reset.setBusy 1 true
       ¬(s.cfg.numBuses ≤ (1 : Byte).toNat ∨ ((0x01 : Byte) ≠ 0x01 ∧ (0x01 : Byte) ≠ 0x02) ∨
          s.cfg.panelRows ≤ (0 : Byte).toNat ∨ 1 < (1 : Byte).toNat) ∧ s.busyAt (1 : Byte).toNat = true) := by decide

/-- With two panel rows: the other buffer differs only outside panel row 0. -/
theorem witness_ConvertReadsOnlyItsPanelRow :
    let s := State.resetWith { Config.default with panelRows := 2 } []
    let disp' : Sided Memory := ⟨[(768, 0x01)], []⟩
    s.Inv ∧ (0 : Byte).toNat < s.cfg.numBuses ∧
      ((0x01 : Byte) = 0x01 ∧ Side.a = .a ∨ (0x01 : Byte) = 0x02 ∧ Side.a = .b) ∧ (0 : Byte).toNat < s.cfg.panelRows ∧
      (0 : Byte).toNat ≤ 1 ∧ s.busyAt (0 : Byte).toNat = false ∧
      ∀ j, (0 : Byte).toNat * (2 * s.cfg.panels) * 384 ≤ j → j < ((0 : Byte).toNat + 1) * (2 * s.cfg.panels) * 384 →
        (s.disp.get .a).read j = (disp'.get .a).read j := by
  refine ⟨State.inv_of_test (by decide +kernel), by decide, by decide, by decide, by decide, by decide, fun j _ hj => ?_⟩
  have hj : j < 768 := hj
  simp [Sided.get, Memory.read, State.resetWith, hj]

theorem witness_ConvertedRowIsRecoverable :
    demo.Inv ∧ (0 : Byte).toNat < demo.cfg.numBuses ∧
      ((0x01 : Byte) = 0x01 ∧ Side.a = .a ∨ (0x01 : Byte) = 0x02 ∧ Side.a = .b) ∧
      (0 : Byte).toNat < demo.cfg.panelRows ∧ (0 : Byte).toNat ≤ 1 ∧ demo.busyAt (0 : Byte).toNat = false ∧
      767 < 2 * demo.cfg.panels * 384 :=
  ⟨demo_inv, by decide⟩

theorem witness_AlignedPositionsKeepBitOrder :
    (halfPanelOf Config.default 1).rotated = false ∧ 3 < 4 ∧ 9 ≤ 9 := by decide

/-- The operands of V2.6, on a machine whose slot 0 is live: slot 1 is the lowest free. -/
def createDemo : SbFields := ⟨0x03, 0, 0, 1, 1, 512, 64, 0, 0, 0, 0, 0, 0⟩

theorem witness_CreateFillsTheLowestFreeSlot :
    demo.Inv ∧ createDemo.side.toNat ≤ 3 ∧ createDemo.intW ≠ 0 ∧ createDemo.intH ≠ 0 ∧ 1 < demo.cfg.maxSb ∧
      (demo.slot 1).occupied = false ∧ (∀ j, j < 1 → (demo.slot j).occupied = true) ∧
      createDemo.intW.toNat * ((createDemo.intH.toNat + 7) / 8) ≤ demo.cfg.slotBytes :=
  ⟨demo_inv, by decide⟩

/-- A machine of one slot, which is live. -/
def fullDemo : State :=
  ((State.resetWith { Config.default with maxSb := 1 } []).setSlot 0 demoSlot).setRegion (.arena 0) [(1, 0x7E)]

/-- Each illegal operand at its boundary; a full pool; a size one byte too large (V2.5). -/
theorem witness_CreateRefusals :
    (demo.Inv ∧ 3 < ({ createDemo with side := 4 } : SbFields).side.toNat ∧
      ({ createDemo with intW := 0 } : SbFields).intW = 0 ∧ ({ createDemo with intH := 0 } : SbFields).intH = 0) ∧
      (fullDemo.Inv ∧ ¬(3 < createDemo.side.toNat ∨ createDemo.intW = 0 ∨ createDemo.intH = 0) ∧
        ∀ j, j < fullDemo.cfg.maxSb → (fullDemo.slot j).occupied = true) ∧
      (let x : SbFields := { createDemo with intW := 4097, intH := 8 }
       ¬(3 < x.side.toNat ∨ x.intW = 0 ∨ x.intH = 0) ∧
        ¬(∀ j, j < demo.cfg.maxSb → (demo.slot j).occupied = true) ∧
        demo.cfg.slotBytes < x.intW.toNat * ((x.intH.toNat + 7) / 8)) :=
  ⟨⟨demo_inv, by decide⟩, ⟨State.inv_of_test (by decide +kernel), by decide⟩, by decide⟩

/-- A resize to exactly SLOT_BYTES, and an update without a resize. -/
theorem witness_UpdateMergesTheWrittenFields :
    demo.Inv ∧ (0 : Byte).toNat < demo.cfg.maxSb ∧ (demo.slot (0 : Byte).toNat).occupied = true ∧
      (let x : SbFields := { keepAll with side := 3, intW := 4096 }
       (x.side = 0xFF ∨ x.side.toNat ≤ 3) ∧ x.intW ≠ 0 ∧ x.intH ≠ 0 ∧
        4096 * (((demo.slot 0).intH.toNat + 7) / 8) ≤ demo.cfg.slotBytes) ∧
      (let x : SbFields := { keepAll with speedX := 2 }
       (x.side = 0xFF ∨ x.side.toNat ≤ 3) ∧ x.intW ≠ 0 ∧ x.intH ≠ 0 ∧ x.intW = 0xFFFF ∧ x.intH = 0xFFFF) :=
  ⟨demo_inv, by decide⟩

/-- V2.15 and V2.16, V2.13 (a free slot and one that does not exist), V2.14. -/
theorem witness_UpdateRefusals :
    (let x : SbFields := { keepAll with side := 4 }
     x.side ≠ 0xFF ∧ 3 < x.side.toNat) ∧ ({ keepAll with intW := 0 } : SbFields).intW = 0 ∧
      (let x := keepAll
       ¬((x.side ≠ 0xFF ∧ 3 < x.side.toNat) ∨ x.intW = 0 ∨ x.intH = 0) ∧
        ¬((3 : Byte).toNat < demo.cfg.maxSb ∧ (demo.slot (3 : Byte).toNat).occupied = true) ∧
        ¬((4 : Byte).toNat < demo.cfg.maxSb ∧ (demo.slot (4 : Byte).toNat).occupied = true)) ∧
      (let x : SbFields := { keepAll with intW := 4097 }
       ¬((x.side ≠ 0xFF ∧ 3 < x.side.toNat) ∨ x.intW = 0 ∨ x.intH = 0) ∧
        ((0 : Byte).toNat < demo.cfg.maxSb ∧ (demo.slot (0 : Byte).toNat).occupied = true) ∧
        x.intW ≠ (demo.slot 0).intW ∧ demo.cfg.slotBytes < x.intW.toNat * (((demo.slot 0).intH.toNat + 7) / 8)) := by
  decide

theorem witness_UpdateOfAllSentinelsChangesNothing :
    demo.Inv ∧ (0 : Byte).toNat < demo.cfg.maxSb ∧ (demo.slot (0 : Byte).toNat).occupied = true :=
  ⟨demo_inv, by decide⟩

theorem witness_DeleteFreesTheSlot :
    demo.Inv ∧ (0 : Byte).toNat < demo.cfg.maxSb ∧ (demo.slot (0 : Byte).toNat).occupied = true ∧
      demo.dest.toNat ≠ 0x80 + (0 : Byte).toNat :=
  ⟨demo_inv, by decide⟩

/-- A free slot, an id beyond the table, and the slot DEST names. -/
theorem witness_DeleteRefusals :
    ¬((1 : Byte).toNat < demo.cfg.maxSb ∧ (demo.slot (1 : Byte).toNat).occupied = true) ∧
      ¬((4 : Byte).toNat < demo.cfg.maxSb ∧ (demo.slot (4 : Byte).toNat).occupied = true) ∧
      (let s := demo.setDest 0x80
       ((0 : Byte).toNat < s.cfg.maxSb ∧ (s.slot (0 : Byte).toNat).occupied = true) ∧
        s.dest.toNat = 0x80 + (0 : Byte).toNat) := by decide

/-- A free slot, a moving axis (x) and a frozen one (y). -/
theorem witness_AdvanceMovesOccupiedSlots :
    demo.Inv ∧ (demo.slot 1).occupied = false ∧ (demo.slot 0).occupied = true ∧
      ((demo.slot 0).speedX ≠ 0 ∧ (demo.slot 0).speedX.toNat ≤ (demo.slot 0).tickX.toNat + 1) ∧
      (demo.slot 0).speedY = 0 :=
  ⟨demo_inv, by decide⟩

/-- The one ADVANCE of speed 1, and none. -/
theorem witness_OffsetMovesOncePerSpeedTicks :
    let s := { demo with inputs := List.replicate 1 (Event.command [0x30]) ++ [] }
    s.Inv ∧ (s.slot 0).occupied = true ∧ s.inputs = List.replicate 1 (Event.command [0x30]) ++ [] ∧ (s.slot 0).speedX ≠ 0 ∧
      (s.slot 0).tickX = 0 ∧ 1 = (s.slot 0).speedX.toNat ∧ 0 < (s.slot 0).speedX.toNat :=
  ⟨State.inv_of_test (by decide +kernel), by decide⟩

theorem witness_OppositeStepReturnsTheOffset :
    demo.Inv ∧ (0 : Byte).toNat < demo.cfg.maxSb ∧ (demo.slot (0 : Byte).toNat).occupied = true ∧
      (demo.slot (0 : Byte).toNat).speedX = 1 ∧ (demo.slot (0 : Byte).toNat).stepX ≠ 0x8000 :=
  ⟨demo_inv, by decide⟩

/-- The corner pixels of the window, on both sides, and a pixel no slot covers. -/
theorem witness_RenderShowsTheHighestCoveringSlot :
    demo.Inv ∧ 3 < 96 * demo.cfg.panels ∧ 5 < 64 * demo.cfg.panelRows ∧
      (∀ d, demo.covers d 1 2 0 ∧ demo.covers d 3 5 0 ∧ ∀ j, 0 < j → ¬ demo.covers d 3 5 j) ∧
      ∀ d i, ¬ demo.covers d 3 6 i := by
  have hfree : ∀ j, 0 < j → (demo.slot j).occupied = false := by
    intro j hj
    by_cases h4 : j < 4
    · have : ∀ j < 4, 0 < j → (demo.slot j).occupied = false := by decide
      exact this j h4 hj
    · simp [State.slot_beyond demo (i := j) (by simpa [demo, State.reset, State.resetWith, Config.default] using h4),
        Descriptor.free]
  have hcov : ∀ d, demo.covers d 1 2 0 ∧ demo.covers d 3 5 0 := by
    rintro (_ | _) <;> simp only [State.covers, Descriptor.inWindow] <;> decide
  refine ⟨demo_inv, by decide, by decide, fun d => ⟨(hcov d).1, (hcov d).2, fun j hj h => ?_⟩, fun d i h => ?_⟩
  · exact Bool.noConfusion ((hfree j hj).symm.trans h.2.1)
  · by_cases hi : 0 < i
    · exact Bool.noConfusion ((hfree i hi).symm.trans h.2.1)
    · obtain rfl : i = 0 := by omega
      exact absurd h.2.2.2.2.2.2 (by decide)

theorem witness_RenderTwiceIsRenderOnce : demo.Inv := demo_inv

theorem witness_BlenderWritesTheSameBytes :
    (demo.slot 0).live demo.cfg ∧ (demo.dyn.a).fits demo.cfg.bitmapBytes := by decide

/-- A window of bytes 0 to 3 that starts and ends inside a byte (W7, dispY 5). -/
theorem witness_AlignmentCasesGiveShiftAndMask :
    let e := w7Slot 5 3
    e.live Config.default ∧ e.dispY.toNat < windowEndY Config.default e ∧ firstByte e ≤ 0 ∧ 3 ≤ lastByte Config.default e ∧
      e.intH.toNat % 8 = 0 := by decide

/-- A bitmap of ones for the 2 × 8 slot; a pixel inside its window and one outside. -/
theorem witness_AllOnesRenderSetsExactlyTheWindow :
    (demo.slot 0).live demo.cfg ∧ (demo.dyn.a).fits demo.cfg.bitmapBytes ∧
      (∀ ix iy, ix < (demo.slot 0).intW.toNat → iy < (demo.slot 0).intH.toNat →
        sbPix (demo.slot 0) [(0, 0xFF), (1, 0xFF)] ix iy = true) ∧
      95 < 96 * demo.cfg.panels ∧ 63 < 64 * demo.cfg.panelRows ∧ ¬ (demo.slot 0).inWindow 95 63 := by
  refine ⟨by decide, by decide, fun ix iy hx hy => ?_, by decide, by decide, fun h => absurd h.2.1 (by decide)⟩
  have : ∀ ix < 2, ∀ iy < 8, sbPix (demo.slot 0) [(0, 0xFF), (1, 0xFF)] ix iy = true := by decide +kernel
  exact this ix hx iy hy

/-- A slot of 5 rows: two bitmaps that differ only in the three padding bits of the column (V3.19). -/
theorem witness_PaddingBitsAreNeverRead :
    let e := { w7Slot 0 3 with intH := 5, bufSize := 1 }
    e.live Config.default ∧ ∀ ix iy, ix < e.intW.toNat → iy < e.intH.toNat →
      sbPix e [(0, 0xE1)] ix iy = sbPix e [(0, 0x01)] ix iy := by
  refine ⟨by decide, fun ix iy hx hy => ?_⟩
  have : ∀ ix < 1, ∀ iy < 5, sbPix { w7Slot 0 3 with intH := 5, bufSize := 1 } [(0, 0xE1)] ix iy =
      sbPix { w7Slot 0 3 with intH := 5, bufSize := 1 } [(0, 0x01)] ix iy := by decide +kernel
  exact this ix hx iy hy

/-- MASK_EN 0; MASK_EN 1 with each polarity; the last byte of the buffer. -/
theorem witness_MergeComposesTheLayers :
    ((0x03 : Byte) = 0x01 ∨ (0x03 : Byte) = 0x02 ∨ (0x03 : Byte) = 0x03) ∧
      767 < 768 * mergeDemo.cfg.panels * mergeDemo.cfg.panelRows ∧ mergeDemo.maskEn = 0 ∧
      (mergeDemo.setMaskEn 1).maskEn = 1 ∧ mergeDemo.cfg.maskPolarity = .showDynamic ∧
      (let s := State.resetWith { Config.default with maskPolarity := .showStatic } []
       (s.setMaskEn 1).maskEn = 1 ∧ s.cfg.maskPolarity = .showStatic) := by decide

theorem witness_MergeRefusesOtherSides : (0x00 : Byte) = 0x00 ∧ 4 ≤ (0x04 : Byte).toNat := by decide

/-- Two states that differ only in a DISP byte and in DEST. -/
theorem witness_MergeDependsOnlyOnTheLayers :
    let s := mergeDemo
    let s' := (mergeDemo.setRegion (.disp .a) [(5, 0x7E)]).setDest 0x22
    s'.cfg = s.cfg ∧ s'.maskEn = s.maskEn ∧ s'.static = s.static ∧ s'.mask = s.mask ∧ s'.dyn = s.dyn ∧
      s'.disp ≠ s.disp := by decide

/-- NONE, and the selector of the live slot. -/
theorem witness_SetDestAcceptsLegalSelectors :
    (0xFF : Byte) ∈ ([0x00, 0x01, 0x02, 0x10, 0x11, 0x12, 0x20, 0x21, 0x22, 0xFF] : List Byte) ∧
      (0x80 ≤ (0x80 : Byte).toNat ∧ (0x80 : Byte).toNat ≤ 0xFE ∧ (0x80 : Byte).toNat - 0x80 < demo.cfg.maxSb ∧
        (demo.slot ((0x80 : Byte).toNat - 0x80)).occupied = true) := by decide

/-- The last slot, which is free; the first id beyond the table; each range of reserved selectors. -/
theorem witness_SetDestRefusals :
    (0x80 ≤ (0x83 : Byte).toNat ∧ (0x83 : Byte).toNat ≤ 0xFE ∧ (demo.slot ((0x83 : Byte).toNat - 0x80)).occupied = false) ∧
      demo.cfg.maxSb ≤ (0x84 : Byte).toNat - 0x80 ∧
      (0x03 ≤ (0x03 : Byte).toNat ∧ (0x0F : Byte).toNat ≤ 0x0F) ∧ (0x13 ≤ (0x13 : Byte).toNat ∧ (0x1F : Byte).toNat ≤ 0x1F) ∧
      (0x23 ≤ (0x23 : Byte).toNat ∧ (0x7F : Byte).toNat ≤ 0x7F) := by decide

theorem witness_SetMaskEnWritesTheFlag : (1 : Byte).toNat ≤ 1 ∧ 2 ≤ (2 : Byte).toNat := by decide

theorem witness_LoadWritesTheSelectedLayers :
    let s := demo.setDest 0x22
    let data := List.replicate 768 (0x5A : Byte)
    s.Inv ∧ ((0x22, [.dyn .a, .dyn .b]) : Byte × List Region) ∈ layerSelectors ∧ s.dest = 0x22 ∧
      data.length = (768 : Word).toNat ∧ (768 : Word).toNat = 768 * s.cfg.panels * s.cfg.panelRows :=
  ⟨State.inv_of_test (by decide +kernel), by decide, by decide, by rw [List.length_replicate]; rfl, by decide⟩

theorem witness_LoadWritesTheSelectedArena :
    let s := demo.setDest 0x80
    s.Inv ∧ 0 < 127 ∧ s.dest.toNat = 0x80 + 0 ∧ ([0x81, 0x7E] : List Byte).length = (2 : Word).toNat ∧
      (2 : Word).toNat = (s.slot 0).bufSize.toNat :=
  ⟨State.inv_of_test (by decide +kernel), by decide⟩

/-- A byte too few; NONE; a LOAD one byte short of the slot (V4.20) and of length 0 for a layer (V4.18). -/
theorem witness_LoadRefusals :
    ([0x81] : List Byte).length ≠ (2 : Word).toNat ∧
      (([] : List Byte).length = (0 : Word).toNat ∧ State.reset.dest = 0xFF) ∧
      (let s := demo.setDest 0x80
       ([0x81] : List Byte).length = (1 : Word).toNat ∧ 0 < 127 ∧ s.dest.toNat = 0x80 + 0 ∧
        (1 : Word).toNat ≠ (s.slot 0).bufSize.toNat) ∧
      (let s := demo.setDest 0x10
       ([] : List Byte).length = (0 : Word).toNat ∧ ((0x10, [.mask .a]) : Byte × List Region) ∈ layerSelectors ∧
        s.dest = 0x10 ∧ (0 : Word).toNat ≠ 768 * s.cfg.panels * s.cfg.panelRows) := by decide

end Sys2Proof.Tests
end

section
/-! SUPPORT. Inversion: in which cases a command, a frame, an event and a step do what, guards included. -/

namespace Sys2Proof.Machine

/-! ## What each command can do -/

theorem convertState_cases (bus side row ram : Byte) (s : State) :
    (∃ c, convertState bus side row ram s = s.raise c) ∨
      ∃ d, oneSide? side = some d ∧ bus.toNat < s.cfg.numBuses ∧ row.toNat < s.cfg.panelRows ∧ ram.toNat ≤ 1 ∧
        s.busyAt bus.toNat = false ∧
        convertState bus side row ram s =
          (s.setRegion (.lcd bus.toNat)
            (Memory.ofBytes (lcdFrame s.cfg (s.disp.get d) (panelRowBase s.cfg row.toNat) ram))).finish
            (lengthResult s.cfg.frameBytes) := by
  unfold convertState
  split
  · exact .inl ⟨_, rfl⟩
  · next d hd =>
    split_ifs with hlegal hbusy
    · exact .inl ⟨_, rfl⟩
    · exact .inl ⟨_, rfl⟩
    · exact .inr ⟨d, hd, by omega, by omega, by omega, by simpa using hbusy, rfl⟩

theorem createState_cases (x : SbFields) (s : State) :
    (∃ c, createState x s = s.raise c) ∨
      ∃ i, createLegal x = true ∧ s.lowestFree = some i ∧ bufSizeOf x.intW.toNat x.intH.toNat ≤ s.cfg.slotBytes ∧
        createState x s = ((s.setSlot i (createdSlot x)).setRegion (.arena i) []).finish (BitVec.ofNat 32 i) := by
  unfold createState
  split
  · exact .inl ⟨_, rfl⟩
  · next hlegal =>
    split
    · exact .inl ⟨_, rfl⟩
    · next i hi =>
      split_ifs with hsize
      · exact .inl ⟨_, rfl⟩
      · exact .inr ⟨i, by simpa using hlegal, hi, by omega, rfl⟩

/-- SB_UPDATE's slot write, with the arena it clears on a resize (42_scroll_descriptors R65). -/
def State.replaceSlot (s : State) (i : Nat) (e : Descriptor) : State :=
  if resized (s.slot i) e then (s.setSlot i e).setRegion (.arena i) [] else s.setSlot i e

theorem updateState_cases (id : Byte) (x : SbFields) (s : State) :
    (∃ c, updateState id x s = s.raise c) ∨
      ∃ new, new = updatedSlot x (s.slot id.toNat) ∧ updateLegal x = true ∧ s.liveSlot id.toNat = true ∧
        (resized (s.slot id.toNat) new = true → bufSizeOf new.intW.toNat new.intH.toNat ≤ s.cfg.slotBytes) ∧
        updateState id x s =
          (if geometryChanged (s.slot id.toNat) new then (s.replaceSlot id.toNat new).zeroDyn
            else s.replaceSlot id.toNat new).finish 0 := by
  simp only [updateState]
  split
  · exact .inl ⟨_, rfl⟩
  · next hlegal =>
    split
    · exact .inl ⟨_, rfl⟩
    · next hlive =>
      split
      · exact .inl ⟨_, rfl⟩
      · next hsize =>
        exact .inr ⟨_, rfl, by simpa using hlegal, by simpa using hlive,
          fun hres => not_lt.mp fun hlt => hsize ⟨hres, hlt⟩, rfl⟩

theorem deleteState_cases (id : Byte) (s : State) :
    (∃ c, deleteState id s = s.raise c) ∨
      s.liveSlot id.toNat = true ∧ s.dest.toNat ≠ 0x80 + id.toNat ∧
        deleteState id s =
          (((s.setSlot id.toNat Descriptor.free).setRegion (.arena id.toNat) []).zeroDyn).finish 0 := by
  simp only [deleteState]
  split_ifs with hlive hdest
  · exact .inl ⟨_, rfl⟩
  · exact .inl ⟨_, rfl⟩
  · exact .inr ⟨by simpa using hlive, hdest, rfl⟩

theorem mergeState_cases (side : Byte) (s : State) :
    (∃ c, mergeState side s = s.raise c) ∨
      ∃ ds, mergeSides? side = some ds ∧
        mergeState side s = (ds.foldl (fun t d => t.setRegion (.disp d) (mergedDisp s d)) s).finish 0 := by
  unfold mergeState
  split
  · exact .inl ⟨_, rfl⟩
  · next ds hds => exact .inr ⟨ds, hds, rfl⟩

/-- SET_DEST writes a selector only when DEST then meets its rule (10_state R13). -/
theorem setDestState_cases (sel : Byte) (s : State) :
    (∃ c, setDestState sel s = s.raise c) ∨
      (s.setDest sel).destOk = true ∧ setDestState sel s = (s.setDest sel).finish 0 := by
  unfold setDestState
  split_ifs with hsel
  · exact .inr ⟨by simp_all [State.destOk], rfl⟩
  · split
    · next id hid =>
      split_ifs with hlive
      · exact .inr ⟨by simp_all [State.destOk, State.liveSlot], rfl⟩
      · exact .inl ⟨_, rfl⟩
    · exact .inl ⟨_, rfl⟩

theorem setMaskEnState_cases (en : Byte) (s : State) :
    (∃ c, setMaskEnState en s = s.raise c) ∨
      en.toNat ≤ 1 ∧ setMaskEnState en s = (s.setMaskEn (en.setWidth 1)).finish 0 := by
  unfold setMaskEnState
  split_ifs with hen
  · exact .inl ⟨_, rfl⟩
  · exact .inr ⟨by omega, rfl⟩

theorem loadState_cases (len : Word) (data : List Byte) (s : State) :
    (∃ c, loadState len data s = s.raise c) ∨
      ∃ regions, loadTarget s = some (data.length, regions) ∧ data.length = len.toNat ∧
        loadState len data s = (regions.foldl (fun t r => t.setRegion r ((t.region r).load data)) s).finish 0 := by
  unfold loadState
  split_ifs with hlen
  · exact .inl ⟨_, rfl⟩
  · split
    · exact .inl ⟨_, rfl⟩
    · next size regions htarget =>
      split_ifs with hsize
      · exact .inl ⟨_, rfl⟩
      · have hdata : data.length = size := by omega
        exact .inr ⟨regions, hdata ▸ htarget, by omega, rfl⟩

/-! ## What one step can do -/

theorem step_of_inputs {s : State} {e : Event} {es : List Event} (hcfg : s.cfg.admitted = true)
    (hin : s.inputs = e :: es) : step s = runEvent e (s.setInputs es) := by
  simp [step, runNext, hcfg, hin]

theorem step_cases {s t : State} (h : step s = .next t) :
    s.cfg.admitted = true ∧
      (s.inputs = [] ∧ t = s ∨ ∃ e es, s.inputs = e :: es ∧ runEvent e (s.setInputs es) = .next t) := by
  unfold step runNext at h
  split_ifs at h with hcfg
  split at h
  · next hin => exact ⟨hcfg, .inl ⟨hin, by injection h with h; exact h.symm⟩⟩
  · next e es hin => exact ⟨hcfg, .inr ⟨e, es, hin, h⟩⟩

theorem runFrame_cases {f : List Byte} {s t : State} (h : runFrame f s = .next t) :
    (∃ i, decode f = .ok i ∧ t = execState i s) ∨ ∃ c, t = s.raise c := by
  unfold runFrame at h
  split at h
  · next i hi => exact .inl ⟨i, hi, exec_next h⟩
  · injection h with h
    exact .inr ⟨_, h.symm⟩
  · injection h with h
    exact .inr ⟨_, h.symm⟩
  · cases h

/-- What each event can do when it is not refused (60_exceptions R92). -/
theorem runEvent_cases {e : Event} {s t : State} (h : runEvent e s = .next t) :
    (∃ f, e = .command f ∧ runFrame f s = .next t) ∨
      (∃ b v, e = .busy b v ∧ b < s.cfg.numBuses ∧ t = s.setBusy b v) ∨
      (∃ code i v, e = .hostRead code i ∧ s.hostRead code i = some v ∧ t = s.setPort v) ∨
      e = .reset ∧ t = State.resetWith s.cfg s.inputs := by
  cases e with
  | command f => exact .inl ⟨f, rfl, h⟩
  | busy b v =>
    simp only [runEvent] at h
    split_ifs at h with hb
    injection h with h
    exact .inr (.inl ⟨b, v, rfl, hb, h.symm⟩)
  | hostRead code i =>
    simp only [runEvent] at h
    split at h
    · next v hv =>
      injection h with h
      exact .inr (.inr (.inl ⟨code, i, v, rfl, hv, h.symm⟩))
    · cases h
  | reset =>
    injection h with h
    exact .inr (.inr (.inr ⟨rfl, h.symm⟩))

end Sys2Proof.Machine
end

section
/-! SUPPORT. Who writes DEST, MASK_EN and the descriptor table, and who reads and writes the BUSY inputs (10_state R13 to
R15, R21). -/

namespace Sys2Proof.Machine

/-! ## The registers a command leaves -/

/-- DEST, MASK_EN and the descriptor table are the same. -/
def State.sameRegisters (s t : State) : Prop := t.dest = s.dest ∧ t.maskEn = s.maskEn ∧ t.slots = s.slots

/-- Each of DEST, MASK_EN and the descriptor table is the same, or `i` is a command that writes it and wrote the value
it holds (10_state R13 to R15). -/
def RegistersWrittenBy (i : Instr) (s t : State) : Prop :=
  (t.dest = s.dest ∨ i = .setDest t.dest) ∧
    (t.maskEn = s.maskEn ∨ i = .setMaskEn (t.maskEn.setWidth 8)) ∧ (t.slots = s.slots ∨ writesSlots i = true)

theorem State.sameRegisters.writtenBy {s t : State} (h : s.sameRegisters t) (i : Instr) : RegistersWrittenBy i s t := by
  obtain ⟨hdest, hmask, hslots⟩ := h
  exact ⟨.inl hdest, .inl hmask, .inl hslots⟩

theorem State.sameRegisters_raise (s : State) (c : Status) : s.sameRegisters (s.raise c) := ⟨rfl, rfl, rfl⟩

theorem State.sameRegisters_foldl_setRegion {α : Type} (f : α → Region) (g : α → State → Memory) (l : List α)
    (s : State) : s.sameRegisters (l.foldl (fun t a => t.setRegion (f a) (g a t)) s) := by
  obtain ⟨-, -, -, hdest, hmask, hslots, -⟩ := State.rest_foldl f g l s
  exact ⟨hdest, hmask, hslots⟩

theorem convertState_sameRegisters (bus side row ram : Byte) (s : State) :
    s.sameRegisters (convertState bus side row ram s) := by
  rcases convertState_cases bus side row ram s with ⟨c, ht⟩ | ⟨d, -, -, -, -, -, ht⟩ <;> rw [ht]
  · exact s.sameRegisters_raise c
  · exact ⟨rfl, rfl, rfl⟩

theorem mergeState_sameRegisters (side : Byte) (s : State) : s.sameRegisters (mergeState side s) := by
  rcases mergeState_cases side s with ⟨c, ht⟩ | ⟨ds, -, ht⟩ <;> rw [ht]
  · exact s.sameRegisters_raise c
  · exact State.sameRegisters_foldl_setRegion Region.disp (fun d _ => mergedDisp s d) ds s

theorem loadState_sameRegisters (len : Word) (data : List Byte) (s : State) :
    s.sameRegisters (loadState len data s) := by
  rcases loadState_cases len data s with ⟨c, ht⟩ | ⟨rs, -, -, ht⟩ <;> rw [ht]
  · exact s.sameRegisters_raise c
  · exact State.sameRegisters_foldl_setRegion (fun r => r) (fun r t => (t.region r).load data) rs s

theorem createState_dest_maskEn (x : SbFields) (s : State) :
    (createState x s).dest = s.dest ∧ (createState x s).maskEn = s.maskEn := by
  rcases createState_cases x s with ⟨c, ht⟩ | ⟨i, -, -, -, ht⟩ <;> simp [ht]

theorem updateState_dest_maskEn (id : Byte) (x : SbFields) (s : State) :
    (updateState id x s).dest = s.dest ∧ (updateState id x s).maskEn = s.maskEn := by
  rcases updateState_cases id x s with ⟨c, ht⟩ | ⟨new, -, -, -, -, ht⟩
  · simp [ht]
  · rw [ht, State.replaceSlot]
    split_ifs <;> simp

theorem deleteState_dest_maskEn (id : Byte) (s : State) :
    (deleteState id s).dest = s.dest ∧ (deleteState id s).maskEn = s.maskEn := by
  rcases deleteState_cases id s with ⟨c, ht⟩ | ⟨-, -, ht⟩ <;> simp [ht]

theorem setDestState_writtenBy (sel : Byte) (s : State) :
    RegistersWrittenBy (.setDest sel) s (setDestState sel s) := by
  rcases setDestState_cases sel s with ⟨c, ht⟩ | ⟨-, ht⟩ <;> rw [ht]
  · exact (s.sameRegisters_raise c).writtenBy _
  · exact ⟨.inr rfl, .inl rfl, .inl rfl⟩

/-- A legal MASK_EN operand is the flag it writes (44_host_control R82). -/
theorem setWidth_flag_of_le_one {en : Byte} (h : en.toNat ≤ 1) : (en.setWidth 1).setWidth 8 = en := by
  refine BitVec.eq_of_toNat_eq ?_
  simp only [BitVec.toNat_setWidth]
  omega

theorem setMaskEnState_writtenBy (en : Byte) (s : State) :
    RegistersWrittenBy (.setMaskEn en) s (setMaskEnState en s) := by
  rcases setMaskEnState_cases en s with ⟨c, ht⟩ | ⟨hen, ht⟩ <;> rw [ht]
  · exact (s.sameRegisters_raise c).writtenBy _
  · exact ⟨.inl rfl, .inr (congrArg Instr.setMaskEn (setWidth_flag_of_le_one hen).symm), .inl rfl⟩

theorem execState_registersWrittenBy (i : Instr) (s : State) : RegistersWrittenBy i s (execState i s) := by
  cases i with
  | convert bus side row ram => exact (convertState_sameRegisters bus side row ram s).writtenBy _
  | merge side => exact (mergeState_sameRegisters side s).writtenBy _
  | load len data => exact (loadState_sameRegisters len data s).writtenBy _
  | sbCreate x =>
    obtain ⟨hdest, hmask⟩ := createState_dest_maskEn x s
    exact ⟨.inl hdest, .inl hmask, .inr rfl⟩
  | sbUpdate id x =>
    obtain ⟨hdest, hmask⟩ := updateState_dest_maskEn id x s
    exact ⟨.inl hdest, .inl hmask, .inr rfl⟩
  | sbDelete id =>
    obtain ⟨hdest, hmask⟩ := deleteState_dest_maskEn id s
    exact ⟨.inl hdest, .inl hmask, .inr rfl⟩
  | advance => exact ⟨.inl rfl, .inl rfl, .inr rfl⟩
  | setDest sel => exact setDestState_writtenBy sel s
  | setMaskEn en => exact setMaskEnState_writtenBy en s
  | _ => exact ⟨.inl rfl, .inl rfl, .inl rfl⟩

/-- Settles O18: of each register, a command either leaves it or is the one that writes it. -/
theorem registersWrittenOnlyByTheirCommands : Obligations.RegistersWrittenOnlyByTheirCommands := by
  intro i s t h
  obtain rfl := exec_next h
  obtain ⟨hdest, hmask, hslots⟩ := execState_registersWrittenBy i s
  exact ⟨hdest.resolve_left, hmask.resolve_left, hslots.resolve_left⟩

/-! ## The BUSY inputs -/

/-- No command writes a BUSY level, the events to come or the HostRead port. -/
theorem execState_outside (i : Instr) (s : State) :
    (execState i s).busy = s.busy ∧ (execState i s).inputs = s.inputs ∧ (execState i s).port = s.port := by
  have h : execState i s = (execState i s).withOutside s.busy s.inputs s.port :=
    execState_withOutside i s s.busy s.inputs s.port fun _ => rfl
  rw [h]
  exact ⟨rfl, rfl, rfl⟩

/-- Settles O19: other BUSY levels are passed on unread by every command but CONVERT. -/
theorem busyInputsReadOnlyByConvert : Obligations.BusyInputsReadOnlyByConvert := by
  intro i s t levels hi h
  obtain rfl := exec_next h
  obtain ⟨-, hinputs, hport⟩ := execState_outside i s
  rw [exec_eq]
  calc Host.Outcome.next (execState i (s.withOutside levels s.inputs s.port))
      = .next ((execState i s).withOutside levels s.inputs s.port) := by
        rw [execState_withOutside i s levels _ _ fun hconvert => absurd hconvert hi]
    _ = .next { execState i s with busy := levels } := by
        rw [State.withOutside, ← hinputs, ← hport]

theorem State.busyAt_setBusy_same {s : State} {b : Nat} (v : Bool) (h : b < s.busy.length) :
    (s.setBusy b v).busyAt b = v := by
  simp [State.busyAt, List.getD_eq_getElem?_getD, h]

theorem State.busyAt_setBusy_other (s : State) {b b' : Nat} (v : Bool) (h : b' ≠ b) :
    (s.setBusy b v).busyAt b' = s.busyAt b' := by
  simp [State.busyAt, List.getD_eq_getElem?_getD, h.symm]

/-- Settles O10: the event is the one write of BUSY[b], or is refused. -/
theorem busyEventDrivesOneBus : Obligations.BusyEventDrivesOneBus := by
  intro s b v es h hin
  rw [step_of_inputs h.cfgOk hin]
  refine ⟨fun hb => ⟨(s.setInputs es).setBusy b v, if_pos hb, ?_, ?_, rfl⟩, fun hb => if_neg (not_lt.mpr hb)⟩
  · exact State.busyAt_setBusy_same v (hb.trans_eq h.busyCount.symm)
  · exact fun b' hb' => State.busyAt_setBusy_other _ v hb'

end Sys2Proof.Machine
end

section
/-! SUPPORT. Every step keeps the invariant (10_state R13, R16, R17; 42_scroll_descriptors R67). -/

namespace Sys2Proof.Machine

/-! ## The descriptor invariants of a slot a command writes -/

/-- The bounds of one axis of an occupied slot: offset and tick counter (10_state R16). -/
def AxisOk (dim off speed tick : Half) : Prop :=
  off.toNat < dim.toNat ∧ (speed = 0 → tick = 0) ∧ (speed ≠ 0 → tick.toNat < speed.toNat)

theorem Descriptor.live_iff_axes {c : Config} {e : Descriptor} :
    e.live c ↔ 1 ≤ e.intW.toNat ∧ 1 ≤ e.intH.toNat ∧ e.bufSize.toNat = bufSizeOf e.intW.toNat e.intH.toNat ∧
      bufSizeOf e.intW.toNat e.intH.toNat ≤ c.slotBytes ∧ AxisOk e.intW e.offX e.speedX e.tickX ∧
      AxisOk e.intH e.offY e.speedY e.tickY := by
  unfold AxisOk
  tauto

theorem Descriptor.ok_of_live {c : Config} {e : Descriptor} (ho : e.occupied = true) (h : e.live c) : e.ok c :=
  ⟨fun _ => h, fun hf => by simp [ho] at hf⟩

theorem Descriptor.free_ok (c : Config) : Descriptor.free.ok c := ⟨fun h => absurd h (by decide), fun _ => rfl⟩

theorem reduceOffset_lt (off : Half) {dim : Half} (h : 1 ≤ dim.toNat) :
    (reduceOffset off dim).toNat < dim.toNat := by
  rw [reduceOffset_toNat]
  exact Nat.mod_lt _ h

/-- A speed that is written restarts its tick counter (42_scroll_descriptors R63). -/
theorem axisOk_restarted (off : Half) {dim : Half} (speed : Half) (h : 1 ≤ dim.toNat) :
    AxisOk dim (reduceOffset off dim) speed 0 :=
  ⟨reduceOffset_lt off h, fun _ => rfl, half_pos⟩

theorem axisOk_merged {dim off speed tick dim' : Half} (speedOp offOp : Half) (h : AxisOk dim off speed tick)
    (hdim : 1 ≤ dim'.toNat) :
    AxisOk dim' (reduceOffset offOp dim') (mergeHalf speedOp speed) (if speedOp = keepHalf then tick else 0) := by
  unfold mergeHalf
  split_ifs
  · exact ⟨reduceOffset_lt offOp hdim, h.2⟩
  · exact axisOk_restarted offOp speedOp hdim

/-- One `AdvanceAxis` keeps the bounds of its axis (43_compositor R68). -/
theorem axisOk_advance {dim off speed tick : Half} (step : Half) (h : AxisOk dim off speed tick) :
    AxisOk dim (advanceOffset dim.toNat off speed step tick) speed (advanceTick speed tick) := by
  obtain ⟨hoff, hfrozen, hrunning⟩ := h
  unfold AxisOk advanceOffset advanceTick
  by_cases hspeed : speed = 0
  · simp [hspeed, hoff, hfrozen]
  · have hwrapped := emod_lt (off.toNat + step.toInt) (m := dim.toNat) (by omega)
    have hdim := dim.isLt
    have hmax := speed.isLt
    split_ifs with hmove
    · refine ⟨?_, fun h0 => absurd h0 hspeed, half_pos⟩
      rw [BitVec.toNat_ofNat, Nat.mod_eq_of_lt (by omega)]
      exact hwrapped
    · refine ⟨hoff, fun h0 => absurd h0 hspeed, fun _ => ?_⟩
      rw [BitVec.toNat_ofNat]
      omega

theorem createdSlot_live {c : Config} {x : SbFields} (hlegal : createLegal x = true)
    (hsize : bufSizeOf x.intW.toNat x.intH.toNat ≤ c.slotBytes) : (createdSlot x).live c := by
  obtain ⟨-, hw, hh⟩ := createLegal_iff.mp hlegal
  exact Descriptor.live_iff_axes.mpr ⟨half_pos hw, half_pos hh, bufSizeOf_toNat _ _, hsize,
    axisOk_restarted _ _ (half_pos hw), axisOk_restarted _ _ (half_pos hh)⟩

theorem mergeHalf_pos {operand old : Half} (h : operand ≠ 0) (hold : 1 ≤ old.toNat) :
    1 ≤ (mergeHalf operand old).toNat := by
  unfold mergeHalf
  split_ifs
  · exact hold
  · exact half_pos h

theorem resized_eq_false_iff {old new : Descriptor} :
    resized old new = false ↔ new.intW = old.intW ∧ new.intH = old.intH := by
  simp [resized]

theorem updatedSlot_live {c : Config} {x : SbFields} {old : Descriptor} (hold : old.live c)
    (hlegal : updateLegal x = true)
    (hsize : resized old (updatedSlot x old) = true →
      bufSizeOf (updatedSlot x old).intW.toNat (updatedSlot x old).intH.toNat ≤ c.slotBytes) :
    (updatedSlot x old).live c := by
  obtain ⟨-, hw, hh⟩ := updateLegal_iff.mp hlegal
  obtain ⟨hw0, hh0, -, hsize0, hx0, hy0⟩ := Descriptor.live_iff_axes.mp hold
  have hw' := mergeHalf_pos hw hw0
  have hh' := mergeHalf_pos hh hh0
  refine Descriptor.live_iff_axes.mpr ⟨hw', hh', bufSizeOf_toNat _ _, ?_, axisOk_merged _ _ hx0 hw',
    axisOk_merged _ _ hy0 hh'⟩
  cases hres : resized old (updatedSlot x old) with
  | true => exact hsize hres
  | false =>
    obtain ⟨hsameW, hsameH⟩ := resized_eq_false_iff.mp hres
    rw [hsameW, hsameH]
    exact hsize0

theorem updatedSlot_bufSize {c : Config} {x : SbFields} {old : Descriptor} (hold : old.live c)
    (hres : resized old (updatedSlot x old) = false) : (updatedSlot x old).bufSize = old.bufSize := by
  obtain ⟨hsameW, hsameH⟩ := resized_eq_false_iff.mp hres
  obtain ⟨-, -, hbuf, -⟩ := hold
  refine BitVec.eq_of_toNat_eq ?_
  calc (updatedSlot x old).bufSize.toNat
      = bufSizeOf (updatedSlot x old).intW.toNat (updatedSlot x old).intH.toNat := bufSizeOf_toNat _ _
    _ = old.bufSize.toNat := by rw [hsameW, hsameH, hbuf]

@[simp] theorem Descriptor.advance_occupied (e : Descriptor) : e.advance.occupied = e.occupied := by
  unfold Descriptor.advance
  split_ifs <;> rfl

@[simp] theorem Descriptor.advance_bufSize (e : Descriptor) : e.advance.bufSize = e.bufSize := by
  unfold Descriptor.advance
  split_ifs <;> rfl

theorem Descriptor.advance_ok {c : Config} {e : Descriptor} (h : e.ok c) : e.advance.ok c := by
  unfold Descriptor.advance
  split_ifs with ho
  · obtain ⟨hw, hh, hbuf, hsize, hx, hy⟩ := Descriptor.live_iff_axes.mp (h.1 ho)
    exact Descriptor.ok_of_live ho (Descriptor.live_iff_axes.mpr
      ⟨hw, hh, hbuf, hsize, axisOk_advance _ hx, axisOk_advance _ hy⟩)
  · exact h

/-! ## What the remaining operations keep of the invariant -/

theorem State.lowestFree_free {s : State} {i : Nat} (h : s.lowestFree = some i) :
    i < s.slots.length ∧ (s.slot i).occupied = false := by
  unfold State.lowestFree at h
  obtain ⟨hi, hfree, -⟩ := List.findIdx?_eq_some_iff_getElem.mp h
  exact ⟨hi, by simpa [State.slot, List.getD_eq_getElem?_getD, hi] using hfree⟩

theorem State.setSlot_setRegion (s : State) (i : Nat) (e : Descriptor) (r : Region) (m : Memory) :
    (s.setSlot i e).setRegion r m = (s.setRegion r m).setSlot i e := by
  cases r <;> rfl

theorem State.Sound.region_arena_cleared {s : State} (h : s.Sound) {i : Nat} (hi : i < s.cfg.maxSb) :
    (s.setRegion (.arena i) []).region (.arena i) = [] :=
  State.region_setRegion_same _ _ (hi.trans_eq h.arenaCount.symm)

/-- A slot written together with its cleared arena, whatever the arena held. -/
theorem State.Sound.setSlot_clearArena {s : State} (h : s.Sound) {i : Nat} {e : Descriptor} (hi : i < s.cfg.maxSb)
    (he : e.ok s.cfg) (hd : s.dest.toNat = 128 + i → e.occupied = true) :
    ((s.setSlot i e).setRegion (.arena i) []).Sound := by
  rw [State.setSlot_setRegion]
  have hcleared : (s.setRegion (.arena i) []).Sound := h.setRegion (Memory.fits_nil _)
  refine hcleared.setSlot (by simpa using hi) (by simpa using he) (by simpa using hd) ?_
  rw [h.region_arena_cleared hi]
  exact Memory.fits_nil _

theorem State.Sound.setMaskEn {s : State} (h : s.Sound) (b : BitVec 1) : (s.setMaskEn b).Sound :=
  h.withRegions rfl rfl rfl rfl rfl rfl fun r => by simpa using h.regionsOk r

theorem State.Sound.setDest {s : State} (h : s.Sound) {sel : Byte} (hsel : (s.setDest sel).destOk = true) :
    (s.setDest sel).Sound :=
  ⟨h.cfgOk, h.slotCount, h.arenaCount, h.lcdCount, h.busyCount, h.slotsOk, hsel, fun r => by
    rw [State.setDest_region, State.regionSize_congr (s := s) (t := s.setDest sel) rfl rfl]
    exact h.regionsOk r⟩

theorem State.Sound.setDyn {s : State} (h : s.Sound) {d : Sided Memory}
    (hd : ∀ side, (d.get side).fits s.cfg.bitmapBytes) : (s.setDyn d).Sound := by
  refine h.withRegions rfl rfl rfl rfl rfl rfl fun r => ?_
  cases r with
  | dyn side => exact hd side
  | _ => exact h.regionsOk _

/-- ADVANCE keeps every slot legal, occupied or not, and of its size. -/
theorem State.Sound.advance {s : State} (h : s.Sound) : (s.setSlots (s.slots.map Descriptor.advance)).Sound := by
  refine ⟨h.cfgOk, by simpa using h.slotCount, h.arenaCount, h.lcdCount, h.busyCount, fun i hi => ?_, ?_, fun r => ?_⟩
  · rw [State.slot_advance]
    exact Descriptor.advance_ok (h.slotsOk i hi)
  · have hlive (j : Nat) : (s.setSlots (s.slots.map Descriptor.advance)).liveSlot j = s.liveSlot j := by
      rw [State.liveSlot, State.slot_advance, Descriptor.advance_occupied]
      rfl
    simpa only [State.destOk, hlive, State.setSlots_dest] using h.destLegal
  · rw [State.setSlots_region]
    cases r with
    | arena i => simpa only [State.regionSize, State.setSlots_cfg, State.slot_advance, Descriptor.advance_occupied,
        Descriptor.advance_bufSize] using h.regionsOk (.arena i)
    | _ => exact h.regionsOk _

theorem State.Sound.replaceSlot {s : State} (h : s.Sound) {i : Nat} {e : Descriptor} (hi : i < s.cfg.maxSb)
    (he : e.ok s.cfg) (hocc : e.occupied = true) (hlive : (s.slot i).occupied = true)
    (hbuf : resized (s.slot i) e = false → e.bufSize = (s.slot i).bufSize) : (s.replaceSlot i e).Sound := by
  unfold State.replaceSlot
  split_ifs with hres
  · exact h.setSlot_clearArena hi he fun _ => hocc
  · refine h.setSlot hi he (fun _ => hocc) ?_
    have harena := h.regionsOk (.arena i)
    rw [State.regionSize, if_pos ⟨hi, hlive⟩] at harena
    rw [if_pos hocc, hbuf (by simpa using hres)]
    exact harena

/-! ## The regions a LOAD and a CONVERT write -/

theorem scrollId?_eq_some {sel : Byte} {id : Nat} (h : scrollId? sel = some id) :
    id < 127 ∧ sel.toNat = 128 + id := by
  unfold scrollId? at h
  split_ifs at h with hsel
  have hne : sel.toNat ≠ 255 := fun h255 => hsel.2 (BitVec.eq_of_toNat_eq h255)
  have hlt := sel.isLt
  injection h with h
  omega

/-- The selectors of 30_encoding R43 name bitmap buffers. -/
theorem layerRegions?_size {sel : Byte} {rs : List Region} (h : layerRegions? sel = some rs) (s : State) :
    ∀ r ∈ rs, s.regionSize r = s.cfg.bitmapBytes := by
  unfold layerRegions? at h
  split_ifs at h <;> (injection h with h; subst h; simp [State.regionSize])

/-- A LOAD's regions all have the size its length is compared with (44_host_control R84). -/
theorem State.Sound.loadTarget_size {s : State} (h : s.Sound) {n : Nat} {rs : List Region}
    (ht : loadTarget s = some (n, rs)) : ∀ r ∈ rs, s.regionSize r = n := by
  unfold loadTarget at ht
  split_ifs at ht
  split at ht
  · next id hid =>
    obtain ⟨hid127, hdest⟩ := scrollId?_eq_some hid
    obtain ⟨hocc, hmax⟩ := h.dest_live hid127 hdest
    simp only [Option.some.injEq, Prod.mk.injEq] at ht
    obtain ⟨rfl, rfl⟩ := ht
    simp [State.regionSize, hmax, hocc]
  · simp only [Option.some.injEq, Prod.mk.injEq] at ht
    obtain ⟨rfl, rfl⟩ := ht
    cases hrs : layerRegions? s.dest with
    | none => simp
    | some rs => simpa using layerRegions?_size hrs s

theorem State.Sound.load {s : State} (h : s.Sound) {data : List Byte} {rs : List Region}
    (hsize : ∀ r ∈ rs, s.regionSize r = data.length) :
    (rs.foldl (fun t r => t.setRegion r ((t.region r).load data)) s).Sound := by
  refine h.foldl (fun r => r) (fun r t => (t.region r).load data) rs fun r hr u hu hcfg hslots => ?_
  refine Memory.fits_load (hu.regionsOk r) ?_
  rw [State.regionSize_congr hcfg hslots, hsize r hr]

theorem State.Sound.merge {s : State} (h : s.Sound) (ds : List Side) :
    (ds.foldl (fun t d => t.setRegion (.disp d) (mergedDisp s d)) s).Sound :=
  h.foldl Region.disp (fun d _ => mergedDisp s d) ds fun d _ u _ hcfg _ => by
    rw [State.regionSize, hcfg]
    exact Memory.fits_ofFn _ _

theorem State.Sound.convert {s : State} (h : s.Sound) {b : Nat} (hb : b < s.cfg.numBuses) (src : Memory) (base : Nat)
    (ram : Byte) : (s.setRegion (.lcd b) (Memory.ofBytes (lcdFrame s.cfg src base ram))).Sound := by
  refine h.setRegion (Memory.fits_ofBytes ?_)
  rw [lcdFrame_length, State.regionSize, if_pos hb]

/-! ## Every command keeps the invariant -/

theorem convertState_inv {s : State} (h : s.Sound) (bus side row ram : Byte) :
    (convertState bus side row ram s).Inv := by
  rcases convertState_cases bus side row ram s with ⟨c, ht⟩ | ⟨d, -, hbus, -, -, -, ht⟩ <;> rw [ht]
  · exact h.raise c
  · exact (h.convert hbus _ _ _).finish _

theorem createState_inv {s : State} (h : s.Sound) (x : SbFields) : (createState x s).Inv := by
  rcases createState_cases x s with ⟨c, ht⟩ | ⟨i, hlegal, hfree, hsize, ht⟩ <;> rw [ht]
  · exact h.raise c
  · have hi := h.slotCount ▸ (State.lowestFree_free hfree).1
    exact (h.setSlot_clearArena hi (Descriptor.ok_of_live rfl (createdSlot_live hlegal hsize)) fun _ => rfl).finish _

theorem updateState_inv {s : State} (h : s.Sound) (id : Byte) (x : SbFields) :
    (updateState id x s).Inv := by
  rcases updateState_cases id x s with ⟨c, ht⟩ | ⟨new, rfl, hlegal, hlive, hsize, ht⟩ <;> rw [ht]
  · exact h.raise c
  · obtain ⟨hi, hocc⟩ := State.liveSlot_iff.mp hlive
    have hold := (h.slotsOk _ hi).1 hocc
    have hnew := Descriptor.ok_of_live (e := updatedSlot x _) hocc (updatedSlot_live hold hlegal hsize)
    have hwritten := h.replaceSlot hi hnew hocc hocc (updatedSlot_bufSize hold)
    split_ifs
    · exact hwritten.zeroDyn.finish _
    · exact hwritten.finish _

theorem deleteState_inv {s : State} (h : s.Sound) (id : Byte) : (deleteState id s).Inv := by
  rcases deleteState_cases id s with ⟨c, ht⟩ | ⟨hlive, hdest, ht⟩ <;> rw [ht]
  · exact h.raise c
  · have hi := (State.liveSlot_iff.mp hlive).1
    exact (h.setSlot_clearArena hi (Descriptor.free_ok _) fun hd => absurd hd hdest).zeroDyn.finish _

theorem renderState_inv {s : State} (h : s.Sound) : (renderState s).Inv :=
  (h.setDyn fun d => renderedUpTo_fits (fun side => h.regionsOk (.dyn side)) _ d).finish _

theorem mergeState_inv {s : State} (h : s.Sound) (side : Byte) : (mergeState side s).Inv := by
  rcases mergeState_cases side s with ⟨c, ht⟩ | ⟨ds, -, ht⟩ <;> rw [ht]
  · exact h.raise c
  · exact (h.merge ds).finish _

theorem setDestState_inv {s : State} (h : s.Sound) (sel : Byte) : (setDestState sel s).Inv := by
  rcases setDestState_cases sel s with ⟨c, ht⟩ | ⟨hlegal, ht⟩ <;> rw [ht]
  · exact h.raise c
  · exact (h.setDest hlegal).finish _

theorem setMaskEnState_inv {s : State} (h : s.Sound) (en : Byte) : (setMaskEnState en s).Inv := by
  rcases setMaskEnState_cases en s with ⟨c, ht⟩ | ⟨-, ht⟩ <;> rw [ht]
  · exact h.raise c
  · exact (h.setMaskEn _).finish _

theorem loadState_inv {s : State} (h : s.Sound) (len : Word) (data : List Byte) :
    (loadState len data s).Inv := by
  rcases loadState_cases len data s with ⟨c, ht⟩ | ⟨rs, htarget, -, ht⟩ <;> rw [ht]
  · exact h.raise c
  · exact (h.load (h.loadTarget_size htarget)).finish _

theorem execState_inv {s : State} (h : s.Sound) (i : Instr) : (execState i s).Inv := by
  cases i with
  | nop => exact h.finish _
  | convert bus side row ram => exact convertState_inv h bus side row ram
  | sbCreate x => exact createState_inv h x
  | sbUpdate id x => exact updateState_inv h id x
  | sbDelete id => exact deleteState_inv h id
  | advance => exact h.advance.finish _
  | render => exact renderState_inv h
  | merge side => exact mergeState_inv h side
  | setDest sel => exact setDestState_inv h sel
  | getDest => exact h.finish _
  | setMaskEn en => exact setMaskEnState_inv h en
  | getMaskEn => exact h.finish _
  | load len data => exact loadState_inv h len data

/-! ## Every event keeps the invariant -/

/-- The invariant says of the inputs only how many BUSY levels there are. -/
theorem State.Inv.withOutside {s : State} (h : s.Inv) {levels : List Bool} (hl : levels.length = s.cfg.numBuses)
    (es : List Event) (p : Option Byte) : (s.withOutside levels es p).Inv :=
  ⟨h.cfgOk, h.slotCount, h.arenaCount, h.lcdCount, hl, h.statusOk, h.resultOk, h.slotsOk, h.destLegal, fun r => by
    rw [State.withOutside_region, State.regionSize_congr (s := s) (t := s.withOutside levels es p) rfl rfl]
    exact h.regionsOk r⟩

theorem State.resetWith_inv {c : Config} (hc : c.admitted = true) (es : List Event) : (State.resetWith c es).Inv := by
  refine ⟨hc, by simp, by simp, by simp, by simp, by simp, fun _ => rfl, fun e he => ?_, rfl, fun r => ?_⟩
  · rw [List.eq_of_mem_replicate he]
    exact Descriptor.free_ok c
  · have hempty : (State.resetWith c es).region r = [] := by
      cases r with
      | arena i => simp [State.region, List.getD_eq_getElem?_getD]
      | lcd b => simp [State.region]
      | static d => cases d <;> rfl
      | mask d => cases d <;> rfl
      | dyn d => cases d <;> rfl
      | disp d => cases d <;> rfl
    rw [hempty]
    exact Memory.fits_nil _

theorem runFrame_inv {f : List Byte} {s t : State} (h : s.Inv) (ht : runFrame f s = .next t) : t.Inv := by
  rcases runFrame_cases ht with ⟨i, -, rfl⟩ | ⟨c, rfl⟩
  · exact execState_inv h.sound i
  · exact h.sound.raise c

theorem runEvent_inv {e : Event} {s t : State} (h : s.Inv) (ht : runEvent e s = .next t) : t.Inv := by
  rcases runEvent_cases ht with ⟨f, -, ht⟩ | ⟨b, v, -, -, rfl⟩ | ⟨code, i, v, -, -, rfl⟩ | ⟨-, rfl⟩
  · exact runFrame_inv h ht
  · exact h.withOutside (by simpa using h.busyCount) s.inputs s.port
  · exact h.withOutside h.busyCount s.inputs (some v)
  · exact State.resetWith_inv h.cfgOk _

/-- Settles O23: the next event is taken from the stream, and whatever it does keeps the invariant. -/
theorem everyStepKeepsTheInvariant : Obligations.EveryStepKeepsTheInvariant := by
  intro s t h hstep
  rcases step_cases hstep with ⟨-, ⟨-, rfl⟩ | ⟨e, es, -, ht⟩⟩
  · exact h
  · exact runEvent_inv (h.withOutside h.busyCount es s.port) ht

end Sys2Proof.Machine
end

section
/-! SUPPORT. Which commands write which region (20_memory R24, R32), and what a HostRead gives. -/

namespace Sys2Proof.Machine

/-! ## The regions a command leaves -/

theorem Region.ne_of_writtenBy {i : Instr} {r r' : Region} (hr : r.writtenBy i = false) (hr' : r'.writtenBy i = true) :
    r ≠ r' := by
  rintro rfl
  exact Bool.false_ne_true (hr.symm.trans hr')

theorem State.replaceSlot_region_other (s : State) {i : Nat} (e : Descriptor) {r : Region} (h : r ≠ .arena i) :
    (s.replaceSlot i e).region r = s.region r := by
  unfold State.replaceSlot
  split_ifs
  · rw [State.region_setRegion_other _ _ h, State.setSlot_region]
  · exact s.setSlot_region i e r

theorem layerRegions?_writtenBy_load {sel : Byte} {rs : List Region} (h : layerRegions? sel = some rs) (len : Word)
    (data : List Byte) : ∀ r ∈ rs, r.writtenBy (.load len data) = true := by
  unfold layerRegions? at h
  split_ifs at h <;> (injection h with h; subst h; simp [Region.writtenBy])

theorem loadTarget_writtenBy_load {s : State} {n : Nat} {rs : List Region} (h : loadTarget s = some (n, rs))
    (len : Word) (data : List Byte) : ∀ r ∈ rs, r.writtenBy (.load len data) = true := by
  unfold loadTarget at h
  split_ifs at h
  split at h <;> simp only [Option.some.injEq, Prod.mk.injEq] at h <;> obtain ⟨-, rfl⟩ := h
  · simp [Region.writtenBy]
  · cases hrs : layerRegions? s.dest with
    | none => simp
    | some rs => simpa using layerRegions?_writtenBy_load hrs len data

section Unwritten

variable {s : State} {r : Region}

theorem convertState_region {bus side row ram : Byte} (h : r.writtenBy (.convert bus side row ram) = false) :
    (convertState bus side row ram s).region r = s.region r := by
  rcases convertState_cases bus side row ram s with ⟨c, ht⟩ | ⟨d, -, -, -, -, -, ht⟩ <;> rw [ht]
  · exact s.raise_region c r
  · rw [State.finish_region, State.region_setRegion_other _ _ (Region.ne_of_writtenBy h (by simp [Region.writtenBy]))]

theorem createState_region {x : SbFields} (h : r.writtenBy (.sbCreate x) = false) :
    (createState x s).region r = s.region r := by
  rcases createState_cases x s with ⟨c, ht⟩ | ⟨i, -, -, -, ht⟩ <;> rw [ht]
  · exact s.raise_region c r
  · rw [State.finish_region, State.region_setRegion_other _ _ (Region.ne_of_writtenBy h rfl), State.setSlot_region]

theorem updateState_region {id : Byte} {x : SbFields} (h : r.writtenBy (.sbUpdate id x) = false) :
    (updateState id x s).region r = s.region r := by
  have harena : r ≠ .arena id.toNat := Region.ne_of_writtenBy h (by simp [Region.writtenBy])
  rcases updateState_cases id x s with ⟨c, ht⟩ | ⟨new, -, -, -, -, ht⟩ <;> rw [ht]
  · exact s.raise_region c r
  · rw [State.finish_region]
    split_ifs
    · rw [State.zeroDyn_region_other _ fun _ => Region.ne_of_writtenBy h rfl, State.replaceSlot_region_other _ _ harena]
    · exact State.replaceSlot_region_other _ _ harena

theorem deleteState_region {id : Byte} (h : r.writtenBy (.sbDelete id) = false) :
    (deleteState id s).region r = s.region r := by
  rcases deleteState_cases id s with ⟨c, ht⟩ | ⟨-, -, ht⟩ <;> rw [ht]
  · exact s.raise_region c r
  · rw [State.finish_region, State.zeroDyn_region_other _ fun _ => Region.ne_of_writtenBy h rfl,
      State.region_setRegion_other _ _ (Region.ne_of_writtenBy h (by simp [Region.writtenBy])), State.setSlot_region]

theorem renderState_region (h : r.writtenBy .render = false) : (renderState s).region r = s.region r := by
  rw [renderState, State.finish_region, State.setDyn_region_other _ _ fun _ => Region.ne_of_writtenBy h rfl]

theorem mergeState_region {side : Byte} (h : r.writtenBy (.merge side) = false) :
    (mergeState side s).region r = s.region r := by
  rcases mergeState_cases side s with ⟨c, ht⟩ | ⟨ds, -, ht⟩ <;> rw [ht]
  · exact s.raise_region c r
  · rw [State.finish_region]
    exact State.region_foldl_other Region.disp (fun d _ => mergedDisp s d) ds
      (fun _ _ => Region.ne_of_writtenBy h rfl) s

theorem setDestState_region (sel : Byte) : (setDestState sel s).region r = s.region r := by
  rcases setDestState_cases sel s with ⟨c, ht⟩ | ⟨-, ht⟩ <;> simp [ht]

theorem setMaskEnState_region (en : Byte) : (setMaskEnState en s).region r = s.region r := by
  rcases setMaskEnState_cases en s with ⟨c, ht⟩ | ⟨-, ht⟩ <;> simp [ht]

theorem loadState_region {len : Word} {data : List Byte} (h : r.writtenBy (.load len data) = false) :
    (loadState len data s).region r = s.region r := by
  rcases loadState_cases len data s with ⟨c, ht⟩ | ⟨rs, htarget, -, ht⟩ <;> rw [ht]
  · exact s.raise_region c r
  · rw [State.finish_region]
    exact State.region_foldl_other (fun r => r) (fun r t => (t.region r).load data) rs
      (fun r' hr' => Region.ne_of_writtenBy h (loadTarget_writtenBy_load htarget len data r' hr')) s

/-- A region whose row of 20_memory R24 does not name the command is left as it was. -/
theorem execState_region_of_unwritten {i : Instr} (h : r.writtenBy i = false) :
    (execState i s).region r = s.region r := by
  cases i with
  | nop => exact s.finish_region _ r
  | convert bus side row ram => exact convertState_region h
  | sbCreate x => exact createState_region h
  | sbUpdate id x => exact updateState_region h
  | sbDelete id => exact deleteState_region h
  | advance => simp [execState, advanceState]
  | render => exact renderState_region h
  | merge side => exact mergeState_region h
  | setDest sel => exact setDestState_region sel
  | getDest => exact s.finish_region _ r
  | setMaskEn en => exact setMaskEnState_region en
  | getMaskEn => exact s.finish_region _ r
  | load len data => exact loadState_region h

end Unwritten

/-- Settles O17: a command whose name is missing from the region's row leaves every byte of it. -/
theorem regionBytesWrittenOnlyByTheirCommands : Obligations.RegionBytesWrittenOnlyByTheirCommands := by
  intro i s t h r j hne
  obtain rfl := exec_next h
  by_contra hr
  have hsame := execState_region_of_unwritten (s := s) (Bool.eq_false_of_not_eq_true hr)
  exact hne (by rw [State.readByte, hsame, State.readByte])

/-! ## An LCD buffer in transfer -/

/-- CONVERT is the one command that could write LCDBUF[b], and it refuses a busy bus (20_memory R32). -/
theorem execState_region_lcd_of_busy {s : State} {b : Nat} (hbusy : s.busyAt b = true) (i : Instr) :
    (execState i s).region (.lcd b) = s.region (.lcd b) := by
  by_cases hw : (Region.lcd b).writtenBy i = true
  · cases i with
    | convert bus side row ram =>
      obtain rfl : bus.toNat = b := by simpa [Region.writtenBy] using hw
      rw [execState]
      rcases convertState_cases bus side row ram s with ⟨c, ht⟩ | ⟨d, -, -, -, -, hidle, -⟩
      · rw [ht, State.raise_region]
      · exact absurd (hidle.symm.trans hbusy) Bool.false_ne_true
    | _ => cases hw
  · exact execState_region_of_unwritten (Bool.eq_false_of_not_eq_true hw)

theorem runFrame_region_lcd_of_busy {f : List Byte} {s t : State} {b : Nat} (hbusy : s.busyAt b = true)
    (h : runFrame f s = .next t) : t.region (.lcd b) = s.region (.lcd b) := by
  rcases runFrame_cases h with ⟨i, -, rfl⟩ | ⟨c, rfl⟩
  · exact execState_region_lcd_of_busy hbusy i
  · exact s.raise_region c _

theorem runEvent_region_lcd_of_busy {e : Event} {s t : State} {b : Nat} (hbusy : s.busyAt b = true)
    (he : e ≠ .reset) (h : runEvent e s = .next t) : t.region (.lcd b) = s.region (.lcd b) := by
  rcases runEvent_cases h with ⟨f, -, hf⟩ | ⟨b', v, -, -, rfl⟩ | ⟨code, i, v, -, -, rfl⟩ | ⟨hreset, -⟩
  · exact runFrame_region_lcd_of_busy hbusy hf
  · exact s.setBusy_region b' v _
  · exact s.setPort_region v _
  · exact absurd hreset he

/-- While BUSY[b] is 1 a step that is not a reset leaves LCDBUF[b] (20_memory R32). -/
theorem step_region_lcd_of_busy {s t : State} {b : Nat} (hbusy : s.busyAt b = true) (h : step s = .next t)
    (hreset : ∀ es, s.inputs ≠ .reset :: es) : t.region (.lcd b) = s.region (.lcd b) := by
  rcases step_cases h with ⟨-, ⟨-, rfl⟩ | ⟨e, es, hin, ht⟩⟩
  · rfl
  · have he : e ≠ .reset := fun he => hreset es (he ▸ hin)
    rw [runEvent_region_lcd_of_busy (s := s.setInputs es) hbusy he ht, State.setInputs_region]

/-- Settles O20: no event but a reset touches the region of a busy bus. -/
theorem lcdBufferKeptWhileBusy : Obligations.LcdBufferKeptWhileBusy := by
  intro s t b hbusy h hreset j
  rw [State.readByte, step_region_lcd_of_busy hbusy h hreset, State.readByte]

/-! ## The HostRead port and the region sizes -/

theorem Config.numBuses_le_of_admitted {c : Config} (h : c.admitted = true) : c.numBuses ≤ 63 := by
  simp only [Config.admitted, Bool.and_eq_true, decide_eq_true_eq] at h
  omega

/-- HostRead answers exactly the bytes of the region its code names (20_memory R24). -/
theorem State.hostRead_eq_some_iff {s : State} (hcfg : s.cfg.admitted = true) {code : Byte} {i : Nat} {v : Byte} :
    s.hostRead code i = some v ↔
      ∃ r, codeOfRegion s.cfg r = some code.toNat ∧ i < s.regionSize r ∧ s.readByte r i = v := by
  simp only [codeOfRegion_iff (Config.numBuses_le_of_admitted hcfg), State.hostRead]
  cases regionOfCode s.cfg code <;> simp

theorem State.hostRead_setInputs (s : State) (es : List Event) (code : Byte) (i : Nat) :
    (s.setInputs es).hostRead code i = s.hostRead code i := rfl

theorem runEvent_hostRead_some {s : State} {code : Byte} {i : Nat} {v : Byte} (h : s.hostRead code i = some v) :
    runEvent (.hostRead code i) s = .next (s.setPort v) := by
  simp only [runEvent, h]

theorem runEvent_hostRead_none {s : State} {code : Byte} {i : Nat} (h : s.hostRead code i = none) :
    runEvent (.hostRead code i) s = .refused .hostReadOutside := by
  simp only [runEvent, h]

/-- Settles O11: the port gets the byte of the region of that code, and there is an answer only inside a region. -/
theorem hostReadGivesTheNamedByte : Obligations.HostReadGivesTheNamedByte := by
  intro s code i es hcfg hin
  rw [step_of_inputs hcfg hin]
  refine ⟨fun r hr hi => ?_, fun hout => ?_⟩
  · have hread : s.hostRead code i = some (s.readByte r i) := (State.hostRead_eq_some_iff hcfg).mpr ⟨r, hr, hi, rfl⟩
    exact runEvent_hostRead_some hread
  · have hread : s.hostRead code i = none := by
      refine Option.eq_none_iff_forall_ne_some.mpr fun v hv => ?_
      obtain ⟨r, hr, hi, -⟩ := (State.hostRead_eq_some_iff hcfg).mp hv
      exact absurd hi (not_lt.mpr (hout r hr))
    exact runEvent_hostRead_none hread

theorem Config.frameBytes_eq (c : Config) : c.frameBytes = 960 * c.panels := by
  unfold Config.frameBytes Config.sliceBytes Config.halfPanels
  omega

/-- Settles O12: four layers of BBS bytes, the arena's bufSize while its slot is occupied, L bytes per bus. -/
theorem regionSizes : Obligations.RegionSizes := by
  intro s d i b
  refine ⟨rfl, rfl, rfl, rfl, fun hi hocc => if_pos ⟨hi, hocc⟩, fun hfree => if_neg ?_, fun hb => ?_⟩
  · simp [hfree]
  · rw [State.regionSize, if_pos hb, Config.frameBytes_eq]

end Sys2Proof.Machine
end

section
/-! SUPPORT. Pixels of a bitmap buffer (20_memory R25) and of a scroll buffer's internal bitmap (R27). -/

namespace Sys2Proof.Machine

/-- A pixel write sets one bit of one byte and no other. -/
theorem getLsbD_read_pixWrite {c : Config} {m : Memory} (h : m.wf) (x y : Nat) (b : Bool) {j k : Nat} (hk : k < 8) :
    ((pixWrite c m x y b).read j).getLsbD k =
      if j = c.byteIndex x y ∧ k = bitIndex y then b else (m.read j).getLsbD k := by
  rw [pixWrite, Memory.read_write h]
  by_cases hj : j = c.byteIndex x y
  · rw [if_pos hj, getLsbD_setBit _ _ hk, hj]
    simp only [true_and]
  · rw [if_neg hj, if_neg fun hjk => hj hjk.1]

/-- Settles O15: the place is R25's formula by definition; the bit written there is the pixel's own. -/
theorem pixelsLieAtTheirByteAndBit : Obligations.PixelsLieAtTheirByteAndBit := by
  intro c m x y b hm hx hy
  exact ⟨Config.byteIndex_lt hx hy, rfl, fun _ _ hk => getLsbD_read_pixWrite hm x y b hk,
    fun _ _ hx' _ => pixRead_pixWrite hm hx hx' b⟩

/-- The toroidal wrap lands inside the internal bitmap, where the padding bits are not (20_memory R27). -/
theorem sourcePixel_congr {e : Descriptor} {bitmap bitmap' : Memory} (hw : 1 ≤ e.intW.toNat) (hh : 1 ≤ e.intH.toNat)
    (h : ∀ ix iy, ix < e.intW.toNat → iy < e.intH.toNat → sbPix e bitmap ix iy = sbPix e bitmap' ix iy) (x y : Nat) :
    sourcePixel e bitmap x y = sourcePixel e bitmap' x y :=
  h _ _ (emod_lt _ hw) (emod_lt _ hh)

/-- Settles O49: a slot's render reads its bitmap through source pixels alone. -/
theorem paddingBitsAreNeverRead : Obligations.PaddingBitsAreNeverRead := by
  rintro c e bitmap bitmap' dyn ⟨hw, hh, -⟩ h
  simp only [renderSlot, sourcePixel_congr hw hh h]

end Sys2Proof.Machine
end

section
/-! SUPPORT. Frames issued one after another run as their commands in order (20_memory R31, 30_encoding R47). -/

namespace Sys2Proof.Machine

/-! ## The frame of a command decodes to it -/

theorem lengthOk_encode {i : Instr} (h : i.wellFormed = true) : i.opcode.lengthOk (encode i) = true := by
  cases i with
  | load len data => exact (Laws.FrameShape.load len data h).2
  | _ => rfl

theorem decodeFields_encode (i : Instr) : decodeFields (encode i) i.opcode = i := by
  cases i with
  | sbCreate x => exact congrArg Instr.sbCreate (sbFieldsAt_create x)
  | sbUpdate id x => exact congrArg (Instr.sbUpdate id) (sbFieldsAt_update id x)
  | load len data => exact congrArg (Instr.load · data) (wordAt_load _ len data)
  | _ => rfl

theorem decode_encode {i : Instr} (h : i.wellFormed = true) : decode (encode i) = .ok i := by
  calc decode (encode i) = .ok (decodeFields (encode i) i.opcode) :=
        (decode_of_opcode (Opcode.ofByte?_code _) _).trans (if_pos (lengthOk_encode h))
    _ = .ok i := congrArg _ (decodeFields_encode i)

/-! ## One frame, then the rest -/

theorem State.cfg_foldl_setRegion {α : Type} (f : α → Region) (g : α → State → Memory) (l : List α) (s : State) :
    (l.foldl (fun t a => t.setRegion (f a) (g a t)) s).cfg = s.cfg :=
  (State.rest_foldl f g l s).1

/-- No command writes the parameters (10_state R23). -/
theorem execState_cfg (i : Instr) (s : State) : (execState i s).cfg = s.cfg := by
  cases i with
  | convert bus side row ram =>
    rw [execState]
    rcases convertState_cases bus side row ram s with ⟨c, ht⟩ | ⟨d, -, -, -, -, -, ht⟩ <;> simp [ht]
  | sbCreate x =>
    rw [execState]
    rcases createState_cases x s with ⟨c, ht⟩ | ⟨j, -, -, -, ht⟩ <;> simp [ht]
  | sbUpdate id x =>
    rw [execState]
    rcases updateState_cases id x s with ⟨c, ht⟩ | ⟨new, -, -, -, -, ht⟩
    · simp [ht]
    · rw [ht, State.replaceSlot]
      split_ifs <;> simp
  | sbDelete id =>
    rw [execState]
    rcases deleteState_cases id s with ⟨c, ht⟩ | ⟨-, -, ht⟩ <;> simp [ht]
  | merge side =>
    rw [execState]
    rcases mergeState_cases side s with ⟨c, ht⟩ | ⟨ds, -, ht⟩ <;> rw [ht]
    · rfl
    · exact State.cfg_foldl_setRegion Region.disp (fun d _ => mergedDisp s d) ds s
  | setDest sel =>
    rw [execState]
    rcases setDestState_cases sel s with ⟨c, ht⟩ | ⟨-, ht⟩ <;> simp [ht]
  | setMaskEn en =>
    rw [execState]
    rcases setMaskEnState_cases en s with ⟨c, ht⟩ | ⟨-, ht⟩ <;> simp [ht]
  | load len data =>
    rw [execState]
    rcases loadState_cases len data s with ⟨c, ht⟩ | ⟨rs, -, -, ht⟩ <;> rw [ht]
    · rfl
    · exact State.cfg_foldl_setRegion (fun r => r) (fun r t => (t.region r).load data) rs s
  | _ => rfl

/-- A command passes the events to come on unread. -/
theorem execState_setInputs (i : Instr) (s : State) (es : List Event) :
    execState i (s.setInputs es) = (execState i s).setInputs es := by
  obtain ⟨hbusy, -, hport⟩ := execState_outside i s
  calc execState i (s.withOutside s.busy es s.port)
      = (execState i s).withOutside s.busy es s.port := execState_withOutside i s _ es _ fun _ => rfl
    _ = (execState i s).setInputs es := by rw [← hbusy, ← hport]; rfl

theorem step_of_command {s : State} {i : Instr} {es : List Event} (hi : i.wellFormed = true)
    (hcfg : s.cfg.admitted = true) (hin : s.inputs = .command (encode i) :: es) :
    step s = .next ((execState i s).setInputs es) := by
  rw [step_of_inputs hcfg hin, runEvent, runFrame, decode_encode hi, ← execState_setInputs]
  exact exec_eq i _

theorem run_succ_of_step {s t : State} (h : step s = .next t) (n : Nat) :
    Host.Core.run core (n + 1) s = Host.Core.run core n t := by
  simp only [Host.Core.run, core, h]

/-- Settles O22, by induction on the list: one step runs the first frame's command, and what follows runs on the state
it left. -/
theorem issuedCommandsRunInOrder : Obligations.IssuedCommandsRunInOrder := by
  intro is
  induction is with
  | nil =>
    rintro s es - - hin
    exact ⟨s, congrArg some (by rw [show es = s.inputs from hin.symm]), rfl⟩
  | cons i is ih =>
    intro s es hwf hcfg hin
    obtain ⟨hi, his⟩ := List.forall_mem_cons.mp hwf
    have hstep : step s = .next ((execState i s).setInputs (commandEvents is ++ es)) := step_of_command hi hcfg hin
    obtain ⟨t, horder, hrun⟩ := ih ((execState i s).setInputs (commandEvents is ++ es)) es his
      (by rw [State.setInputs_cfg, execState_cfg, hcfg]) rfl
    refine ⟨t, ?_, ?_⟩
    · calc runInOrder (i :: is) (s.setInputs es)
          = runInOrder is ((execState i s).setInputs es) := by rw [runInOrder_cons, execState_setInputs]
        _ = some t := horder
    · rw [List.length_cons, run_succ_of_step hstep, hrun]

end Sys2Proof.Machine
end

section
/-! SUPPORT. The decoder in two rules, by frame length and back to the frame, and what a step does with a frame
(30_encoding R35 to R39). -/

namespace Sys2Proof

/-! ## A frame's length and its opcode -/

/-- R38's test for a LOAD's five header bytes is implied by the length it demands. -/
theorem Opcode.lengthOk_iff {f : List Byte} {o : Opcode} : o.lengthOk f = true ↔ f.length = o.frameLength f := by
  cases o with
  | load =>
    simp only [Opcode.lengthOk, Opcode.frameLength, Bool.and_eq_true, Bool.or_eq_true, decide_eq_true_eq, beq_iff_eq]
    exact ⟨And.right, fun h => ⟨.inr (by omega), h⟩⟩
  | _ => simp [Opcode.lengthOk]

theorem Opcode.frameLength_eq_of_ne_load {o : Opcode} (h : o ≠ .load) (f f' : List Byte) :
    o.frameLength f = o.frameLength f' := by
  cases o with
  | load => exact absurd rfl h
  | _ => rfl

theorem decode_of_length {f : List Byte} {o : Opcode} (hop : f.head? = some o.code)
    (hlen : f.length = o.frameLength f) : decode f = .ok (decodeFields f o) := by
  obtain ⟨rest, rfl⟩ := List.head?_eq_some_iff.mp hop
  exact (decode_of_opcode (Opcode.ofByte?_code o) rest).trans (if_pos (Opcode.lengthOk_iff.mpr hlen))

theorem decode_of_wrong_length {f : List Byte} {o : Opcode} (hop : f.head? = some o.code)
    (hlen : f.length ≠ o.frameLength f) : decode f = .error .badLength := by
  obtain ⟨rest, rfl⟩ := List.head?_eq_some_iff.mp hop
  exact (decode_of_opcode (Opcode.ofByte?_code o) rest).trans (if_neg (mt Opcode.lengthOk_iff.mp hlen))

/-- A frame that decodes has an opcode, that opcode's length, and the fields the opcode names. -/
theorem decode_eq_ok {f : List Byte} {i : Instr} (h : decode f = .ok i) :
    ∃ o, f.head? = some (Opcode.code o) ∧ f.length = o.frameLength f ∧ i = decodeFields f o := by
  cases f with
  | nil => cases h
  | cons op rest =>
    cases hop : Opcode.ofByte? op with
    | none => cases (decode_illegal hop rest).symm.trans h
    | some o =>
      rw [decode_of_opcode hop] at h
      split at h
      · next hlen =>
        injection h with h
        exact ⟨o, congrArg some (Opcode.code_of_ofByte? hop).symm, Opcode.lengthOk_iff.mp hlen, h.symm⟩
      · cases h

/-! ## The bytes a field was read from -/

theorem drop_eq_map_byteAt {f : List Byte} {o n : Nat} (h : o + n ≤ f.length) :
    f.drop o = (List.range n).map (fun k => byteAt f (o + k)) ++ f.drop (o + n) := by
  have htake : (f.drop o).take n = (List.range n).map fun k => byteAt f (o + k) := by
    refine List.ext_getElem (by simp; omega) fun k hk _ => ?_
    have hk : o + k < f.length := by simp at hk; omega
    simp [byteAt, hk]
  rw [← htake, ← List.drop_drop, List.take_append_drop]

theorem drop_eq_map_byteAt_of_length {f : List Byte} {o n : Nat} (h : f.length = o + n) :
    f.drop o = (List.range n).map fun k => byteAt f (o + k) := by
  rw [drop_eq_map_byteAt h.ge, List.drop_eq_nil_of_le h.le, List.append_nil]

theorem halfBytes_halfAt (f : List Byte) (o : Nat) : halfBytes (halfAt f o) = [byteAt f o, byteAt f (o + 1)] :=
  halfBytes_append _ _

theorem wordBytes_wordAt (f : List Byte) (o : Nat) :
    wordBytes (wordAt f o) = [byteAt f o, byteAt f (o + 1), byteAt f (o + 2), byteAt f (o + 3)] :=
  wordBytes_append _ _ _ _

theorem sbFieldsBytes_sbFieldsAt (f : List Byte) (o : Nat) :
    sbFieldsBytes (sbFieldsAt f o) = (List.range 25).map fun k => byteAt f (o + k) := by
  simp only [sbFieldsBytes, sbFieldsAt, halfBytes_halfAt]
  rfl

/-! ## The frame of the decoded command -/

theorem decodeFields_opcode (f : List Byte) (o : Opcode) : (decodeFields f o).opcode = o := by
  cases o <;> rfl

theorem decodeFields_wellFormed {f : List Byte} {o : Opcode} (hlen : f.length = o.frameLength f) :
    (decodeFields f o).wellFormed = true := by
  cases o with
  | load =>
    have hdata : (f.drop 5).length = (wordAt f 1).toNat := by
      rw [List.length_drop, hlen, Opcode.frameLength, Nat.add_sub_cancel_left]
    exact beq_iff_eq.mpr hdata
  | _ => rfl

/-- The fields of an opcode are consecutive and fill the frame after byte 0 (30_encoding R37). -/
theorem decodeFields_operandBytes {f : List Byte} {o : Opcode} (hlen : f.length = o.frameLength f) :
    (decodeFields f o).operandBytes = f.drop 1 := by
  cases o with
  | sbCreate => exact (sbFieldsBytes_sbFieldsAt f 1).trans (drop_eq_map_byteAt_of_length hlen).symm
  | sbUpdate =>
    rw [drop_eq_map_byteAt_of_length (o := 1) (n := 26) hlen]
    exact congrArg (byteAt f 1 :: ·) (sbFieldsBytes_sbFieldsAt f 2)
  | load =>
    have h5 : 1 + 4 ≤ f.length := by rw [hlen, Opcode.frameLength]; omega
    rw [drop_eq_map_byteAt h5]
    exact congrArg (· ++ f.drop 5) (wordBytes_wordAt f 1)
  | convert => exact (drop_eq_map_byteAt_of_length (n := 4) hlen).symm
  | nop | advance | render | getDest | getMaskEn => exact (drop_eq_map_byteAt_of_length (n := 0) hlen).symm
  | sbDelete | merge | setDest | setMaskEn => exact (drop_eq_map_byteAt_of_length (n := 1) hlen).symm

theorem encode_decodeFields {f : List Byte} {o : Opcode} (hop : f.head? = some o.code)
    (hlen : f.length = o.frameLength f) : encode (decodeFields f o) = f := by
  rw [encode, decodeFields_opcode, decodeFields_operandBytes hlen]
  obtain ⟨rest, rfl⟩ := List.head?_eq_some_iff.mp hop
  rfl

/-- Two's complement of a 16-bit field (30_encoding R36). -/
theorem half_toInt (h : Half) :
    h.toInt = if h.toNat < 2 ^ 15 then (h.toNat : Int) else (h.toNat : Int) - 2 ^ 16 := by
  rw [BitVec.toInt_eq_toNat_cond]
  split_ifs <;> omega

end Sys2Proof

namespace Sys2Proof.Machine

/-- Settles O1: the frame of a command has its opcode's length, and each field is read back from its own bytes. -/
theorem decodeOfEncodeIsTheCommand : Obligations.DecodeOfEncodeIsTheCommand :=
  fun _ => decode_encode

/-- Settles O2: a decoded frame has its opcode's length, and the opcode's fields fill the frame after byte 0. -/
theorem encodeOfDecodeIsTheFrame : Obligations.EncodeOfDecodeIsTheFrame := by
  intro f i h
  obtain ⟨o, hop, hlen, rfl⟩ := decode_eq_ok h
  exact ⟨decodeFields_wellFormed hlen, encode_decodeFields hop hlen⟩

/-- Settles O3: with the opcode's length the decoder answers its fields, whose values are the field readers'. -/
theorem fieldsAtTheirOffsetsBigEndian : Obligations.FieldsAtTheirOffsetsBigEndian := by
  intro f u8 u16 s16 fieldsAt
  have hu16 (o : Nat) : (halfAt f o).toNat = u16 o := halfAt_toNat f o
  have hs16 (o : Nat) : (halfAt f o).toInt = s16 o := by rw [half_toInt, hu16]
  have hfields (o : Nat) : fieldsAt o (sbFieldsAt f o) :=
    ⟨rfl, hu16 _, hu16 _, hu16 _, hu16 _, hu16 _, hu16 _, hu16 _, hu16 _, hu16 _, hu16 _, hs16 _, hs16 _⟩
  have hword : (wordAt f 1).toNat = 65536 * u16 1 + u16 3 := by rw [wordAt_toNat, hu16, hu16]
  refine ⟨?nop, decode_of_length (o := .convert), ?sbCreate, ?sbUpdate, decode_of_length (o := .sbDelete), ?advance,
    ?render, decode_of_length (o := .merge), decode_of_length (o := .setDest), ?getDest,
    decode_of_length (o := .setMaskEn), ?getMaskEn, ?load⟩
  case nop | advance | render | getDest | getMaskEn => exact fun hf => hf ▸ rfl
  case sbCreate => exact fun hop hlen => ⟨_, decode_of_length (o := .sbCreate) hop hlen, hfields 1⟩
  case sbUpdate => exact fun hop hlen => ⟨_, decode_of_length (o := .sbUpdate) hop hlen, hfields 2⟩
  case load =>
    intro hop _ hlen
    exact ⟨_, hword, decode_of_length (o := .load) hop (hlen.trans (congrArg (5 + ·) hword.symm))⟩

/-! ## What a step does with a frame -/

section
variable {s : State} {f : List Byte} {es : List Event} (hcfg : s.cfg.admitted = true)
  (hin : s.inputs = .command f :: es)
include hcfg hin

theorem step_of_decode_ok {i : Instr} (h : decode f = .ok i) : step s = exec i { s with inputs := es } := by
  rw [step_of_inputs hcfg hin, runEvent, runFrame, h]
  rfl

theorem step_of_illegalOpcode (h : decode f = .error .illegalOpcode) :
    step s = .next { s with inputs := es, status := 0x06, result := 0 } := by
  rw [step_of_inputs hcfg hin, runEvent, runFrame, h]
  rfl

theorem step_of_badLength (h : decode f = .error .badLength) :
    step s = .next { s with inputs := es, status := 0x07, result := 0 } := by
  rw [step_of_inputs hcfg hin, runEvent, runFrame, h]
  rfl

end

/-- The opcode table lists the bytes the opcode map knows. -/
theorem ofByte?_eq_none_of_notMem {op : Byte} (h : op ∉ opcodeBytes) : Opcode.ofByte? op = none := by
  refine List.find?_eq_none.mpr fun o ho hop => h ?_
  rw [show opcodeBytes = Opcode.all.map Opcode.code from rfl, ← beq_iff_eq.mp hop]
  exact List.mem_map_of_mem ho

/-- Settles O5: an unlisted byte 0 is no opcode to the decoder, whatever bytes follow. -/
theorem unlistedOpcodeReportsIllegalOpcode : Obligations.UnlistedOpcodeReportsIllegalOpcode :=
  fun _ _ rest _ hcfg hin hop => step_of_illegalOpcode hcfg hin (decode_illegal (ofByte?_eq_none_of_notMem hop) rest)

/-- Each fixed row is an opcode's byte and the length of its frames. -/
theorem opcode_of_mem_fixedFrames {op : Byte} {n : Nat} (h : (op, n) ∈ fixedFrames) :
    ∃ o, Opcode.code o = op ∧ ∀ f, o.frameLength f = n := by
  have htable : fixedFrames = (Opcode.all.filter (· ≠ .load)).map fun o => (o.code, o.frameLength []) := rfl
  rw [htable, List.mem_map] at h
  obtain ⟨o, ho, hrow⟩ := h
  obtain ⟨hcode, hlen⟩ := Prod.mk.inj hrow
  have hne : o ≠ .load := by simpa using (List.mem_filter.mp ho).2
  exact ⟨o, hcode, fun f => (Opcode.frameLength_eq_of_ne_load hne f []).trans hlen⟩

/-- A LOAD's length field in its four bytes (30_encoding R36). -/
theorem wordAt_one_toNat (op b0 b1 b2 b3 : Byte) (data : List Byte) :
    (wordAt (op :: b0 :: b1 :: b2 :: b3 :: data) 1).toNat =
      2 ^ 24 * b0.toNat + 2 ^ 16 * b1.toNat + 2 ^ 8 * b2.toNat + b3.toNat := by
  rw [wordAt_toNat, halfAt_toNat, halfAt_toNat]
  change 65536 * (256 * b0.toNat + b1.toNat) + (256 * b2.toNat + b3.toNat) = _
  omega

/-- Settles O6: each of the three conditions is a length other than the opcode's. -/
theorem wrongFrameLengthReportsBadLength : Obligations.WrongFrameLengthReportsBadLength := by
  intro s es hcfg
  refine ⟨fun op n rest hrow hlen hin => ?fixed, fun rest hlen hin => ?header, fun b0 b1 b2 b3 data hlen hin => ?data⟩
  case fixed =>
    obtain ⟨o, rfl, hfixed⟩ := opcode_of_mem_fixedFrames hrow
    exact step_of_badLength hcfg hin (decode_of_wrong_length rfl (by rwa [hfixed]))
  case header =>
    refine step_of_badLength hcfg hin (decode_of_wrong_length (o := .load) rfl ?_)
    rw [Opcode.frameLength, List.length_cons]
    omega
  case data =>
    refine step_of_badLength hcfg hin (decode_of_wrong_length (o := .load) rfl ?_)
    rw [Opcode.frameLength, wordAt_one_toNat]
    simp only [List.length_cons]
    omega

/-! ## The legal parameters (00_scope R5) -/

theorem ctrlRam_mem (c : Config) (r : Byte) : ctrlRam c r ∈ [c.ctrlRam1, c.ctrlRam2] := by
  unfold ctrlRam
  split_ifs <;> simp

theorem ctrlAddr_mem (c : Config) (k : Backplane) :
    ctrlAddr c k ∈ [c.ctrlAddr0, c.ctrlAddr1, c.ctrlAddr2, c.ctrlAddr3] := by
  cases k <;> simp [ctrlAddr]

theorem controlDisjoint_groups {c : Config} (h : c.controlDisjoint = true) (r : Byte) (k : Backplane) :
    c.ctrlMux4 &&& ctrlRam c r = 0 ∧ c.ctrlMux4 &&& ctrlAddr c k = 0 ∧ ctrlRam c r &&& ctrlAddr c k = 0 := by
  simp only [Config.controlDisjoint, Bool.and_eq_true, List.all_eq_true, beq_iff_eq] at h
  obtain ⟨⟨hram, haddr⟩, hpair⟩ := h
  exact ⟨hram _ (ctrlRam_mem c r), haddr _ (ctrlAddr_mem c k), hpair _ (ctrlRam_mem c r) _ (ctrlAddr_mem c k)⟩

theorem step_of_not_admitted {s : State} (h : ¬s.cfg.admitted = true) : step s = .refused .configuration :=
  if_neg h

/-- Settles O7: the decoder has no command for an empty frame, and admitted parameters meet every bound of R5. -/
theorem emptyFramesAndOtherConfigurationsAreRefused : Obligations.EmptyFramesAndOtherConfigurationsAreRefused := by
  refine ⟨fun s es hcfg hin => step_of_inputs hcfg hin, fun s hillegal => step_of_not_admitted fun hcfg => hillegal ?_⟩
  simp only [Config.admitted, Bool.and_eq_true, decide_eq_true_eq] at hcfg
  obtain ⟨⟨⟨⟨⟨⟨⟨hp, hr⟩, hb⟩, hb'⟩, hm⟩, hm'⟩, hslot⟩, hctrl⟩ := hcfg
  exact ⟨hp, hr, hb, hb', hm, hm', hslot, controlDisjoint_groups hctrl⟩

/-- Settles O8: the step takes the frame and the frame runs the command it decodes to. -/
theorem stepRunsTheDecodedCommand : Obligations.StepRunsTheDecodedCommand :=
  fun _ _ _ _ hcfg hin h => step_of_decode_ok hcfg hin h

/-- Settles O33, over the two RAM operands with the four backplanes, and the four steps. -/
theorem controlByteAndBitOrderTables : Obligations.ControlByteAndBitOrderTables :=
  ⟨by decide, by decide⟩

end Sys2Proof.Machine
end

section
/-! SUPPORT. The converter's stages one by one (41_converter R49 to R53): nibble assembly, the column byte, the chain of
half-panels. -/

namespace Sys2Proof

theorem getLsbD_rev8 (v : Byte) {i : Nat} (hi : i < 8) : (rev8 v).getLsbD i = v.getLsbD (7 - i) := by
  rw [rev8, BitVec.getLsbD_reverse, BitVec.getMsbD_eq_getLsbD]
  simp only [hi, decide_true, Bool.true_and]

@[simp] theorem rev8_rev8 (v : Byte) : rev8 (rev8 v) = v :=
  BitVec.reverse_reverse_eq

end Sys2Proof

namespace Sys2Proof.Machine

/-! ## Nibble assembly (R53) -/

theorem dataByte_aligned (v : Nat → Byte) (q : Nat) {r : Nat} (hr : r < 10) :
    dataByte v (25 * q + r) = v (24 * q + r) := by
  simp only [dataByte, show (25 * q + r) / 25 = q by omega, show (25 * q + r) % 25 = r by omega, if_pos hr]

theorem dataByte_shifted (v : Nat → Byte) (q : Nat) {r : Nat} (hr : 10 ≤ r) (hr' : r < 25) :
    dataByte v (25 * q + r) =
      (v (24 * q + r - 1) >>> 4) ||| ((if 24 * q + r ≤ 95 then v (24 * q + r) else 0x00) <<< 4) := by
  simp only [dataByte, show (25 * q + r) / 25 = q by omega, show (25 * q + r) % 25 = r by omega,
    if_neg (not_lt.mpr hr)]

/-- Settles O25: ten aligned bytes, then fifteen shifted ones. -/
theorem dataBytesByRegion : Obligations.DataBytesByRegion := by
  intro v q j _
  refine ⟨fun hj => dataByte_aligned v q (by omega), fun hj => ?_⟩
  simpa only [← Nat.add_assoc] using dataByte_shifted v q (r := 10 + j) (by omega) (by omega)

/-- The data bytes depend on the 96 columns of the half-panel alone. -/
theorem dataByte_congr {v v' : Nat → Byte} (h : ∀ col ≤ 95, v col = v' col) {n : Nat} (hn : n < 100) :
    dataByte v n = dataByte v' n := by
  rw [← Nat.div_add_mod n 25]
  rcases Nat.lt_or_ge (n % 25) 10 with hr | hr
  · rw [dataByte_aligned _ _ hr, dataByte_aligned _ _ hr, h _ (by omega)]
  · have hr' : n % 25 < 25 := Nat.mod_lt _ (by omega)
    rw [dataByte_shifted _ _ hr hr', dataByte_shifted _ _ hr hr', h _ (by omega)]
    split_ifs with hcol
    · rw [h _ hcol]
    · rfl

/-! ## The column byte (R51, R52) -/

theorem endianCorrect_eq (v : Byte) (k : Backplane) :
    endianCorrect v k = if k = .com2 ∨ k = .com3 then rev8 v else v := by
  cases k <;> rfl

@[simp] theorem endianCorrect_endianCorrect (v : Byte) (k : Backplane) : endianCorrect (endianCorrect v k) k = v := by
  cases k
  case com0 | com1 => rfl
  case com2 | com3 => exact rev8_rev8 v

section Fetch

variable (c : Config) (src : Memory) (base : Nat) {h : Nat} (k : Backplane) (col : Nat)

theorem rawColumnByte_of_unrotated (hrot : (halfPanelOf c h).rotated = false) :
    rawColumnByte c src base h col k = src.read (halfPanelBase c base (halfPanelOf c h) + col * 4 + k.offset) := by
  simp only [rawColumnByte, hrot, Bool.false_eq_true, if_false]

theorem rawColumnByte_of_rotated (hrot : (halfPanelOf c h).rotated = true) :
    rawColumnByte c src base h col k =
      rev8 (src.read (halfPanelBase c base (halfPanelOf c h) + (95 - col) * 4 + (3 - k.offset))) := by
  simp only [rawColumnByte, hrot, if_true]

end Fetch

/-- Settles O27: the two reversals of a rotated half-panel's COM2 and COM3 cancel. -/
theorem columnByteFetchAndEndianCorrection : Obligations.ColumnByteFetchAndEndianCorrection := by
  refine ⟨fun v i hi => getLsbD_rev8 v hi, fun c src base h col k _ => ⟨fun hrot => ?_, fun hrot => ?_⟩⟩
  · rw [columnByte, rawColumnByte_of_unrotated _ _ _ _ _ hrot, endianCorrect_eq]
    rfl
  · rw [columnByte, rawColumnByte_of_rotated _ _ _ _ _ hrot, endianCorrect_eq, rev8_rev8]
    rfl

/-- Settles O32: an aligned data byte is its column byte. -/
theorem alignedPositionsKeepBitOrder : Obligations.AlignedPositionsKeepBitOrder := by
  intro c src base h q j k hrot _ hj
  rw [dataByte_aligned _ _ (by omega), columnByte, rawColumnByte_of_unrotated _ _ _ _ _ hrot]
  cases k <;> rfl

/-! ## The chain of half-panels (R49) -/

section Chain

variable {c : Config} {h row col : Nat}

theorem halfPanelOf_upperLoop (ht : c.topology = .uLoop) (hh : c.panels ≤ h) :
    halfPanelOf c h = ⟨0, h - c.panels, false⟩ := by
  simp only [halfPanelOf, ht, if_pos hh]

theorem halfPanelOf_lowerLoop (ht : c.topology = .uLoop) (hh : h < c.panels) :
    halfPanelOf c h = ⟨1, c.panels - 1 - h, true⟩ := by
  simp only [halfPanelOf, ht, if_neg (not_le.mpr hh)]

theorem halfPanelOf_linear (ht : c.topology = .linear) : halfPanelOf c h = ⟨h / c.panels, h % c.panels, false⟩ := by
  simp only [halfPanelOf, ht]

theorem chainIndexOf_uLoop (ht : c.topology = .uLoop) :
    chainIndexOf c row col = if row = 0 then c.panels + col else c.panels - 1 - col := by
  simp only [chainIndexOf, ht]

theorem chainIndexOf_linear (ht : c.topology = .linear) : chainIndexOf c row col = row * c.panels + col := by
  simp only [chainIndexOf, ht]

/-- A half-panel row is 0 or 1, so the half-panels of a panel row number 2P (20_memory R25). -/
theorem halfPanelNumber_lt (hrow : row < 2) (hcol : col < c.panels) : row * c.panels + col < c.halfPanels := by
  unfold Config.halfPanels
  obtain rfl | rfl : row = 0 ∨ row = 1 := by omega
  · omega
  · omega

theorem chainIndexOf_lt (hrow : row < 2) (hcol : col < c.panels) : chainIndexOf c row col < c.halfPanels := by
  cases ht : c.topology with
  | uLoop =>
    rw [chainIndexOf_uLoop ht, Config.halfPanels]
    split_ifs <;> omega
  | linear =>
    rw [chainIndexOf_linear ht]
    exact halfPanelNumber_lt hrow hcol

theorem halfPanelOf_bounds (hh : h < c.halfPanels) :
    (halfPanelOf c h).row < 2 ∧ (halfPanelOf c h).col < c.panels := by
  unfold Config.halfPanels at hh
  cases ht : c.topology with
  | uLoop =>
    rcases Nat.lt_or_ge h c.panels with hlow | hup
    · rw [halfPanelOf_lowerLoop ht hlow]
      exact ⟨Nat.one_lt_two, show c.panels - 1 - h < c.panels by omega⟩
    · rw [halfPanelOf_upperLoop ht hup]
      exact ⟨Nat.two_pos, show h - c.panels < c.panels by omega⟩
  | linear =>
    rw [halfPanelOf_linear ht]
    exact ⟨Nat.div_lt_of_lt_mul (by omega), Nat.mod_lt _ (by omega)⟩

theorem chainIndexOf_halfPanelOf (c : Config) (h : Nat) :
    chainIndexOf c (halfPanelOf c h).row (halfPanelOf c h).col = h := by
  cases ht : c.topology with
  | uLoop =>
    rw [chainIndexOf_uLoop ht]
    rcases Nat.lt_or_ge h c.panels with hlow | hup
    · rw [halfPanelOf_lowerLoop ht hlow, if_neg Nat.one_ne_zero]
      exact Nat.sub_sub_self (by omega)
    · rw [halfPanelOf_upperLoop ht hup, if_pos rfl]
      exact Nat.add_sub_of_le hup
  | linear =>
    rw [chainIndexOf_linear ht, halfPanelOf_linear ht]
    exact Nat.div_add_mod' h c.panels

theorem halfPanelOf_chainIndexOf (hrow : row < 2) (hcol : col < c.panels) :
    (halfPanelOf c (chainIndexOf c row col)).row = row ∧ (halfPanelOf c (chainIndexOf c row col)).col = col := by
  cases ht : c.topology with
  | uLoop =>
    rw [chainIndexOf_uLoop ht]
    obtain rfl | rfl : row = 0 ∨ row = 1 := by omega
    · rw [if_pos rfl, halfPanelOf_upperLoop ht (by omega)]
      exact ⟨rfl, Nat.add_sub_cancel_left ..⟩
    · rw [if_neg Nat.one_ne_zero, halfPanelOf_lowerLoop ht (by omega)]
      exact ⟨rfl, Nat.sub_sub_self (by omega)⟩
  | linear =>
    rw [chainIndexOf_linear ht, halfPanelOf_linear ht]
    exact (Nat.div_mod_unique (by omega)).mpr ⟨by rw [Nat.add_comm, Nat.mul_comm], hcol⟩

end Chain

/-- Settles O26: `chainIndexOf` is the chain index of each half-panel, and the only one. -/
theorem chainVisitsEveryHalfPanelOnce : Obligations.ChainVisitsEveryHalfPanelOnce := by
  intro c _
  refine ⟨fun h _ => ⟨halfPanelOf_upperLoop, halfPanelOf_lowerLoop, halfPanelOf_linear⟩, fun row col hrow hcol => ?_⟩
  obtain ⟨hr, hc⟩ := halfPanelOf_chainIndexOf hrow hcol
  refine ⟨chainIndexOf c row col, chainIndexOf_lt hrow hcol, hr, hc, ?_⟩
  rintro h' - rfl rfl
  exact (chainIndexOf_halfPanelOf c h').symm

end Sys2Proof.Machine
end

section
/-! SUPPORT. The command CONVERT (41_converter R58): its refusals, the frame it writes, and what it reads. -/

namespace Sys2Proof.Machine

/-! ## Which operands are legal -/

theorem oneSide?_eq_some_iff {side : Byte} {d : Side} :
    oneSide? side = some d ↔ side = 0x01 ∧ d = .a ∨ side = 0x02 ∧ d = .b := by
  unfold oneSide?
  split_ifs with ha hb
  · subst ha
    simp [eq_comm]
  · subst hb
    simp [eq_comm]
  · simp only [ha, hb, false_and, or_self]

theorem oneSide?_eq_none_iff {side : Byte} : oneSide? side = none ↔ side ≠ 0x01 ∧ side ≠ 0x02 := by
  unfold oneSide?
  split_ifs with ha hb
  · exact iff_of_false nofun fun h => h.1 ha
  · exact iff_of_false nofun fun h => h.2 hb
  · exact iff_of_true rfl ⟨ha, hb⟩

/-- What an accepted CONVERT leaves. -/
def State.converted (s : State) (bus : Nat) (d : Side) (row : Nat) (ram : Byte) : State :=
  (s.setRegion (.lcd bus) (Memory.ofBytes (lcdFrame s.cfg (s.disp.get d) (panelRowBase s.cfg row) ram))).finish
    (lengthResult s.cfg.frameBytes)

section Converted

variable (s : State) (bus : Nat) (d : Side) (row : Nat) (ram : Byte)

theorem State.converted_status : (s.converted bus d row ram).status = 0x00 := rfl

theorem State.converted_result : (s.converted bus d row ram).result = lengthResult s.cfg.frameBytes := rfl

theorem State.converted_region_lcd (hbus : bus < s.lcd.length) :
    (s.converted bus d row ram).region (.lcd bus) =
      Memory.ofBytes (lcdFrame s.cfg (s.disp.get d) (panelRowBase s.cfg row) ram) := by
  rw [State.converted, State.finish_region]
  exact s.region_setRegion_same _ hbus

theorem State.converted_sameBytes : s.sameBytes (s.converted bus d row ram) fun r => r = .lcd bus := by
  intro r hr i
  rw [State.readByte, State.converted, State.finish_region, State.region_setRegion_other _ _ hr, State.readByte]

theorem State.converted_sameOutside : s.sameOutside (s.converted bus d row ram) :=
  State.sameOutside_setRegion s.sameOutside_refl _ _

theorem State.converted_sameRegisters : s.sameRegisters (s.converted bus d row ram) := by
  simp [State.sameRegisters, State.converted]

end Converted

section Operands

variable {s : State} {bus side row ram : Byte} {d : Side}

theorem exec_convert_of_legal (hbus : bus.toNat < s.cfg.numBuses)
    (hside : side = 0x01 ∧ d = .a ∨ side = 0x02 ∧ d = .b) (hrow : row.toNat < s.cfg.panelRows) (hram : ram.toNat ≤ 1)
    (hidle : s.busyAt bus.toNat = false) :
    exec (.convert bus side row ram) s = .next (s.converted bus.toNat d row.toNat ram) := by
  have hlegal : ¬(s.cfg.numBuses ≤ bus.toNat ∨ s.cfg.panelRows ≤ row.toNat ∨ 1 < ram.toNat) := by omega
  rw [exec_eq, execState, convertState, oneSide?_eq_some_iff.mpr hside]
  simp only [if_neg hlegal, hidle, Bool.false_eq_true, if_false]
  rfl

theorem exec_convert_of_busy (hbus : bus.toNat < s.cfg.numBuses) (hside : oneSide? side = some d)
    (hrow : row.toNat < s.cfg.panelRows) (hram : ram.toNat ≤ 1) (hbusy : s.busyAt bus.toNat = true) :
    exec (.convert bus side row ram) s = .next (s.raise .busy) := by
  have hlegal : ¬(s.cfg.numBuses ≤ bus.toNat ∨ s.cfg.panelRows ≤ row.toNat ∨ 1 < ram.toNat) := by omega
  rw [exec_eq, execState, convertState, hside]
  simp only [if_neg hlegal, hbusy, if_true]

theorem exec_convert_of_illegal (h : s.cfg.numBuses ≤ bus.toNat ∨ oneSide? side = none ∨
    s.cfg.panelRows ≤ row.toNat ∨ 1 < ram.toNat) :
    exec (.convert bus side row ram) s = .next (s.raise .badOperand) := by
  rw [exec_eq, execState, convertState]
  cases hside : oneSide? side with
  | none => rfl
  | some d => exact congrArg _ (if_pos (by simpa [hside] using h))

end Operands

/-- Settles O29: the operands are checked before BUSY. -/
theorem convertRefusals : Obligations.ConvertRefusals := by
  intro s bus side row ram
  refine ⟨fun hbad => exec_convert_of_illegal (by rwa [oneSide?_eq_none_iff]), fun hgood hbusy => ?_⟩
  obtain ⟨hbus, hside, hrow, hram⟩ : bus.toNat < s.cfg.numBuses ∧ oneSide? side ≠ none ∧
      row.toNat < s.cfg.panelRows ∧ ram.toNat ≤ 1 := by
    rw [Ne, oneSide?_eq_none_iff]
    simpa only [not_or, not_le, not_lt] using hgood
  obtain ⟨d, hd⟩ := Option.ne_none_iff_exists'.mp hside
  exact exec_convert_of_busy hbus hd hrow hram hbusy

/-! ## The bytes of the frame (R54, R55) -/

theorem columnGroup_getD_data (v : Nat → Byte) (ctrl : Byte) (g : Nat) {n : Nat} (hn : n < 5) :
    (columnGroup v ctrl g).getD n 0 = dataByte v (5 * g + n) := by
  interval_cases n <;> rfl

theorem columnGroup_getD_control (v : Nat → Byte) (ctrl : Byte) (g : Nat) :
    (columnGroup v ctrl g).getD 5 0 = ctrl := rfl

theorem lengthResult_toNat {n : Nat} (h : n < 2 ^ 32) : (lengthResult n).toNat = n := by
  rw [lengthResult, if_pos h, BitVec.toNat_ofNat, Nat.mod_eq_of_lt h]

/-- Settles O28: the written region is the frame, whose bytes `lcdFrame_getD` places. -/
theorem convertWritesTheFrame : Obligations.ConvertWritesTheFrame := by
  intro s bus side row ram d hinv hbus hside hrow hram hidle
  obtain ⟨hdest, hmask, hslots⟩ := s.converted_sameRegisters bus.toNat d row.toNat ram
  refine ⟨_, exec_convert_of_legal hbus hside hrow hram hidle, s.converted_status .., fun hlen => ?result,
    fun st h g hst hh hg => ?bytes, s.converted_sameOutside .., hdest, hmask, hslots, s.converted_sameBytes _ _ _ _⟩
  case result =>
    have hframe : s.cfg.frameBytes = 480 * (2 * s.cfg.panels) := by
      rw [Config.frameBytes_eq]
      omega
    rw [State.converted_result, hframe, lengthResult_toNat hlen]
  case bytes =>
    have hread {n : Nat} (hn : n < 6) :=
      lcdFrame_getD s.cfg (s.disp.get d) (panelRowBase s.cfg row.toNat) ram hst hh hg hn
    simp only [State.readByte, s.converted_region_lcd _ _ _ _ (hinv.lcdCount.symm ▸ hbus), Memory.read_ofBytes]
    refine ⟨fun n hn => ?_, ?_⟩
    · exact (hread (by omega)).trans (columnGroup_getD_data _ _ _ hn)
    · exact (hread (by omega)).trans (columnGroup_getD_control _ _ _)

/-! ## What a conversion reads -/

section Reads

variable {c : Config} {src src' : Memory} {base h : Nat}

/-- A half-panel's 384 bytes lie in its panel row (41_converter R50). -/
theorem halfPanelBase_bounds (base : Nat) (hh : h < c.halfPanels) :
    base ≤ halfPanelBase c base (halfPanelOf c h) ∧
      halfPanelBase c base (halfPanelOf c h) + 384 ≤ base + c.halfPanels * 384 := by
  obtain ⟨hrow, hcol⟩ := halfPanelOf_bounds hh
  have hnum := halfPanelNumber_lt hrow hcol
  unfold halfPanelBase
  omega

theorem Backplane.offset_lt (k : Backplane) : k.offset < 4 := by
  cases k <;> decide

theorem columnByte_congr (hsame : ∀ j, base ≤ j → j < base + c.halfPanels * 384 → src.read j = src'.read j)
    (hh : h < c.halfPanels) (k : Backplane) {col : Nat} (hcol : col ≤ 95) :
    columnByte c src base h k col = columnByte c src' base h k col := by
  have hk := k.offset_lt
  obtain ⟨hlo, hhi⟩ := halfPanelBase_bounds base hh
  unfold columnByte
  cases hrot : (halfPanelOf c h).rotated with
  | false => rw [rawColumnByte_of_unrotated _ _ _ _ _ hrot, rawColumnByte_of_unrotated _ _ _ _ _ hrot,
      hsame _ (by omega) (by omega)]
  | true => rw [rawColumnByte_of_rotated _ _ _ _ _ hrot, rawColumnByte_of_rotated _ _ _ _ _ hrot,
      hsame _ (by omega) (by omega)]

theorem columnGroup_eq (v : Nat → Byte) (ctrl : Byte) (g : Nat) :
    columnGroup v ctrl g = (List.range 5).map (fun t => dataByte v (5 * g + t)) ++ [ctrl] := rfl

theorem columnGroup_congr {v v' : Nat → Byte} (hv : ∀ col ≤ 95, v col = v' col) (ctrl : Byte) {g : Nat}
    (hg : g < 20) : columnGroup v ctrl g = columnGroup v' ctrl g := by
  have hdata (t : Nat) (ht : t ∈ List.range 5) : dataByte v (5 * g + t) = dataByte v' (5 * g + t) := by
    have := List.mem_range.mp ht
    exact dataByte_congr hv (by omega)
  rw [columnGroup_eq, columnGroup_eq, List.map_congr_left hdata]

theorem lcdFrame_congr (hsame : ∀ j, base ≤ j → j < base + c.halfPanels * 384 → src.read j = src'.read j)
    (ram : Byte) : lcdFrame c src base ram = lcdFrame c src' base ram :=
  List.flatMap_congr fun k _ => List.flatMap_congr fun _ hh => List.flatMap_congr fun _ hg =>
    columnGroup_congr (fun _ => columnByte_congr hsame (List.mem_range.mp hh) k) _ (List.mem_range.mp hg)

end Reads

/-- Settles O30: the frame is the same, so the state after is the same but for DISP. -/
theorem convertReadsOnlyItsPanelRow : Obligations.ConvertReadsOnlyItsPanelRow := by
  intro s disp' bus side row ram d hinv hbus hside hrow hram hidle hsame
  have hlcd : bus.toNat < s.lcd.length := hinv.lcdCount.symm ▸ hbus
  have hframe : lcdFrame s.cfg (s.disp.get d) (panelRowBase s.cfg row.toNat) ram =
      lcdFrame s.cfg (disp'.get d) (panelRowBase s.cfg row.toNat) ram := by
    refine lcdFrame_congr (fun j hlo hhi => hsame j hlo ?_) ram
    rwa [Nat.add_mul, Nat.add_mul, Nat.one_mul]
  refine ⟨_, _, exec_convert_of_legal hbus hside hrow hram hidle,
    exec_convert_of_legal (s := { s with disp := disp' }) hbus hside hrow hram hidle, ?status, ?result,
    fun j => ?bytes⟩
  case status => rw [State.converted_status, State.converted_status]
  case result => rw [State.converted_result, State.converted_result]
  case bytes =>
    rw [State.readByte, State.readByte, s.converted_region_lcd _ _ _ _ hlcd,
      State.converted_region_lcd { s with disp := disp' } _ _ _ _ hlcd, hframe]

end Sys2Proof.Machine
end

section
/-! SUPPORT. The test-only inverse of the converter (41_converter R59), stage by stage, and the spec's example frames. -/

namespace Sys2Proof.Machine

/-! ## Reading the columns back from the data bytes -/

theorem Backplane.step_lt (k : Backplane) : k.step < 4 := by
  cases k <;> decide

@[simp] theorem backplaneAt_step (k : Backplane) : backplaneAt k.step = k := by
  cases k <;> rfl

@[simp] theorem offset_backplaneOfOffset {n : Nat} (hn : n < 4) : (backplaneOfOffset n).offset = n := by
  interval_cases n <;> rfl

/-- A byte stands whole in two neighbouring nibble-shifted bytes. -/
theorem nibbles_rejoin (prev v next : Byte) :
    ((prev >>> 4 ||| v <<< 4) >>> 4) ||| (((v >>> 4 ||| next <<< 4) &&& 0x0F) <<< 4) = v := by
  refine BitVec.eq_of_getLsbD_eq fun i hi => ?_
  interval_cases i <;> simp

theorem columnOfData_dataByte {d v : Nat → Byte} (hd : ∀ n < 100, d n = dataByte v n) {col : Nat} (hcol : col ≤ 95) :
    columnOfData d col = v col := by
  have hr' : col % 24 < 24 := Nat.mod_lt _ (by omega)
  have hcol' : 24 * (col / 24) + col % 24 = col := Nat.div_add_mod col 24
  unfold columnOfData
  dsimp only
  split_ifs with hr
  · rw [hd _ (by omega), dataByte_aligned _ _ hr, hcol']
  · rw [hd _ (by omega), hd _ (by omega), dataByte_shifted _ _ (not_lt.mp hr) (by omega), Nat.add_assoc,
      dataByte_shifted _ _ (by omega) (by omega), hcol', if_pos hcol,
      show 24 * (col / 24) + (col % 24 + 1) - 1 = col by omega]
    exact nibbles_rejoin ..

/-! ## Reading the panel row back from the frame -/

section Recover

variable {c : Config} (src : Memory) (base : Nat) (ram : Byte)

theorem readDataByte_lcdFrame {h n : Nat} (hh : h < c.halfPanels) (hn : n < 100) (k : Backplane) :
    readDataByte c (Memory.ofBytes (lcdFrame c src base ram)) k.step h n = dataByte (columnByte c src base h k) n := by
  rw [readDataByte, Memory.read_ofBytes, lcdFrame_getD _ _ _ _ k.step_lt hh (by omega) (by omega), backplaneAt_step,
    columnGroup_getD_data _ _ _ (by omega), Nat.div_add_mod]

theorem rawColumnByte_of_lcdFrame {h col : Nat} (hh : h < c.halfPanels) (hcol : col ≤ 95) (k : Backplane) :
    endianCorrect (columnOfData (readDataByte c (Memory.ofBytes (lcdFrame c src base ram)) k.step h) col) k =
      rawColumnByte c src base h col k := by
  rw [columnOfData_dataByte (fun n hn => readDataByte_lcdFrame src base ram hh hn k) hcol, columnByte,
    endianCorrect_endianCorrect]

/-- The byte of the panel row comes back, through either turn of its half-panel (41_converter R59). -/
theorem recoveredByte_lcdFrame {n : Nat} (hn : n < c.halfPanels * 384) :
    recoveredByte c (Memory.ofBytes (lcdFrame c src base ram)) n = src.read (base + n) := by
  have hpanel : n / 384 < c.panels * 2 := by
    unfold Config.halfPanels at hn
    omega
  have hrow : n / 384 / c.panels < 2 := Nat.div_lt_of_lt_mul hpanel
  have hcol : n / 384 % c.panels < c.panels := Nat.mod_lt _ (by omega)
  have hh := chainIndexOf_lt hrow hcol
  have hbase : halfPanelBase c base (halfPanelOf c (chainIndexOf c (n / 384 / c.panels) (n / 384 % c.panels))) =
      base + n / 384 * 384 := by
    obtain ⟨hr, hc⟩ := halfPanelOf_chainIndexOf hrow hcol
    rw [halfPanelBase, hr, hc, Nat.div_add_mod']
  unfold recoveredByte
  dsimp only
  split_ifs with hrot
  · rw [rawColumnByte_of_lcdFrame _ _ _ hh (by omega), rawColumnByte_of_rotated _ _ _ _ _ hrot, rev8_rev8, hbase,
      offset_backplaneOfOffset (by omega)]
    exact congrArg src.read (by omega)
  · rw [rawColumnByte_of_lcdFrame _ _ _ hh (by omega),
      rawColumnByte_of_unrotated _ _ _ _ _ (Bool.eq_false_of_not_eq_true hrot), hbase,
      offset_backplaneOfOffset (by omega)]
    exact congrArg src.read (by omega)

end Recover

/-- Settles O31: LCDBUF[bus] holds the frame of the panel row, and the frame gives the row back. -/
theorem convertedRowIsRecoverable : Obligations.ConvertedRowIsRecoverable := by
  intro s bus side row ram d hinv hbus hside hrow hram hidle
  refine ⟨_, exec_convert_of_legal hbus hside hrow hram hidle, fun n hn => ?_⟩
  rw [s.converted_region_lcd _ _ _ _ (hinv.lcdCount.symm ▸ hbus)]
  exact recoveredByte_lcdFrame _ _ _ hn

/-- Settles O4: each frame is the encoding of the command beside it. -/
theorem specExampleFramesDecode : Obligations.SpecExampleFramesDecode :=
  ⟨decode_encode (i := .convert 0x00 0x01 0x00 0x00) rfl, decode_encode (i := .sbDelete 0x00) rfl,
    decode_encode (i := .merge 0x01) rfl, decode_encode (i := .setDest 0x80) rfl,
    decode_encode (i := .setMaskEn 0x01) rfl, decode_encode (i := .load 2 [0x81, 0x7E]) rfl⟩

end Sys2Proof.Machine
end

section
/-! SUPPORT. The descriptor commands as outcomes (42_scroll_descriptors R61 to R66): which operands are refused, what an
accepted SB_CREATE, SB_UPDATE and SB_DELETE leaves in the slot, its arena and the dynamic layers. -/

namespace Sys2Proof.Machine

/-! ## The operands in the spec's terms -/

theorem createLegal_eq_false_iff {x : SbFields} :
    createLegal x = false ↔ 3 < x.side.toNat ∨ x.intW = 0 ∨ x.intH = 0 := by
  rw [Bool.eq_false_iff, Ne, createLegal_iff]
  simp only [not_and_or, not_le, ne_eq, not_not]

theorem updateLegal_eq_false_iff {x : SbFields} :
    updateLegal x = false ↔ (x.side ≠ 0xFF ∧ 3 < x.side.toNat) ∨ x.intW = 0 ∨ x.intH = 0 := by
  rw [Bool.eq_false_iff, Ne, updateLegal_iff]
  simp only [not_and_or, not_or, not_le, ne_eq, not_not]

theorem State.liveSlot_eq_false_iff {s : State} {i : Nat} :
    s.liveSlot i = false ↔ ¬(i < s.cfg.maxSb ∧ (s.slot i).occupied = true) := by
  rw [Bool.eq_false_iff, Ne, State.liveSlot_iff]

theorem sideField_toNat {side : Byte} (h : side.toNat ≤ 3) : (side.setWidth 2).toNat = side.toNat := by
  rw [BitVec.toNat_setWidth, Nat.mod_eq_of_lt (by omega)]

theorem mergeSide_toNat {side : Byte} (h : side = 0xFF ∨ side.toNat ≤ 3) (old : BitVec 2) :
    (mergeSide side old).toNat = if side = 0xFF then old.toNat else side.toNat := by
  unfold mergeSide keepSide
  split_ifs with hkeep
  · rfl
  · exact sideField_toNat (h.resolve_left hkeep)

theorem resized_iff {old new : Descriptor} : resized old new = true ↔ new.intW ≠ old.intW ∨ new.intH ≠ old.intH := by
  simp [resized]

theorem geometryChanged_iff {old new : Descriptor} :
    geometryChanged old new = true ↔ new.side ≠ old.side ∨ new.dispX ≠ old.dispX ∨ new.dispY ≠ old.dispY ∨
      new.dispW ≠ old.dispW ∨ new.dispH ≠ old.dispH ∨ new.intW ≠ old.intW ∨ new.intH ≠ old.intH := by
  simp only [geometryChanged, Bool.or_eq_true, bne_iff_ne, resized_iff, or_assoc]

/-! ## What every command leaves -/

theorem execState_sameOutside (i : Instr) (s : State) : s.sameOutside (execState i s) :=
  ⟨execState_cfg i s, execState_outside i s⟩

theorem execState_sameBytes (i : Instr) (s : State) {stored : Region → Prop}
    (h : ∀ r, ¬stored r → r.writtenBy i = false) : s.sameBytes (execState i s) stored := fun r hr j => by
  rw [State.readByte, execState_region_of_unwritten (h r hr), State.readByte]

theorem State.readByte_of_region_nil {s : State} {r : Region} (h : s.region r = []) (j : Nat) :
    s.readByte r j = 0 := by
  rw [State.readByte, h, Memory.read_nil]

/-! ## SB_CREATE (R64) -/

theorem Config.maxSb_le_of_admitted {c : Config} (h : c.admitted = true) : c.maxSb ≤ 127 := by
  simp only [Config.admitted, Bool.and_eq_true, decide_eq_true_eq] at h
  omega

section Create

variable {s : State} {x : SbFields} {i : Nat}

theorem createState_of_illegal (h : createLegal x = false) : createState x s = s.raise .badOperand := if_pos h

theorem createState_of_full (hlegal : createLegal x = true) (hfull : s.lowestFree = none) :
    createState x s = s.raise .poolFull := by
  simp [createState, hlegal, hfull]

theorem createState_of_tooLarge (hlegal : createLegal x = true) (hfree : s.lowestFree = some i)
    (hsize : s.cfg.slotBytes < bufSizeOf x.intW.toNat x.intH.toNat) : createState x s = s.raise .allocFail := by
  simp [createState, hlegal, hfree, hsize]

theorem createState_of_fits (hlegal : createLegal x = true) (hfree : s.lowestFree = some i)
    (hsize : bufSizeOf x.intW.toNat x.intH.toNat ≤ s.cfg.slotBytes) :
    createState x s = ((s.setSlot i (createdSlot x)).setRegion (.arena i) []).finish (BitVec.ofNat 32 i) := by
  simp [createState, hlegal, hfree, Nat.not_lt.mpr hsize]

end Create

/-- Settles O34: the slot is `createdSlot`; nothing else but its arena is written. -/
theorem createFillsTheLowestFreeSlot : Obligations.CreateFillsTheLowestFreeSlot := by
  intro s x i hinv hside hw hh hi hfree hlow hsize
  have hi' : i < s.slots.length := hinv.slotCount ▸ hi
  have ht := createState_of_fits (createLegal_iff.mpr ⟨hside, hw, hh⟩) (State.lowestFree_eq_some hi' hfree hlow) hsize
  have hslot : (createState x s).slot i = createdSlot x := by
    rw [ht, State.finish_slot, State.setRegion_slot, State.slot_setSlot_same _ _ hi']
  have harena : (createState x s).region (.arena i) = [] := by
    rw [ht, State.finish_region, State.region_setRegion_same]
    exact hi.trans_eq hinv.arenaCount.symm
  obtain ⟨hdest, hmask⟩ := createState_dest_maskEn x s
  refine ⟨_, exec_eq _ s, ?status, ?result, ?fields, fun j hj => ?others, State.readByte_of_region_nil harena,
    execState_sameOutside _ s, hdest, hmask, fun r hr j => ?bytes⟩
  case status => rw [execState, ht, State.finish_status, Status.code]
  case result =>
    have hcount := Config.maxSb_le_of_admitted hinv.cfgOk
    rw [execState, ht, State.finish_result, BitVec.toNat_ofNat, Nat.mod_eq_of_lt (by omega)]
  case fields =>
    simp only [execState, hslot]
    exact ⟨rfl, sideField_toNat hside, rfl, rfl, rfl, rfl, rfl, rfl, bufSizeOf_toNat _ _, reduceOffset_toNat _ _,
      reduceOffset_toNat _ _, rfl, rfl, rfl, rfl, rfl, rfl⟩
  case others => rw [execState, ht, State.finish_slot, State.setRegion_slot, State.slot_setSlot_other _ _ hj]
  case bytes =>
    rw [State.readByte, execState, ht, State.finish_region, State.region_setRegion_other _ _ hr, State.setSlot_region,
      State.readByte]

/-- Settles O35: operands before the pool, the pool before the size. -/
theorem createRefusals : Obligations.CreateRefusals := by
  intro s x hinv bad full
  have hlegal (hgood : ¬bad) : createLegal x = true := by
    rwa [← Bool.not_eq_false, createLegal_eq_false_iff]
  have hfull : s.lowestFree = none ↔ full := by rw [State.lowestFree_eq_none, hinv.slotCount]
  refine ⟨fun hbad => ?_, fun hgood hf => ?_, fun hgood hf hsize => ?_⟩ <;> rw [exec_eq, execState]
  · rw [createState_of_illegal (createLegal_eq_false_iff.mpr hbad)]
    rfl
  · rw [createState_of_full (hlegal hgood) (hfull.mpr hf)]
    rfl
  · obtain ⟨i, hi⟩ := Option.ne_none_iff_exists'.mp (mt hfull.mp hf)
    rw [createState_of_tooLarge (hlegal hgood) hi hsize]
    rfl

/-! ## SB_DELETE (R66) -/

section Delete

variable {s : State} {id : Byte}

theorem deleteState_of_notLive (h : s.liveSlot id.toNat = false) : deleteState id s = s.raise .invalidRef := if_pos h

theorem deleteState_of_named (hlive : s.liveSlot id.toNat = true) (hdest : s.dest.toNat = 0x80 + id.toNat) :
    deleteState id s = s.raise .inUse := by
  simp [deleteState, hlive, hdest]

theorem deleteState_of_unnamed (hlive : s.liveSlot id.toNat = true) (hdest : s.dest.toNat ≠ 0x80 + id.toNat) :
    deleteState id s = (((s.setSlot id.toNat Descriptor.free).setRegion (.arena id.toNat) []).zeroDyn).finish 0 := by
  simp [deleteState, hlive, hdest]

end Delete

/-- SB_DELETE and SB_UPDATE write the arena of the slot they name and the dynamic layers, no other region
(20_memory R24). -/
theorem Region.not_writtenBy_sbDelete_sbUpdate {r : Region} {id : Byte}
    (h : ¬(r = .arena id.toNat ∨ ∃ d, r = .dyn d)) :
    r.writtenBy (.sbDelete id) = false ∧ ∀ x, r.writtenBy (.sbUpdate id x) = false := by
  obtain ⟨harena, hdyn⟩ := not_or.mp h
  cases r with
  | arena i =>
    have hi : (id.toNat == i) = false := beq_false_of_ne fun hi => harena (hi ▸ rfl)
    exact ⟨hi, fun _ => hi⟩
  | dyn d => exact absurd ⟨d, rfl⟩ hdyn
  | _ => exact ⟨rfl, fun _ => rfl⟩

/-- Settles O39: the slot takes its reset values, its arena and both dynamic layers are emptied. -/
theorem deleteFreesTheSlot : Obligations.DeleteFreesTheSlot := by
  intro s id hinv hi hocc hunnamed
  have ht := deleteState_of_unnamed (State.liveSlot_iff.mpr ⟨hi, hocc⟩) hunnamed
  have harena : (deleteState id s).region (.arena id.toNat) = [] := by
    rw [ht, State.finish_region, State.zeroDyn_region_other (r := .arena _) _ nofun, State.region_setRegion_same]
    exact hi.trans_eq hinv.arenaCount.symm
  have hdyn (d : Side) : (deleteState id s).region (.dyn d) = [] := by
    rw [ht, State.finish_region, State.zeroDyn_region_dyn]
  obtain ⟨hdest, hmask⟩ := deleteState_dest_maskEn id s
  refine ⟨_, exec_eq _ s, ?status, ?result, ?freed, fun j hj => ?others, State.readByte_of_region_nil harena,
    fun d => State.readByte_of_region_nil (hdyn d), execState_sameOutside _ s, hdest, hmask,
    execState_sameBytes _ s fun _ hr => (Region.not_writtenBy_sbDelete_sbUpdate hr).1⟩ <;> rw [execState, ht]
  case status => rfl
  case result => rfl
  case freed =>
    rw [State.finish_slot, State.zeroDyn_slot, State.setRegion_slot,
      State.slot_setSlot_same _ _ (hinv.slotCount.symm ▸ hi)]
  case others => rw [State.finish_slot, State.zeroDyn_slot, State.setRegion_slot, State.slot_setSlot_other _ _ hj]

/-- Settles O40: the reference is checked before DEST. -/
theorem deleteRefusals : Obligations.DeleteRefusals := by
  intro s id live
  refine ⟨fun hdead => ?_, fun hlive hdest => ?_⟩ <;> rw [exec_eq, execState]
  · rw [deleteState_of_notLive (State.liveSlot_eq_false_iff.mpr hdead)]
    rfl
  · rw [deleteState_of_named (State.liveSlot_iff.mpr hlive) hdest]
    rfl

/-! ## SB_UPDATE (R63, R65) -/

/-- What an accepted SB_UPDATE leaves: the slot replaced, both dynamic layers 0 when the geometry changed. -/
def State.updated (s : State) (i : Nat) (new : Descriptor) : State :=
  (if geometryChanged (s.slot i) new then (s.replaceSlot i new).zeroDyn else s.replaceSlot i new).finish 0

section Updated

variable {s : State} {i : Nat} {new : Descriptor}

theorem State.replaceSlot_slot (j : Nat) : (s.replaceSlot i new).slot j = (s.setSlot i new).slot j := by
  unfold State.replaceSlot
  split_ifs
  · rw [State.setRegion_slot]
  · rfl

theorem State.updated_slot (j : Nat) : (s.updated i new).slot j = (s.setSlot i new).slot j := by
  rw [State.updated, State.finish_slot]
  split_ifs
  · rw [State.zeroDyn_slot, State.replaceSlot_slot]
  · exact State.replaceSlot_slot j

theorem State.updated_region_arena :
    (s.updated i new).region (.arena i) = (s.replaceSlot i new).region (.arena i) := by
  rw [State.updated, State.finish_region]
  split_ifs
  · exact State.zeroDyn_region_other _ nofun
  · rfl

theorem State.updated_region_arena_of_resized (hi : i < s.arena.length) (h : resized (s.slot i) new = true) :
    (s.updated i new).region (.arena i) = [] := by
  rw [State.updated_region_arena, State.replaceSlot, if_pos h, State.region_setRegion_same]
  exact hi

theorem State.updated_region_arena_of_not_resized (h : ¬resized (s.slot i) new = true) :
    (s.updated i new).region (.arena i) = s.region (.arena i) := by
  rw [State.updated_region_arena, State.replaceSlot, if_neg h, State.setSlot_region]

theorem State.updated_region_dyn_of_geometry (d : Side) (h : geometryChanged (s.slot i) new = true) :
    (s.updated i new).region (.dyn d) = [] := by
  rw [State.updated, if_pos h, State.finish_region, State.zeroDyn_region_dyn]

theorem State.updated_region_dyn_of_same_geometry (d : Side) (h : ¬geometryChanged (s.slot i) new = true) :
    (s.updated i new).region (.dyn d) = s.region (.dyn d) := by
  rw [State.updated, if_neg h, State.finish_region, State.replaceSlot_region_other (r := .dyn d) _ _ nofun]

theorem State.setSlot_slot_self (s : State) (i : Nat) : s.setSlot i (s.slot i) = s := by
  have hset : s.slots.set i (s.slot i) = s.slots := by
    rcases Nat.lt_or_ge i s.slots.length with hi | hi
    · simp [State.slot, List.getD_eq_getElem?_getD, hi]
    · exact List.set_eq_of_length_le hi
  rw [State.setSlot, hset]

/-- A slot replaced by itself is neither resized nor of another geometry. -/
theorem State.updated_slot_self (s : State) (i : Nat) : s.updated i (s.slot i) = s.finish 0 := by
  have hres : ¬resized (s.slot i) (s.slot i) = true := by simp [resized_iff]
  have hgeo : ¬geometryChanged (s.slot i) (s.slot i) = true := by simp [geometryChanged_iff]
  rw [State.updated, if_neg hgeo, State.replaceSlot, if_neg hres, State.setSlot_slot_self]

end Updated

section Update

variable {s : State} {id : Byte} {x : SbFields}

theorem updateState_of_illegal (h : updateLegal x = false) : updateState id x s = s.raise .badOperand := if_pos h

theorem updateState_of_notLive (hlegal : updateLegal x = true) (hlive : s.liveSlot id.toNat = false) :
    updateState id x s = s.raise .invalidRef := by
  simp [updateState, hlegal, hlive]

theorem updateState_of_tooLarge (hlegal : updateLegal x = true) (hlive : s.liveSlot id.toNat = true)
    (hres : resized (s.slot id.toNat) (updatedSlot x (s.slot id.toNat)) = true)
    (hsize : s.cfg.slotBytes < bufSizeOf (mergeHalf x.intW (s.slot id.toNat).intW).toNat
      (mergeHalf x.intH (s.slot id.toNat).intH).toNat) : updateState id x s = s.raise .allocFail := by
  simp only [updateState, hlegal, hlive, Bool.true_eq_false, if_false]
  exact if_pos ⟨hres, hsize⟩

theorem updateState_of_fits (hlegal : updateLegal x = true) (hlive : s.liveSlot id.toNat = true)
    (hsize : resized (s.slot id.toNat) (updatedSlot x (s.slot id.toNat)) = true →
      bufSizeOf (mergeHalf x.intW (s.slot id.toNat).intW).toNat (mergeHalf x.intH (s.slot id.toNat).intH).toNat ≤
        s.cfg.slotBytes) :
    updateState id x s = s.updated id.toNat (updatedSlot x (s.slot id.toNat)) := by
  simp only [updateState, hlegal, hlive, Bool.true_eq_false, if_false]
  exact if_neg fun ⟨hres, hlarge⟩ => Nat.not_lt.mpr (hsize hres) hlarge

end Update

/-- Settles O36: the slot is `updatedSlot`; the arena follows `resized`, the dynamic layers `geometryChanged`. -/
theorem updateMergesTheWrittenFields : Obligations.UpdateMergesTheWrittenFields := by
  intro s id x hinv hi hocc hside hw hh old pick pickStep w h resize hsize
  have ht := updateState_of_fits (updateLegal_iff.mpr ⟨hside, hw, hh⟩) (State.liveSlot_iff.mpr ⟨hi, hocc⟩)
    fun hres => hsize (resized_iff.mp hres)
  have hslot : (updateState id x s).slot id.toNat = updatedSlot x old := by
    rw [ht, State.updated_slot, State.slot_setSlot_same _ _ (hinv.slotCount.symm ▸ hi)]
  obtain ⟨hdest, hmask⟩ := updateState_dest_maskEn id x s
  refine ⟨_, exec_eq _ s, ?status, ?result, ?fields, fun j hj => ?others, execState_sameOutside _ s, hdest, hmask,
    execState_sameBytes _ s fun _ hr => (Region.not_writtenBy_sbDelete_sbUpdate hr).2 x⟩
  case status =>
    rw [execState, ht]
    rfl
  case result =>
    rw [execState, ht]
    rfl
  case others => rw [execState, ht, State.updated_slot, State.slot_setSlot_other _ _ hj]
  case fields =>
    simp only [execState, hslot]
    refine ⟨hocc, mergeSide_toNat hside _, rfl, rfl, rfl, rfl, rfl, rfl, bufSizeOf_toNat _ _, reduceOffset_toNat _ _,
      reduceOffset_toNat _ _, rfl, rfl, rfl, rfl, rfl, rfl, fun hres => ?resized, fun hres j => ?kept,
      fun hgeo d => ?zeroed, fun hgeo d j => ?same⟩ <;> rw [ht]
    case resized =>
      exact State.readByte_of_region_nil
        (State.updated_region_arena_of_resized (hinv.arenaCount.symm ▸ hi) (resized_iff.mpr hres))
    case kept =>
      rw [State.readByte, State.updated_region_arena_of_not_resized (mt resized_iff.mp hres), State.readByte]
    case zeroed =>
      exact State.readByte_of_region_nil (State.updated_region_dyn_of_geometry d (geometryChanged_iff.mpr hgeo))
    case same =>
      rw [State.readByte, State.updated_region_dyn_of_same_geometry d (mt geometryChanged_iff.mp hgeo), State.readByte]

/-- Settles O37: operands before the reference, the reference before the size of a resize. -/
theorem updateRefusals : Obligations.UpdateRefusals := by
  intro s id x bad live w h
  have hlegal (hgood : ¬bad) : updateLegal x = true := by
    rwa [← Bool.not_eq_false, updateLegal_eq_false_iff]
  refine ⟨fun hbad => ?_, fun hgood hdead => ?_, fun hgood hlive hres hsize => ?_⟩ <;> rw [exec_eq, execState]
  · rw [updateState_of_illegal (updateLegal_eq_false_iff.mpr hbad)]
    rfl
  · rw [updateState_of_notLive (hlegal hgood) (State.liveSlot_eq_false_iff.mpr hdead)]
    rfl
  · rw [updateState_of_tooLarge (hlegal hgood) (State.liveSlot_iff.mpr hlive) (resized_iff.mpr hres) hsize]
    rfl

theorem reduceOffset_of_lt {off dim : Half} (h : off.toNat < dim.toNat) : reduceOffset off dim = off :=
  BitVec.eq_of_toNat_eq (by rw [reduceOffset_toNat, Nat.mod_eq_of_lt h])

/-- A live slot's size and offsets are what SB_UPDATE computes again from its fields (10_state R16). -/
theorem updatedSlot_keepAll {c : Config} {e : Descriptor} (h : e.live c) : updatedSlot keepAll e = e := by
  obtain ⟨-, -, -, -, ⟨hx, -⟩, hy, -⟩ := Descriptor.live_iff_axes.mp h
  have hbuf : (updatedSlot keepAll e).bufSize = e.bufSize := updatedSlot_bufSize h (resized_eq_false_iff.mpr ⟨rfl, rfl⟩)
  calc updatedSlot keepAll e
      = { e with
          bufSize := (updatedSlot keepAll e).bufSize
          offX := reduceOffset e.offX e.intW
          offY := reduceOffset e.offY e.intH } := rfl
    _ = e := by rw [hbuf, reduceOffset_of_lt hx, reduceOffset_of_lt hy]

/-- Settles O38: every field of a live slot merges to the value it has. -/
theorem updateOfAllSentinelsChangesNothing : Obligations.UpdateOfAllSentinelsChangesNothing := by
  intro s id hinv hi hocc
  have hsame : updatedSlot keepAll (s.slot id.toNat) = s.slot id.toNat :=
    updatedSlot_keepAll ((hinv.sound.slotsOk _ hi).1 hocc)
  have hfits : resized (s.slot id.toNat) (updatedSlot keepAll (s.slot id.toNat)) = false :=
    resized_eq_false_iff.mpr ⟨rfl, rfl⟩
  rw [exec_eq, execState, updateState_of_fits (by decide) (State.liveSlot_iff.mpr ⟨hi, hocc⟩) (by simp [hfits]), hsame,
    State.updated_slot_self]
  rfl

end Sys2Proof.Machine
end

section
/-! SUPPORT. MERGE: the sides it names and the display buffers it leaves (43_compositor R75 to R77). -/

namespace Sys2Proof.Machine

/-! ## The sides a MERGE names (30_encoding R41) -/

theorem mergeSides?_eq_none {side : Byte} (h : side = 0x00 ∨ 4 ≤ side.toNat) : mergeSides? side = none := by
  revert side
  decide

theorem mergeSides?_isSome {side : Byte} (h : side = 0x01 ∨ side = 0x02 ∨ side = 0x03) :
    ∃ ds, mergeSides? side = some ds ∧ (Side.a ∈ ds ↔ side = 0x01 ∨ side = 0x03) ∧
      (Side.b ∈ ds ↔ side = 0x02 ∨ side = 0x03) := by
  rcases h with rfl | rfl | rfl
  · exact ⟨[.a], rfl, by decide⟩
  · exact ⟨[.b], rfl, by decide⟩
  · exact ⟨[.a, .b], rfl, by decide⟩

/-! ## The state a MERGE leaves -/

theorem mergeState_of_none {side : Byte} (h : mergeSides? side = none) (s : State) :
    mergeState side s = s.raise .badOperand := by
  rw [mergeState, h]

theorem Sided.get_foldl_set {α : Type} (g : Side → α) (ds : List Side) (p : Sided α) (d : Side) :
    (ds.foldl (fun p d => p.set d (g d)) p).get d = if d ∈ ds then g d else p.get d := by
  induction ds generalizing p with
  | nil => rfl
  | cons d' ds ih =>
    rw [List.foldl_cons, ih, Sided.get_set]
    by_cases hmem : d ∈ ds
    · rw [if_pos hmem, if_pos (List.mem_cons_of_mem _ hmem)]
    · by_cases hd : d = d' <;> simp [hmem, hd]

theorem State.foldl_setRegion_disp (g : Side → Memory) (ds : List Side) (s : State) :
    ds.foldl (fun t d => t.setRegion (.disp d) (g d)) s =
      { s with disp := ds.foldl (fun p d => p.set d (g d)) s.disp } := by
  induction ds generalizing s with
  | nil => rfl
  | cons d ds ih => exact ih _

/-- The display buffers after a MERGE of the sides `ds`. -/
def mergedSides (s : State) (ds : List Side) : Sided Memory := ds.foldl (fun p d => p.set d (mergedDisp s d)) s.disp

theorem mergedSides_get (s : State) (ds : List Side) (d : Side) :
    (mergedSides s ds).get d = if d ∈ ds then mergedDisp s d else s.disp.get d :=
  Sided.get_foldl_set (mergedDisp s) ds s.disp d

/-- A MERGE writes the display buffers of its sides and no other field but STATUS and RESULT. -/
theorem mergeState_of_sides {side : Byte} {ds : List Side} (h : mergeSides? side = some ds) (s : State) :
    mergeState side s = ({ s with disp := mergedSides s ds } : State).finish 0 := by
  rw [mergeState, h]
  exact congrArg (State.finish · 0) (State.foldl_setRegion_disp (mergedDisp s) ds s)

/-- Each byte is composed from the three layers' bytes at its index (R75). -/
theorem read_mergedDisp {s : State} (d : Side) {j : Nat} (hj : j < s.cfg.bitmapBytes) :
    (mergedDisp s d).read j =
      mergeByte s.maskEn s.cfg.maskPolarity (s.readByte (.static d) j) (s.readByte (.mask d) j)
        (s.readByte (.dyn d) j) := by
  rw [mergedDisp, Memory.read_ofFn, if_pos hj]
  rfl

/-- What MERGE composes is read from the parameters, MASK_EN, STATIC, MASK and DYN alone. -/
theorem mergedDisp_congr {s s' : State} (hcfg : s'.cfg = s.cfg) (hen : s'.maskEn = s.maskEn)
    (hstatic : s'.static = s.static) (hmask : s'.mask = s.mask) (hdyn : s'.dyn = s.dyn) :
    mergedDisp s' = mergedDisp s := by
  funext d
  rw [mergedDisp, mergedDisp, hcfg, hen, hstatic, hmask, hdyn]

theorem mergeState_mergeState (side : Byte) (s : State) :
    mergeState side (mergeState side s) = mergeState side s := by
  cases hds : mergeSides? side with
  | none => rw [mergeState_of_none hds, mergeState_of_none hds]; rfl
  | some ds =>
    have hsides : mergedSides (mergeState side s) ds = mergedSides s ds := by
      refine Sided.ext_get fun d => ?_
      have hsame : mergedDisp (mergeState side s) = mergedDisp s := by
        rw [mergeState_of_sides hds]
        exact mergedDisp_congr rfl rfl rfl rfl rfl
      rw [mergedSides_get, hsame, mergeState_of_sides hds, State.finish_disp, mergedSides_get]
      split_ifs <;> rfl
    rw [mergeState_of_sides hds (mergeState side s), hsides, mergeState_of_sides hds s]
    rfl

/-! ## The byte composition (R75) -/

theorem mergeByte_disabled (p : MaskPolarity) (st mk dy : Byte) : mergeByte 0 p st mk dy = st := rfl

theorem mergeByte_showDynamic (st mk dy : Byte) :
    mergeByte 1 .showDynamic st mk dy = ((st &&& (0xFF ^^^ mk)) ||| (dy &&& mk)) := by
  rw [show 0xFF ^^^ mk = ~~~mk from BitVec.allOnes_xor]
  rfl

theorem mergeByte_showStatic (st mk dy : Byte) :
    mergeByte 1 .showStatic st mk dy = ((st &&& mk) ||| (dy &&& (0xFF ^^^ mk))) := by
  rw [show 0xFF ^^^ mk = ~~~mk from BitVec.allOnes_xor]
  rfl

/-- Settles O51: such a side byte names no side. -/
theorem mergeRefusesOtherSides : Obligations.MergeRefusesOtherSides := by
  intro s side h
  rw [exec_eq, execState, mergeState_of_none (mergeSides?_eq_none h)]
  rfl

/-- Settles O50: a named side's buffer is `mergedDisp`, composed byte by byte; `mergeState_of_sides` is the frame. -/
theorem mergeComposesTheLayers : Obligations.MergeComposesTheLayers := by
  intro s side hside names
  obtain ⟨ds, hds, ha, hb⟩ := mergeSides?_isSome hside
  have hnames (d : Side) : names d ↔ d ∈ ds := by
    cases d
    · exact ha.symm
    · exact hb.symm
  have ht : execState (.merge side) s = ({ s with disp := mergedSides s ds } : State).finish 0 :=
    mergeState_of_sides hds s
  refine ⟨_, exec_eq _ s, ?_⟩
  rw [ht]
  refine ⟨rfl, rfl, fun d hd j hj => ?bytes, rfl, ⟨rfl, rfl, rfl, rfl⟩, rfl, rfl, fun r hr j => ?frame⟩
  case bytes =>
    have hmerged : (mergedSides s ds).get d = mergedDisp s d := by rw [mergedSides_get, if_pos ((hnames d).mp hd)]
    have hread := (congrArg (Memory.read · j) hmerged).trans (read_mergedDisp d hj)
    refine ⟨fun hen => ?_, fun hen hp => ?_, fun hen hp => ?_⟩ <;> refine hread.trans ?_ <;> rw [hen]
    · exact mergeByte_disabled ..
    · rw [hp, mergeByte_showDynamic]
    · rw [hp, mergeByte_showStatic]
  case frame =>
    cases r with
    | disp d =>
      have hd : d ∉ ds := fun hmem => hr ⟨d, (hnames d).mpr hmem, rfl⟩
      have hkept : (mergedSides s ds).get d = s.disp.get d := by rw [mergedSides_get, if_neg hd]
      exact congrArg (Memory.read · j) hkept
    | _ => rfl

/-- Settles O52: a MERGE reads nothing that a MERGE writes. -/
theorem mergeDependsOnlyOnTheLayers : Obligations.MergeDependsOnlyOnTheLayers := by
  refine ⟨fun s side => ⟨mergeState side s, rfl, ?_⟩, fun s s' hcfg hen hstatic hmask hdyn => ?_⟩
  · rw [runInOrder_cons, runInOrder_cons]
    exact congrArg some (mergeState_mergeState side s)
  · refine ⟨_, _, exec_eq _ s, exec_eq _ s', ?_⟩
    have hboth (u : State) : (execState (.merge 0x03) u).disp = ⟨mergedDisp u .a, mergedDisp u .b⟩ := rfl
    rw [hboth, hboth, mergedDisp_congr hcfg hen hstatic hmask hdyn]

end Sys2Proof.Machine
end

section
/-! SUPPORT. ADVANCE: what it does to one axis, to a slot, and to a run of ADVANCE frames (43_compositor R68, R69,
R77). -/

namespace Sys2Proof.Machine

/-! ## One axis (R68) -/

section Axis

variable {dim off speed step tick : Half}

theorem advanceTick_frozen (hs : speed = 0) : advanceTick speed tick = tick := if_pos hs

theorem advanceOffset_frozen {n : Nat} (hs : speed = 0) : advanceOffset n off speed step tick = off := if_pos hs

theorem advanceTick_counting (hs : speed ≠ 0) (h : tick.toNat + 1 < speed.toNat) :
    (advanceTick speed tick).toNat = tick.toNat + 1 := by
  have hmax := speed.isLt
  rw [advanceTick, if_neg hs, if_neg (by omega), BitVec.toNat_ofNat, Nat.mod_eq_of_lt (by omega)]

theorem advanceOffset_counting {n : Nat} (hs : speed ≠ 0) (h : tick.toNat + 1 < speed.toNat) :
    advanceOffset n off speed step tick = off := by
  rw [advanceOffset, if_neg hs, if_neg (by omega)]

theorem advanceTick_due (hs : speed ≠ 0) (h : speed.toNat ≤ tick.toNat + 1) : advanceTick speed tick = 0 := by
  rw [advanceTick, if_neg hs, if_pos h]

theorem emod_cast (a : Int) {m : Nat} (h : 1 ≤ m) : (emod a m : Int) = a % m :=
  Int.toNat_of_nonneg (Int.emod_nonneg a (by omega))

theorem advanceOffset_due (hdim : 1 ≤ dim.toNat) (hs : speed ≠ 0) (h : speed.toNat ≤ tick.toNat + 1) :
    ((advanceOffset dim.toNat off speed step tick).toNat : Int) = ((off.toNat : Int) + step.toInt) % (dim.toNat : Int) := by
  have hlt := emod_lt (off.toNat + step.toInt) hdim
  have hmax := dim.isLt
  rw [advanceOffset, if_neg hs, if_pos h, BitVec.toNat_ofNat, Nat.mod_eq_of_lt (by omega), emod_cast _ hdim]

/-- The three cases of `AdvanceAxis`: frozen, counting up, moving. -/
theorem advanceAxis_spec (hdim : 1 ≤ dim.toNat) :
    (speed = 0 → advanceOffset dim.toNat off speed step tick = off ∧ advanceTick speed tick = tick) ∧
    (speed ≠ 0 → tick.toNat + 1 < speed.toNat →
      advanceOffset dim.toNat off speed step tick = off ∧ (advanceTick speed tick).toNat = tick.toNat + 1) ∧
    (speed ≠ 0 → speed.toNat ≤ tick.toNat + 1 → advanceTick speed tick = 0 ∧
      ((advanceOffset dim.toNat off speed step tick).toNat : Int) =
        ((off.toNat : Int) + step.toInt) % (dim.toNat : Int)) :=
  ⟨fun hs => ⟨advanceOffset_frozen hs, advanceTick_frozen hs⟩,
    fun hs h => ⟨advanceOffset_counting hs h, advanceTick_counting hs h⟩,
    fun hs h => ⟨advanceTick_due hs h, advanceOffset_due hdim hs h⟩⟩

end Axis

/-- The offset and the counter of one axis over a run of ADVANCE commands. -/
structure AxisRun (dim speed step : Half) (off tick : Nat → Half) : Prop where
  off_succ : ∀ n, off (n + 1) = advanceOffset dim.toNat (off n) speed step (tick n)
  tick_succ : ∀ n, tick (n + 1) = advanceTick speed (tick n)

section AxisRun

variable {dim speed step : Half} {off tick : Nat → Half}

theorem AxisRun.below_speed (h : AxisRun dim speed step off tick) (hs : speed ≠ 0) (h0 : tick 0 = 0) {n : Nat}
    (hn : n < speed.toNat) : off n = off 0 ∧ (tick n).toNat = n := by
  induction n with
  | zero => exact ⟨rfl, by rw [h0]; rfl⟩
  | succ n ih =>
    obtain ⟨hoff, htick⟩ := ih (by omega)
    have hcount : (tick n).toNat + 1 < speed.toNat := by omega
    rw [h.off_succ, h.tick_succ, advanceOffset_counting hs hcount, advanceTick_counting hs hcount, hoff, htick]
    exact ⟨rfl, rfl⟩

theorem AxisRun.at_speed (h : AxisRun dim speed step off tick) (hdim : 1 ≤ dim.toNat) (hs : speed ≠ 0)
    (h0 : tick 0 = 0) {n : Nat} (hn : n = speed.toNat) :
    tick n = 0 ∧ ((off n).toNat : Int) = (((off 0).toNat : Int) + step.toInt) % (dim.toNat : Int) := by
  obtain ⟨k, rfl⟩ : ∃ k, n = k + 1 := ⟨n - 1, by have := half_pos hs; omega⟩
  obtain ⟨hoff, htick⟩ := h.below_speed hs h0 (n := k) (by omega)
  have hdue : speed.toNat ≤ (tick k).toNat + 1 := by omega
  rw [h.off_succ, h.tick_succ, advanceTick_due hs hdue, advanceOffset_due hdim hs hdue, hoff]
  exact ⟨rfl, rfl⟩

end AxisRun

/-! ## One slot -/

theorem Descriptor.advance_of_occupied {e : Descriptor} (h : e.occupied = true) :
    e.advance = { e with
      offX := advanceOffset e.intW.toNat e.offX e.speedX e.stepX e.tickX
      tickX := advanceTick e.speedX e.tickX
      offY := advanceOffset e.intH.toNat e.offY e.speedY e.stepY e.tickY
      tickY := advanceTick e.speedY e.tickY } := if_pos h

theorem Descriptor.advance_of_free {e : Descriptor} (h : e.occupied = false) : e.advance = e := if_neg (by simp [h])

/-- The fields no ADVANCE writes: the moving ones blanked. -/
def Descriptor.still (e : Descriptor) : Descriptor := { e with offX := 0, offY := 0, tickX := 0, tickY := 0 }

theorem Descriptor.of_still_eq {e e' : Descriptor} (h : e'.still = e.still) :
    e'.occupied = e.occupied ∧ e'.intW = e.intW ∧ e'.intH = e.intH ∧ e'.speedX = e.speedX ∧ e'.speedY = e.speedY ∧
      e'.stepX = e.stepX ∧ e'.stepY = e.stepY :=
  have hfield {α : Type} (f : Descriptor → α) : f e'.still = f e.still := congrArg f h
  ⟨hfield Descriptor.occupied, hfield Descriptor.intW, hfield Descriptor.intH, hfield Descriptor.speedX,
    hfield Descriptor.speedY, hfield Descriptor.stepX, hfield Descriptor.stepY⟩

theorem Descriptor.advance_still (e : Descriptor) : e.advance.still = e.still := by
  unfold Descriptor.advance
  split_ifs <;> rfl

theorem Descriptor.iterate_advance_still (e : Descriptor) (n : Nat) : (Descriptor.advance^[n] e).still = e.still := by
  induction n with
  | zero => rfl
  | succ n ih => rw [Function.iterate_succ_apply', Descriptor.advance_still, ih]

section Iterate

variable {e : Descriptor} (h : e.occupied = true)
include h

theorem Descriptor.iterate_advance_succ (n : Nat) :
    let e' := Descriptor.advance^[n] e
    Descriptor.advance^[n + 1] e = { e' with
      offX := advanceOffset e.intW.toNat e'.offX e.speedX e.stepX e'.tickX
      tickX := advanceTick e.speedX e'.tickX
      offY := advanceOffset e.intH.toNat e'.offY e.speedY e.stepY e'.tickY
      tickY := advanceTick e.speedY e'.tickY } := by
  intro e'
  obtain ⟨hocc, hW, hH, hspeedX, hspeedY, hstepX, hstepY⟩ := Descriptor.of_still_eq (e.iterate_advance_still n)
  rw [Function.iterate_succ_apply', Descriptor.advance_of_occupied (hocc.trans h), hW, hH, hspeedX, hspeedY, hstepX,
    hstepY]

theorem Descriptor.axisRunX : AxisRun e.intW e.speedX e.stepX (fun n => (Descriptor.advance^[n] e).offX)
    fun n => (Descriptor.advance^[n] e).tickX where
  off_succ n := congrArg Descriptor.offX (Descriptor.iterate_advance_succ h n)
  tick_succ n := congrArg Descriptor.tickX (Descriptor.iterate_advance_succ h n)

theorem Descriptor.axisRunY : AxisRun e.intH e.speedY e.stepY (fun n => (Descriptor.advance^[n] e).offY)
    fun n => (Descriptor.advance^[n] e).tickY where
  off_succ n := congrArg Descriptor.offY (Descriptor.iterate_advance_succ h n)
  tick_succ n := congrArg Descriptor.tickY (Descriptor.iterate_advance_succ h n)

end Iterate

/-! ## The state -/

theorem execState_advance_slot (s : State) (i : Nat) : (execState .advance s).slot i = (s.slot i).advance := by
  rw [execState, advanceState, State.finish_slot, State.slot_advance]

/-- An occupied slot of a state with the invariant is live, whatever its index: beyond the table every slot is free. -/
theorem State.Inv.live_of_occupied {s : State} (h : s.Inv) {i : Nat} (ho : (s.slot i).occupied = true) :
    (s.slot i).live s.cfg := by
  rcases Nat.lt_or_ge i s.slots.length with hi | hi
  · exact (h.slotsOk _ (s.slot_mem hi)).1 ho
  · rw [s.slot_beyond hi] at ho
    exact absurd ho (by decide)

/-- Settles O41: each axis of an occupied slot by `advanceAxis_spec`, everything else by the frame of ADVANCE. -/
theorem advanceMovesOccupiedSlots : Obligations.AdvanceMovesOccupiedSlots := by
  intro s hinv
  refine ⟨_, exec_eq _ s, rfl, rfl, fun i hfree => ?free, fun i hocc => ?occupied, execState_sameOutside _ s, rfl, rfl,
    execState_sameBytes _ s fun r _ => by cases r <;> rfl⟩
  case free => rw [execState_advance_slot, Descriptor.advance_of_free hfree]
  case occupied =>
    obtain ⟨hW, hH, -⟩ := hinv.live_of_occupied hocc
    rw [execState_advance_slot, Descriptor.advance_of_occupied hocc]
    exact ⟨advanceAxis_spec hW, advanceAxis_spec hH, rfl⟩

theorem runInOrder_replicate (i : Instr) (n : Nat) (s : State) :
    runInOrder (List.replicate n i) s = some ((execState i)^[n] s) := by
  induction n generalizing s with
  | zero => rfl
  | succ n ih => rw [List.replicate_succ, runInOrder_cons, ih, Function.iterate_succ_apply]

theorem iterate_advance_slot (s : State) (n i : Nat) :
    ((execState .advance)^[n] s).slot i = Descriptor.advance^[n] (s.slot i) := by
  induction n with
  | zero => rfl
  | succ n ih => rw [Function.iterate_succ_apply', Function.iterate_succ_apply', execState_advance_slot, ih]

/-- Settles O42: the frames run as commands, which move every slot on its own; each axis by induction on the number of
commands. -/
theorem offsetMovesOncePerSpeedTicks : Obligations.OffsetMovesOncePerSpeedTicks := by
  intro s i n es hinv hocc hin
  obtain ⟨t, horder, hrun⟩ := issuedCommandsRunInOrder (List.replicate n .advance) s es
    (by simp [Instr.wellFormed]) hinv.cfgOk (by rw [hin, commandEvents, List.map_replicate]; rfl)
  rw [List.length_replicate] at hrun
  have hslot : t.slot i = Descriptor.advance^[n] (s.slot i) := by
    rw [runInOrder_replicate, Option.some_inj] at horder
    rw [← horder, iterate_advance_slot]
    rfl
  obtain ⟨hW, hH, -⟩ := hinv.live_of_occupied hocc
  refine ⟨t, hrun, ?_⟩
  rw [hslot]
  have hx := Descriptor.axisRunX hocc
  have hy := Descriptor.axisRunY hocc
  exact ⟨fun hs h0 => ⟨hx.below_speed hs h0, hx.at_speed hW hs h0⟩,
    fun hs h0 => ⟨hy.below_speed hs h0, hy.at_speed hH hs h0⟩⟩

/-! ## The inverse step (R77) -/

/-- The offset of speed 1 moves at every ADVANCE, whatever the counter. -/
theorem Descriptor.advance_offX_of_speed_one {e : Descriptor} (hocc : e.occupied = true) (hW : 1 ≤ e.intW.toNat)
    (hs : e.speedX = 1) :
    (e.advance.offX.toNat : Int) = ((e.offX.toNat : Int) + e.stepX.toInt) % (e.intW.toNat : Int) := by
  rw [Descriptor.advance_of_occupied hocc]
  exact advanceOffset_due hW (by rw [hs]; decide) (by rw [hs]; exact Nat.le_add_left ..)

/-- The operands of an SB_UPDATE that turns the X motion round. -/
def reverseX (e : Descriptor) : SbFields := { keepAll with speedX := 1, stepX := -e.stepX }

theorem advance_reverse_advance_offX {c : Config} {e : Descriptor} (he : e.live c) (hocc : e.occupied = true)
    (hs : e.speedX = 1) (hstep : e.stepX ≠ 0x8000) :
    (updatedSlot (reverseX e) e.advance).advance.offX = e.offX := by
  obtain ⟨hocc', hW', -⟩ := Descriptor.of_still_eq e.advance_still
  obtain ⟨-, -, -, -, hoff', -⟩ := (Descriptor.advance_ok (Descriptor.ok_of_live hocc he)).1 (hocc'.trans hocc)
  obtain ⟨hW, -, -, -, hoff, -⟩ := he
  have hneg : -e.stepX ≠ 0x8000 := fun h => hstep (neg_eq_iff_eq_neg.mp h)
  have hback : (updatedSlot (reverseX e) e.advance).stepX = -e.stepX := if_neg hneg
  have hmoved := Descriptor.advance_offX_of_speed_one hocc hW hs
  have hkept : (updatedSlot (reverseX e) e.advance).offX = e.advance.offX :=
    reduceOffset_of_lt (off := e.advance.offX) hoff'
  have hreturned := Descriptor.advance_offX_of_speed_one (e := updatedSlot (reverseX e) e.advance)
    (hocc'.trans hocc) (hW'.symm ▸ hW) rfl
  refine BitVec.eq_of_toNat_eq (Int.ofNat_inj.mp ?_)
  calc ((updatedSlot (reverseX e) e.advance).advance.offX.toNat : Int)
      = (((e.offX.toNat : Int) + e.stepX.toInt) % e.intW.toNat + -e.stepX.toInt) % e.intW.toNat := by
        rw [hreturned, hkept, hmoved, hback, BitVec.toInt_neg_of_ne_intMin hstep]
        exact congrArg (fun d : Half => _ % (d.toNat : Int)) hW'
    _ = e.offX.toNat := by
        rw [Int.emod_add_emod, add_neg_cancel_right, ← Int.natCast_mod, Nat.mod_eq_of_lt hoff]

/-- Settles O43: the update is legal and resizes nothing, so the slot's own fields decide. -/
theorem oppositeStepReturnsTheOffset : Obligations.OppositeStepReturnsTheOffset := by
  intro s id hinv hi hocc hspeed hstep
  have hadv := execState_advance_slot s id.toNat
  have hinv' : (execState .advance s).Inv := execState_inv hinv.sound .advance
  have hocc' : ((execState .advance s).slot id.toNat).occupied = true := by
    rw [hadv, Descriptor.advance_occupied, hocc]
  have hkept (e : Descriptor) : resized e (updatedSlot (reverseX (s.slot id.toNat)) e) = false :=
    resized_eq_false_iff.mpr ⟨rfl, rfl⟩
  have hupdate := updateState_of_fits (s := execState .advance s) (x := reverseX (s.slot id.toNat)) rfl
    (State.liveSlot_iff.mpr ⟨hi, hocc'⟩) (by simp [hkept])
  refine ⟨execState .advance (updateState id (reverseX (s.slot id.toNat)) (execState .advance s)), rfl, ?_⟩
  rw [execState_advance_slot, hupdate, State.updated_slot, State.slot_setSlot_same _ _ (hinv'.slotCount.symm ▸ hi), hadv]
  exact advance_reverse_advance_offX (hinv.live_of_occupied hocc) hocc hspeed hstep

end Sys2Proof.Machine
end

section
/-! SUPPORT. RENDER: which slot a pixel of a dynamic layer shows (43_compositor R71, R72, R77). -/

namespace Sys2Proof.Machine

/-! ## One slot -/

/-- Inside the window the toroidal wrap of R71 needs no negative number. -/
theorem sourcePixel_of_inWindow {e : Descriptor} {x y : Nat} (h : e.inWindow x y) (bitmap : Memory) :
    sourcePixel e bitmap x y =
      sbPix e bitmap ((x - e.dispX.toNat + e.offX.toNat) % e.intW.toNat)
        ((y - e.dispY.toNat + e.offY.toNat) % e.intH.toNat) := by
  obtain ⟨hx, -, hy, -⟩ := h
  have hwrap {p d o m : Nat} (hd : d ≤ p) : emod ((p : Int) - d + o) m = (p - d + o) % m := by
    rw [emod, ← Int.natCast_sub hd, ← Int.natCast_add, ← Int.natCast_mod, Int.toNat_natCast]
  rw [sourcePixel, hwrap hx, hwrap hy]

/-- Settles O48: the window's pixels take their source pixels, which are all 1. -/
theorem allOnesRenderSetsExactlyTheWindow : Obligations.AllOnesRenderSetsExactlyTheWindow := by
  rintro c e bitmap dyn ⟨hW, hH, -⟩ hdyn hones x y hx hy
  obtain ⟨hin, hout⟩ := (renderSlot_spec e bitmap hdyn).2 x y hx hy
  refine ⟨?_, hout⟩
  by_cases h : e.inWindow x y
  · have hone : sourcePixel e bitmap x y = true := hones _ _ (emod_lt _ hW) (emod_lt _ hH)
    simp only [hin h, hone, h, true_or]
  · simp only [hout h, h, false_or]

/-! ## The slots in order -/

section Pixel

variable {s : State} (h : ∀ d, (s.dyn.get d).fits s.cfg.bitmapBytes) {d : Side} {x y : Nat} (hx : x < s.cfg.width)
  (hy : y < s.cfg.height)
include h hx hy

theorem pixRead_renderedUpTo_succ_of_covers {i : Nat} (hcov : s.covers d x y i) :
    pixRead s.cfg ((renderedUpTo s (i + 1)).get d) x y = sourcePixel (s.slot i) (s.region (.arena i)) x y := by
  obtain ⟨-, hocc, hside, hwin⟩ := hcov
  rw [renderedUpTo_succ, renderSides_get, if_pos ⟨hocc, hside⟩]
  exact ((renderSlot_spec _ _ (renderedUpTo_fits h i d)).2 x y hx hy).1 hwin

theorem pixRead_renderedUpTo_succ_of_not_covers {i : Nat} (hi : i < s.cfg.maxSb) (hcov : ¬s.covers d x y i) :
    pixRead s.cfg ((renderedUpTo s (i + 1)).get d) x y = pixRead s.cfg ((renderedUpTo s i).get d) x y := by
  rw [renderedUpTo_succ, renderSides_get]
  split_ifs with hside
  · exact ((renderSlot_spec _ _ (renderedUpTo_fits h i d)).2 x y hx hy).2
      fun hwin => hcov ⟨hi, hside.1, hside.2, hwin⟩
  · rfl

/-- Slots that do not cover a pixel leave what the slots below them put there. -/
theorem pixRead_renderedUpTo_of_uncovered {i n : Nat} (hin : i ≤ n) (hn : n ≤ s.cfg.maxSb)
    (hcov : ∀ j, i ≤ j → ¬s.covers d x y j) :
    pixRead s.cfg ((renderedUpTo s n).get d) x y = pixRead s.cfg ((renderedUpTo s i).get d) x y := by
  induction n, hin using Nat.le_induction with
  | base => rfl
  | succ n hin ih => rw [pixRead_renderedUpTo_succ_of_not_covers h hx hy hn (hcov n hin), ih (Nat.le_of_succ_le hn)]

/-- The highest covering slot wins (R72). -/
theorem pixRead_renderedDyn_of_highest {i : Nat} (hcov : s.covers d x y i) (htop : ∀ j, i < j → ¬s.covers d x y j) :
    pixRead s.cfg ((renderedDyn s).get d) x y = sourcePixel (s.slot i) (s.region (.arena i)) x y := by
  rw [renderedDyn_eq, pixRead_renderedUpTo_of_uncovered h hx hy (Nat.succ_le_of_lt hcov.1) le_rfl htop,
    pixRead_renderedUpTo_succ_of_covers h hx hy hcov]

theorem pixRead_renderedDyn_of_uncovered (hcov : ∀ i, ¬s.covers d x y i) :
    pixRead s.cfg ((renderedDyn s).get d) x y = pixRead s.cfg (s.dyn.get d) x y :=
  pixRead_renderedUpTo_of_uncovered h hx hy (Nat.zero_le _) le_rfl fun i _ => hcov i

end Pixel

/-- A pixel some slot covers has a highest slot that covers it: there are MAX_SB slots. -/
theorem State.exists_highest_covers {s : State} {d : Side} {x y : Nat} (h : ∃ i, s.covers d x y i) :
    ∃ i, s.covers d x y i ∧ ∀ j, i < j → ¬s.covers d x y j := by
  have hbdd : BddAbove {i | s.covers d x y i} := ⟨s.cfg.maxSb, fun i hi => hi.1.le⟩
  exact ⟨_, Nat.sSup_mem h hbdd, fun j hj hcov => absurd (le_csSup hbdd hcov) (Nat.not_le.mpr hj)⟩

theorem State.Inv.dyn_fits {s : State} (h : s.Inv) (d : Side) : (s.dyn.get d).fits s.cfg.bitmapBytes :=
  h.regionsOk (.dyn d)

/-- Settles O44: the pixel rule, slot by slot. -/
theorem renderShowsTheHighestCoveringSlot : Obligations.RenderShowsTheHighestCoveringSlot := by
  intro s hinv
  refine ⟨_, exec_eq _ s, rfl, rfl, fun d x y hx hy => ⟨fun i hcov htop => ?_, fun hcov => ?_⟩, rfl,
    execState_sameOutside _ s, rfl, rfl, execState_sameBytes _ s fun r hr => ?frame⟩
  case frame =>
    cases r with
    | dyn d => exact absurd ⟨d, rfl⟩ hr
    | _ => rfl
  · calc pixRead s.cfg ((renderedDyn s).get d) x y
        = sourcePixel (s.slot i) (s.region (.arena i)) x y :=
          pixRead_renderedDyn_of_highest hinv.dyn_fits hx hy hcov htop
      _ = _ := sourcePixel_of_inWindow hcov.2.2.2 _
  · exact pixRead_renderedDyn_of_uncovered hinv.dyn_fits hx hy hcov

/-- Settles O45: the second RENDER shows the same slots at the same pixels. -/
theorem renderTwiceIsRenderOnce : Obligations.RenderTwiceIsRenderOnce := by
  intro s hinv
  have hinv' : (renderState s).Inv := renderState_inv hinv.sound
  have hdyn : renderedDyn (renderState s) = renderedDyn s := by
    refine Sided.ext_get fun d => Memory.ext_pixels (renderedUpTo_fits hinv'.dyn_fits _ d)
      (renderedUpTo_fits hinv.dyn_fits _ d) fun x y hx hy => ?_
    by_cases hcov : ∃ i, s.covers d x y i
    · obtain ⟨i, hi, htop⟩ := State.exists_highest_covers hcov
      exact (pixRead_renderedDyn_of_highest hinv'.dyn_fits hx hy hi htop).trans
        (pixRead_renderedDyn_of_highest hinv.dyn_fits hx hy hi htop).symm
    · exact pixRead_renderedDyn_of_uncovered hinv'.dyn_fits hx hy fun i hi => hcov ⟨i, hi⟩
  have htwice : renderState (renderState s) = renderState s := by
    rw [renderState, hdyn]
    rfl
  exact ⟨renderState s, rfl, congrArg some htwice⟩

end Sys2Proof.Machine
end

section
/-! SUPPORT. The byte-at-a-time blender and its six alignment cases (43_compositor R73, R74, R78). -/

namespace Sys2Proof.Machine

/-! ## Bits of the blender's bytes -/

theorem getLsbD_lowMask (n : Nat) {b : Nat} (hb : b < 8) : (lowMask n).getLsbD b = decide (b < n) := by
  rw [lowMask, BitVec.getLsbD_ofNat, Nat.testBit_two_pow_sub_one]
  simp [hb]

/-- The mask's bits are the window's rows inside the byte. -/
theorem getLsbD_blendMask (c : Config) (e : Descriptor) (j : Nat) {b : Nat} (hb : b < 8) :
    (blendMask c e j).getLsbD b = decide (e.dispY.toNat ≤ 8 * j + b ∧ 8 * j + b < windowEndY c e) := by
  rw [blendMask, BitVec.getLsbD_and, BitVec.getLsbD_not, getLsbD_lowMask _ hb, getLsbD_lowMask _ hb, blendLo, blendHi,
    Bool.eq_iff_iff]
  simp only [hb, decide_true, Bool.true_and, Bool.and_eq_true, Bool.not_eq_true', decide_eq_true_eq,
    decide_eq_false_iff_not]
  omega

theorem getLsbD_foldl_setBit (f : Nat → Bool) (bs : List Nat) (v : Byte) {i : Nat} (hi : i < 8) :
    (bs.foldl (fun v b => setBit v b (f b)) v).getLsbD i = if i ∈ bs then f i else v.getLsbD i := by
  induction bs generalizing v with
  | nil => rfl
  | cons b bs ih =>
    rw [List.foldl_cons, ih, getLsbD_setBit _ _ hi]
    by_cases hmem : i ∈ bs
    · rw [if_pos hmem, if_pos (List.mem_cons_of_mem _ hmem)]
    · by_cases hib : i = b <;> simp [hmem, hib]

theorem getLsbD_gatherByte (f : Nat → Bool) {b : Nat} (hb : b < 8) : (gatherByte f).getLsbD b = f b := by
  rw [gatherByte, getLsbD_foldl_setBit f _ _ hb, if_pos (List.mem_range.mpr hb)]

/-- The combine is the eight bits from bit `k` of the upper byte on. -/
theorem getLsbD_blendCombine (lo hi : Byte) {k b : Nat} (hk : k < 8) (hb : b < 8) :
    (blendCombine lo hi k).getLsbD b = if b + k < 8 then lo.getLsbD (k + b) else hi.getLsbD (b + k - 8) := by
  unfold blendCombine
  by_cases h0 : k = 0
  · simp [h0, hb]
  · rw [if_neg h0, BitVec.getLsbD_or, BitVec.getLsbD_ushiftRight, BitVec.getLsbD_shiftLeft]
    split_ifs with hcut
    · simp [show b < 8 - k by omega]
    · simp [BitVec.getLsbD_of_ge lo (k + b) (by omega), hb, show ¬b < 8 - k by omega,
        show b - (8 - k) = b + k - 8 by omega]

/-! ## The source rows of a display byte -/

/-- Going down `b` rows in the torus. -/
theorem emod_emod_add (a : Int) {m : Nat} (hm : 1 ≤ m) (b : Nat) : emod ((emod a m : Int) + b) m = emod (a + b) m := by
  rw [emod, emod_cast a hm, Int.emod_add_emod, emod]

section Value

variable {e : Descriptor} (hH : 1 ≤ e.intH.toNat)
include hH

theorem emod_blendRow_add (j b : Nat) :
    emod ((blendRow e j : Int) + b) e.intH.toNat =
      emod (((8 * j + b : Nat) : Int) - e.dispY.toNat + e.offY.toNat) e.intH.toNat := by
  rw [blendRow, emod_emod_add _ hH]
  congr 1
  omega

/-- Where the eight rows do not cross the wrap of a padded column, the combine reads each of them: the row in the byte
`n0 / 8` or in the one after it, that of the column's top after the last. -/
theorem getLsbD_blendCombine_rows (bitmap : Memory) (ix : Nat) {n0 b : Nat} (hn0 : n0 < e.intH.toNat) (hb : b < 8)
    (hstraight : e.intH.toNat % 8 = 0 ∨ n0 + 7 < e.intH.toNat) :
    (blendCombine (bitmap.read (ix * ceilDiv e.intH.toNat 8 + n0 / 8))
        (bitmap.read (ix * ceilDiv e.intH.toNat 8 + (n0 / 8 + 1) % ceilDiv e.intH.toNat 8)) (n0 % 8)).getLsbD b =
      sbPix e bitmap ix (emod ((n0 : Int) + b) e.intH.toNat) := by
  have hrow : emod ((n0 : Int) + b) e.intH.toNat = (n0 + b) % e.intH.toNat := by
    rw [emod, ← Int.natCast_add, ← Int.natCast_mod, Int.toNat_natCast]
  rw [getLsbD_blendCombine _ _ (Nat.mod_lt _ (by decide)) hb, hrow, sbPix]
  have hcb : ceilDiv e.intH.toNat 8 = (e.intH.toNat + 7) / 8 := rfl
  rcases Nat.lt_or_ge (n0 + b) e.intH.toNat with hin | hwrap
  · rw [Nat.mod_eq_of_lt hin]
    split_ifs with hcut
    · rw [show (n0 + b) / 8 = n0 / 8 by omega, show (n0 + b) % 8 = n0 % 8 + b by omega]
    · rw [Nat.mod_eq_of_lt (a := n0 / 8 + 1) (by omega), show (n0 + b) / 8 = n0 / 8 + 1 by omega,
        show (n0 + b) % 8 = b + n0 % 8 - 8 by omega]
  · rw [Nat.mod_eq_sub_mod hwrap, Nat.mod_eq_of_lt (a := n0 + b - e.intH.toNat) (by omega), if_neg (by omega),
      show n0 / 8 + 1 = ceilDiv e.intH.toNat 8 by omega, Nat.mod_self,
      show (n0 + b - e.intH.toNat) / 8 = 0 by omega, show (n0 + b - e.intH.toNat) % 8 = b + n0 % 8 - 8 by omega]

/-- Bit `b` of the blender's value is the source pixel of display row `8j + b`. -/
theorem getLsbD_blendValue (bitmap : Memory) (x j : Nat) {b : Nat} (hb : b < 8) :
    (blendValue e bitmap x j).getLsbD b = sourcePixel e bitmap x (8 * j + b) := by
  rw [sourcePixel, ← emod_blendRow_add hH, blendValue]
  split_ifs with hstraight
  · simp only [blendStraight, Bool.or_eq_true, decide_eq_true_eq] at hstraight
    exact getLsbD_blendCombine_rows hH bitmap _ (emod_lt _ hH) hb hstraight
  · exact getLsbD_gatherByte _ hb

end Value

/-! ## The bytes the blender writes -/

/-- The eight rows of a display byte share its index (20_memory R25). -/
theorem byteIndex_row (c : Config) (x y : Nat) : c.byteIndex x y = c.byteIndex x (8 * (y / 8)) := by
  unfold Config.byteIndex
  rw [show 8 * (y / 8) / 32 = y / 32 by omega, show 8 * (y / 8) % 32 / 8 = y % 32 / 8 by omega]

theorem bitIndex_eq (y : Nat) : bitIndex y = y % 8 := by
  unfold bitIndex
  omega

theorem byteIndex_eq_iff {c : Config} {x x' y j : Nat} (hx : x < c.width) (hx' : x' < c.width) :
    c.byteIndex x' y = c.byteIndex x (8 * j) ↔ x' = x ∧ y / 8 = j := by
  rw [byteIndex_row]
  constructor
  · intro h
    have hbit : bitIndex (8 * (y / 8)) = bitIndex (8 * j) := by simp [bitIndex_eq]
    obtain ⟨h1, h2⟩ := Config.pixel_injective hx' hx h hbit
    exact ⟨h1, by omega⟩
  · rintro ⟨rfl, rfl⟩
    rfl

theorem fits_blendWrite {c : Config} (e : Descriptor) (bitmap : Memory) {m : Memory} (hm : m.fits c.bitmapBytes)
    {x j : Nat} (hx : x < c.width) (hj : 8 * j < c.height) : (blendWrite c e bitmap m x j).fits c.bitmapBytes := by
  rw [blendWrite]
  exact Memory.fits_write hm (Config.byteIndex_lt hx hj) _

/-- One masked write gives the byte's window pixels their source pixels and leaves every other pixel. -/
theorem pixRead_blendWrite {c : Config} {e : Descriptor} (hH : 1 ≤ e.intH.toNat) (bitmap : Memory) {m : Memory}
    (hm : m.wf) {x x' j : Nat} (hx : x < c.width) (hx' : x' < c.width) (y : Nat) :
    pixRead c (blendWrite c e bitmap m x j) x' y =
      if (x' = x ∧ y / 8 = j) ∧ e.dispY.toNat ≤ y ∧ y < windowEndY c e then sourcePixel e bitmap x' y
      else pixRead c m x' y := by
  have hb : y % 8 < 8 := Nat.mod_lt _ (by decide)
  rw [pixRead, blendWrite, Memory.read_write hm, bitIndex_eq]
  by_cases hbyte : x' = x ∧ y / 8 = j
  · obtain ⟨rfl, rfl⟩ := hbyte
    have hy : 8 * (y / 8) + y % 8 = y := Nat.div_add_mod y 8
    rw [if_pos (byteIndex_row c x' y), BitVec.getLsbD_or, BitVec.getLsbD_and, BitVec.getLsbD_and, BitVec.getLsbD_not,
      getLsbD_blendMask c e _ hb, getLsbD_blendValue hH _ _ _ hb, hy, pixRead, bitIndex_eq, ← byteIndex_row]
    by_cases hin : e.dispY.toNat ≤ y ∧ y < windowEndY c e <;> simp [hin, hb]
  · rw [if_neg (mt (byteIndex_eq_iff hx hx').mp hbyte), if_neg fun h => hbyte h.1, pixRead, bitIndex_eq]

/-- What a run of masked writes leaves. -/
theorem pixRead_foldl_blendWrite {c : Config} {e : Descriptor} (hH : 1 ≤ e.intH.toNat) (bitmap : Memory)
    (ps : List (Nat × Nat)) {m : Memory} (hm : m.fits c.bitmapBytes)
    (hps : ∀ p ∈ ps, p.1 < c.width ∧ 8 * p.2 < c.height) :
    (ps.foldl (fun m p => blendWrite c e bitmap m p.1 p.2) m).fits c.bitmapBytes ∧
      ∀ x y, x < c.width →
        pixRead c (ps.foldl (fun m p => blendWrite c e bitmap m p.1 p.2) m) x y =
          if (x, y / 8) ∈ ps ∧ e.dispY.toNat ≤ y ∧ y < windowEndY c e then sourcePixel e bitmap x y
          else pixRead c m x y := by
  induction ps generalizing m with
  | nil => exact ⟨hm, fun x y _ => by simp⟩
  | cons p ps ih =>
    obtain ⟨hx, hy⟩ := hps p (List.mem_cons_self ..)
    obtain ⟨ih1, ih2⟩ := ih (fits_blendWrite e bitmap hm hx hy) fun q hq => hps q (List.mem_cons_of_mem _ hq)
    refine ⟨ih1, fun x y hx' => ?_⟩
    rw [List.foldl_cons, ih2 x y hx', pixRead_blendWrite hH bitmap hm.1 hx hx']
    have hmem : (x, y / 8) ∈ p :: ps ↔ (x, y / 8) ∈ ps ∨ x = p.1 ∧ y / 8 = p.2 := by
      rw [List.mem_cons, Prod.ext_iff, or_comm]
    simp only [hmem, or_and_right, ite_or]

/-- The bytes the blender visits hold the window's pixels on the display. -/
theorem mem_windowBytes {c : Config} {e : Descriptor} {x j : Nat} :
    (x, j) ∈ windowBytes c e ↔ e.dispY.toNat < windowEndY c e ∧ (e.dispX.toNat ≤ x ∧ x < windowEndX c e) ∧
      firstByte e ≤ j ∧ j ≤ lastByte c e := by
  unfold windowBytes
  split_ifs with hrows
  · simp only [List.mem_flatMap, List.mem_map, List.mem_range'_1, Prod.mk.injEq]
    constructor
    · rintro ⟨x', hx, j', hj, rfl, rfl⟩
      omega
    · rintro ⟨-, hx, hj⟩
      exact ⟨x, by omega, j, by omega, rfl, rfl⟩
  · simp [hrows]

/-- Settles O46: after either form a pixel of the window shows its source pixel and every other pixel stays. -/
theorem blenderWritesTheSameBytes : Obligations.BlenderWritesTheSameBytes := by
  rintro c e bitmap dyn ⟨-, hH, -⟩ hdyn
  have hps : ∀ p ∈ windowBytes c e, p.1 < c.width ∧ 8 * p.2 < c.height := by
    intro p hp
    obtain ⟨hrows, hx, -, hj⟩ := mem_windowBytes.mp hp
    simp only [lastByte, windowEndX, windowEndY] at hrows hx hj
    omega
  obtain ⟨hfits, hblend⟩ := pixRead_foldl_blendWrite hH bitmap (windowBytes c e) hdyn hps
  obtain ⟨hfits', hrender⟩ := renderSlot_spec e bitmap hdyn
  refine Memory.ext_pixels hfits hfits' fun x y hx hy => ?_
  obtain ⟨hin, hout⟩ := hrender x y hx hy
  have hwritten : ((x, y / 8) ∈ windowBytes c e ∧ e.dispY.toNat ≤ y ∧ y < windowEndY c e) ↔ e.inWindow x y := by
    simp only [mem_windowBytes, firstByte, lastByte, windowEndX, windowEndY, Descriptor.inWindow]
    omega
  refine (hblend x y hx).trans ?_
  split_ifs with h
  · exact (hin (hwritten.mp h)).symm
  · exact (hout (mt hwritten.mpr h)).symm

/-! ## The six alignment cases -/

theorem windowPhase_lt (e : Descriptor) : windowPhase e < 8 := Nat.mod_lt _ (by decide)

theorem scrollPhase_lt (e : Descriptor) : scrollPhase e < 8 := Nat.mod_lt _ (by decide)

/-- In every one of the six cases the shift is the difference of the two phases (R74). -/
theorem caseShift_alignCase (c : Config) (e : Descriptor) (j : Nat) :
    caseShift e (alignCase c e j) = emod ((scrollPhase e : Int) - windowPhase e) 8 := by
  have hwp := windowPhase_lt e
  have hsp := scrollPhase_lt e
  unfold alignCase
  split_ifs with hw hs hs <;> simp only [caseShift, emod]
  · omega
  · omega
  · omega

/-- The first-byte and last-byte masks of R74's table are the window mask of R73. -/
theorem caseMask_eq_blendMask {c : Config} {e : Descriptor} {j : Nat} (hrows : e.dispY.toNat < windowEndY c e)
    (hfirst : firstByte e ≤ j) (hlast : j ≤ lastByte c e) : caseMask c e j = blendMask c e j := by
  refine BitVec.eq_of_getLsbD_eq fun b hb => ?_
  have hones {b : Nat} (hb : b < 8) : (0xFF : Byte).getLsbD b = true := by
    interval_cases b <;> rfl
  have htop : (if j = firstByte e then 0xFF#8 <<< windowPhase e else 0xFF).getLsbD b =
      decide (e.dispY.toNat ≤ 8 * j + b) := by
    split_ifs with hj
    · rw [BitVec.getLsbD_shiftLeft, show (0xFF#8).getLsbD (b - windowPhase e) = true from hones (by omega), hj,
        firstByte, windowPhase, Bool.eq_iff_iff]
      simp only [hb, decide_true, Bool.true_and, Bool.and_true, Bool.not_eq_true', decide_eq_true_eq,
        decide_eq_false_iff_not]
      omega
    · rw [hones hb, eq_comm, decide_eq_true_eq]
      unfold firstByte at hfirst hj
      omega
  have hbottom : (if j = lastByte c e then lowMask (windowEndY c e - 8 * lastByte c e) else 0xFF).getLsbD b =
      decide (8 * j + b < windowEndY c e) := by
    split_ifs with hj
    · rw [getLsbD_lowMask _ hb, ← hj, decide_eq_decide]
      omega
    · rw [hones hb, eq_comm, decide_eq_true_eq]
      unfold lastByte at hlast hj
      omega
  rw [getLsbD_blendMask c e j hb, caseMask, BitVec.getLsbD_and, htop, hbottom, ← Bool.decide_and]

/-- Some row of the window lies in every byte from the first to the last (R78). -/
theorem blendMask_ne_zero {c : Config} {e : Descriptor} {j : Nat} (hrows : e.dispY.toNat < windowEndY c e)
    (hfirst : firstByte e ≤ j) (hlast : j ≤ lastByte c e) : blendMask c e j ≠ 0 := by
  intro h
  have hbit := getLsbD_blendMask c e j (b := max e.dispY.toNat (8 * j) - 8 * j) (by unfold firstByte at hfirst; omega)
  unfold firstByte at hfirst
  unfold lastByte at hlast
  rw [h, show (0 : Byte).getLsbD _ = false from BitVec.getLsbD_zero, eq_comm, decide_eq_false_iff_not] at hbit
  omega

/-- Where the columns have no padding the wrap keeps the bit phase (R74). -/
theorem blendRow_mod_eight {e : Descriptor} (hH : 1 ≤ e.intH.toNat) (h8 : e.intH.toNat % 8 = 0) (j : Nat) :
    blendRow e j % 8 = emod ((scrollPhase e : Int) - windowPhase e) 8 := by
  have hrow : (blendRow e j : Int) = (8 * (j : Int) - e.dispY.toNat + e.offY.toNat) % e.intH.toNat := emod_cast _ hH
  have hphase := Int.emod_emod_of_dvd (8 * (j : Int) - e.dispY.toNat + e.offY.toNat)
    (show (8 : Int) ∣ e.intH.toNat by omega)
  rw [← hrow] at hphase
  unfold emod scrollPhase windowPhase
  omega

/-- Settles O47: the shift is the phase difference in every case, the masks agree bit by bit. -/
theorem alignmentCasesGiveShiftAndMask : Obligations.AlignmentCasesGiveShiftAndMask := by
  rintro c e j ⟨-, hH, -⟩ hrows hfirst hlast
  have hwp := windowPhase_lt e
  have hsp := scrollPhase_lt e
  rw [caseShift_alignCase]
  refine ⟨caseMask_eq_blendMask hrows hfirst hlast, blendMask_ne_zero hrows hfirst hlast,
    Nat.le_of_lt_succ (emod_lt _ (by decide)), fun h8 => blendRow_mod_eight hH h8 j, ?_⟩
  unfold emod
  omega

end Sys2Proof.Machine
end

section
/-! SUPPORT. Host control (44_host_control): what the destination selectors of 30_encoding R43 name, and the registers,
layers and arenas the host commands write or refuse to write. -/

namespace Sys2Proof.Machine

/-! ## The selectors (30_encoding R43) -/

theorem layerRegions?_eq_some_iff {sel : Byte} {rs : List Region} :
    layerRegions? sel = some rs ↔ (sel, rs) ∈ layerSelectors := by
  constructor
  · intro h
    unfold layerRegions? at h
    split_ifs at h <;> (injection h with h; subst_vars; decide)
  · exact (by decide : ∀ row ∈ layerSelectors, layerRegions? row.1 = some row.2) (sel, rs)

theorem toNat_of_layerRegions? {sel : Byte} {rs : List Region} (h : layerRegions? sel = some rs) :
    sel.toNat ≤ 2 ∨ (16 ≤ sel.toNat ∧ sel.toNat ≤ 18) ∨ (32 ≤ sel.toNat ∧ sel.toNat ≤ 34) :=
  (by decide : ∀ row ∈ layerSelectors, row.1.toNat ≤ 2 ∨ (16 ≤ row.1.toNat ∧ row.1.toNat ≤ 18) ∨
    (32 ≤ row.1.toNat ∧ row.1.toNat ≤ 34)) _ (layerRegions?_eq_some_iff.mp h)

theorem layerRegions?_eq_none {sel : Byte}
    (h : (3 ≤ sel.toNat ∧ sel.toNat ≤ 15) ∨ (19 ≤ sel.toNat ∧ sel.toNat ≤ 31) ∨ 35 ≤ sel.toNat) :
    layerRegions? sel = none := by
  by_contra hsome
  obtain ⟨rs, hrs⟩ := Option.ne_none_iff_exists'.mp hsome
  have := toNat_of_layerRegions? hrs
  omega

theorem ne_destNone_of_lt {sel : Byte} (h : sel.toNat < 255) : sel ≠ destNone := by
  rintro rfl
  exact absurd h (by decide)

theorem scrollId?_eq_some_iff {sel : Byte} {id : Nat} : scrollId? sel = some id ↔ id < 127 ∧ sel.toNat = 128 + id := by
  refine ⟨scrollId?_eq_some, fun ⟨hid, hsel⟩ => ?_⟩
  rw [scrollId?, if_pos ⟨by omega, ne_destNone_of_lt (by omega)⟩, hsel, Nat.add_sub_cancel_left]

theorem scrollId?_eq_none_of_lt {sel : Byte} (h : sel.toNat < 128) : scrollId? sel = none :=
  if_neg fun hsel => Nat.not_le.mpr h hsel.1

/-! ## SET_DEST (R80) -/

section SetDest

variable {s : State} {sel : Byte}

theorem setDestState_of_fixed (h : (layerRegions? sel).isSome ∨ sel = destNone) :
    setDestState sel s = (s.setDest sel).finish 0 := if_pos h

theorem setDestState_of_scroll {id : Nat} (hid : id < 127) (hsel : sel.toNat = 128 + id) :
    setDestState sel s = if s.liveSlot id then (s.setDest sel).finish 0 else s.raise .invalidRef := by
  rw [setDestState, layerRegions?_eq_none (by omega), scrollId?_eq_some_iff.mpr ⟨hid, hsel⟩]
  exact if_neg (by simpa using ne_destNone_of_lt (by omega))

theorem setDestState_of_reserved (hsel : sel.toNat < 128) (hlayer : layerRegions? sel = none) :
    setDestState sel s = s.raise .badOperand := by
  rw [setDestState, hlayer, scrollId?_eq_none_of_lt hsel]
  exact if_neg (by simpa using ne_destNone_of_lt (by omega))

end SetDest

/-- Settles O54: the fixed selectors need no slot, a SCROLL(id) its slot live. -/
theorem setDestAcceptsLegalSelectors : Obligations.SetDestAcceptsLegalSelectors := by
  intro s sel h
  rw [exec_eq, execState]
  rcases h with hfixed | ⟨hlo, hhi, hmax, hocc⟩
  · have hlisted : ∀ sel ∈ ([0x00, 0x01, 0x02, 0x10, 0x11, 0x12, 0x20, 0x21, 0x22, 0xFF] : List Byte),
        (layerRegions? sel).isSome ∨ sel = destNone := by decide
    rw [setDestState_of_fixed (hlisted sel hfixed)]
    rfl
  · have hlive := State.liveSlot_iff.mpr ⟨hmax, hocc⟩
    rw [setDestState_of_scroll (id := sel.toNat - 128) (by omega) (by omega), if_pos hlive]
    rfl

/-- Settles O55: a SCROLL(id) fails on its slot, any other unlisted selector on its value. -/
theorem setDestRefusals : Obligations.SetDestRefusals := by
  intro s sel
  refine ⟨fun hlo hhi hdead => ?_, fun hreserved => ?_⟩ <;> rw [exec_eq, execState]
  · have hfree : ¬s.liveSlot (sel.toNat - 128) = true := by
      rw [State.liveSlot_iff, not_and_or, Nat.not_lt, Bool.not_eq_true]
      exact hdead
    rw [setDestState_of_scroll (id := sel.toNat - 128) (by omega) (by omega), if_neg hfree]
    rfl
  · rw [setDestState_of_reserved (by omega) (layerRegions?_eq_none (by omega))]
    rfl

/-! ## LOAD (R84) -/

theorem loadTarget_of_none {s : State} (h : s.dest = destNone) : loadTarget s = none := if_pos h

theorem loadTarget_of_scroll {s : State} {id : Nat} (hid : id < 127) (hdest : s.dest.toNat = 128 + id) :
    loadTarget s = some ((s.slot id).bufSize.toNat, [.arena id]) := by
  rw [loadTarget, if_neg (ne_destNone_of_lt (by omega)), scrollId?_eq_some_iff.mpr ⟨hid, hdest⟩]

theorem loadTarget_of_layer {s : State} {rs : List Region} (h : layerRegions? s.dest = some rs) :
    loadTarget s = some (s.cfg.bitmapBytes, rs) := by
  have hsel := toNat_of_layerRegions? h
  rw [loadTarget, if_neg (ne_destNone_of_lt (by omega)), scrollId?_eq_none_of_lt (by omega), h, Option.getD_some]

section Load

variable {s : State} {len : Word} {data : List Byte} {rs : List Region}

theorem loadState_of_lengthMismatch (h : data.length ≠ len.toNat) : loadState len data s = s.raise .badLength :=
  if_pos h

theorem loadState_of_noTarget (hdata : data.length = len.toNat) (ht : loadTarget s = none) :
    loadState len data s = s.raise .invalidRef := by
  simp [loadState, hdata, ht]

theorem loadState_of_sizeMismatch {n : Nat} (hdata : data.length = len.toNat) (ht : loadTarget s = some (n, rs))
    (hsize : len.toNat ≠ n) : loadState len data s = s.raise .badLength := by
  simp [loadState, hdata, ht, hsize]

theorem loadState_of_fits (hdata : data.length = len.toNat) (ht : loadTarget s = some (len.toNat, rs)) :
    loadState len data s = (rs.foldl (fun t r => t.setRegion r ((t.region r).load data)) s).finish 0 := by
  simp [loadState, hdata, ht]

/-- What a LOAD of its destination's size does, a layer or an arena alike: the two kinds differ in `loadTarget` alone. -/
theorem exec_load_of_fits (hinv : s.Inv) (hdata : data.length = len.toNat) (ht : loadTarget s = some (len.toNat, rs))
    (hnodup : rs.Nodup) (hregion : ∀ r ∈ rs, s.hasRegion r) :
    ∃ t, exec (.load len data) s = .next t ∧ t.status = 0x00 ∧ t.result = 0 ∧
      (∀ r ∈ rs, ∀ j, t.readByte r j = if j < len.toNat then data.getD j 0 else s.readByte r j) ∧
      s.sameBytes t (fun r => r ∈ rs) ∧ t.dest = s.dest ∧ t.maskEn = s.maskEn ∧ t.slots = s.slots ∧ s.sameOutside t := by
  have hload := loadState_of_fits hdata ht
  obtain ⟨hdest, hmask, hslots⟩ := loadState_sameRegisters len data s
  refine ⟨_, exec_eq _ s, ?status, ?result, fun r hr j => ?written, fun r hr j => ?frame, hdest, hmask, hslots,
    execState_sameOutside _ s⟩ <;> rw [execState, hload]
  case status => rfl
  case result => rfl
  case written =>
    rw [State.readByte, State.finish_region,
      State.region_foldl_same (fun _ m => m.load data) rs hr hnodup s (hregion r hr),
      Memory.read_load (hinv.regionsOk r).1, hdata, State.readByte]
  case frame =>
    rw [State.readByte, State.finish_region, State.region_foldl_other (fun r => r) (fun r t => (t.region r).load data) rs
      (fun r' hr' => (ne_of_mem_of_not_mem hr' hr).symm), State.readByte]

end Load

theorem hasRegion_of_mem_layerSelectors {sel : Byte} {rs : List Region} (h : (sel, rs) ∈ layerSelectors) (s : State) :
    ∀ r ∈ rs, s.hasRegion r :=
  (by simp [layerSelectors, State.hasRegion] : ∀ row ∈ layerSelectors, ∀ r ∈ row.2, s.hasRegion r) _ h

/-- Settles O58: the regions of a layer selector are distinct and always there. -/
theorem loadWritesTheSelectedLayers : Obligations.LoadWritesTheSelectedLayers := by
  rintro s sel rs len data hinv hrow rfl hdata hsize
  have ht : loadTarget s = some (len.toNat, rs) := by
    rw [loadTarget_of_layer (layerRegions?_eq_some_iff.mpr hrow), hsize, Config.bitmapBytes]
  have hnodup : rs.Nodup := (by decide : ∀ row ∈ layerSelectors, row.2.Nodup) _ hrow
  obtain ⟨t, hexec, hstatus, hresult, hwritten, hrest⟩ :=
    exec_load_of_fits hinv hdata ht hnodup (hasRegion_of_mem_layerSelectors hrow s)
  exact ⟨t, hexec, hstatus, hresult, fun r hr j hj => (hwritten r hr j).trans (if_pos hj), hrest⟩

/-- Settles O59: DEST names a slot of the table, so its arena is there. -/
theorem loadWritesTheSelectedArena : Obligations.LoadWritesTheSelectedArena := by
  intro s id len data hinv hid hdest hdata hsize
  have ht : loadTarget s = some (len.toNat, [.arena id]) := by rw [loadTarget_of_scroll hid hdest, hsize]
  have harena : s.hasRegion (.arena id) := (hinv.sound.dest_live hid hdest).2.trans_eq hinv.arenaCount.symm
  obtain ⟨t, hexec, hstatus, hresult, hwritten, hframe, hrest⟩ :=
    exec_load_of_fits hinv hdata ht (List.nodup_singleton _) (List.forall_mem_singleton.mpr harena)
  have hbytes := hwritten (.arena id) (List.mem_singleton_self _)
  exact ⟨t, hexec, hstatus, hresult, fun j hj => (hbytes j).trans (if_pos hj),
    fun j hj => (hbytes j).trans (if_neg (Nat.not_lt.mpr hj)), fun r hr => hframe r (mt List.mem_singleton.mp hr), hrest⟩

/-- Settles O60: the data against the length field, then the destination, then its size. -/
theorem loadRefusals : Obligations.LoadRefusals := by
  intro s len data
  refine ⟨fun hdata => ?_, fun hdata hnone => ?_, fun id hdata hid hdest hsize => ?_,
    fun sel rs hdata hrow hdest hsize => ?_⟩ <;> rw [exec_eq, execState]
  · rw [loadState_of_lengthMismatch hdata]
    rfl
  · rw [loadState_of_noTarget hdata (loadTarget_of_none hnone)]
    rfl
  · rw [loadState_of_sizeMismatch hdata (loadTarget_of_scroll hid hdest) hsize]
    rfl
  · subst hdest
    rw [loadState_of_sizeMismatch hdata (loadTarget_of_layer (layerRegions?_eq_some_iff.mpr hrow)) hsize]
    rfl

/-! ## The remaining host commands (R79, R81 to R83) -/

theorem setMaskEnState_of_flag {en : Byte} (h : en.toNat ≤ 1) (s : State) :
    setMaskEnState en s = (s.setMaskEn (en.setWidth 1)).finish 0 := if_neg (Nat.not_lt.mpr h)

theorem setMaskEnState_of_illegal {en : Byte} (h : 2 ≤ en.toNat) (s : State) :
    setMaskEnState en s = s.raise .badOperand := if_pos h

/-- Settles O53: NOP is `State.finish` alone. -/
theorem nopReportsOk : Obligations.NopReportsOk := fun s => exec_eq .nop s

/-- Settles O56: both registers are narrower than RESULT. -/
theorem gettersReportTheRegister : Obligations.GettersReportTheRegister := fun s =>
  ⟨⟨_, exec_eq _ s, BitVec.toNat_setWidth_of_le (by decide), rfl⟩,
    ⟨_, exec_eq _ s, BitVec.toNat_setWidth_of_le (by decide), rfl⟩⟩

/-- Settles O57: the flag keeps an operand of 0 or 1. -/
theorem setMaskEnWritesTheFlag : Obligations.SetMaskEnWritesTheFlag := by
  intro s en
  refine ⟨fun hen => ?_, fun hen => ?_⟩ <;> rw [exec_eq, execState]
  · rw [setMaskEnState_of_flag hen]
    refine ⟨_, rfl, ?_, rfl⟩
    rw [State.finish_maskEn, State.setMaskEn_maskEn, BitVec.toNat_setWidth, Nat.mod_eq_of_lt (by omega)]
  · rw [setMaskEnState_of_illegal hen]
    rfl

end Sys2Proof.Machine
end

section
/-! SUPPORT. How a command ends (60_exceptions R86, R88) and the idle block (60_exceptions R93). -/

namespace Sys2Proof.Machine

/-! ## The two endings of a command -/

theorem Status.code_toNat_le (c : Status) : c.code.toNat ≤ 8 := by
  cases c <;> decide

/-- A command either raises in the state it started from, or finishes; it writes nothing before it raises
(60_exceptions R88). -/
theorem execState_raise_or_finish (i : Instr) (s : State) :
    (∃ c, execState i s = s.raise c) ∨ ∃ (u : State) (v : Word), execState i s = u.finish v := by
  cases i with
  | convert bus side row ram =>
    exact (convertState_cases bus side row ram s).imp_right fun ⟨_, _, _, _, _, _, ht⟩ => ⟨_, _, ht⟩
  | sbCreate x => exact (createState_cases x s).imp_right fun ⟨_, _, _, _, ht⟩ => ⟨_, _, ht⟩
  | sbUpdate id x => exact (updateState_cases id x s).imp_right fun ⟨_, _, _, _, _, ht⟩ => ⟨_, _, ht⟩
  | sbDelete id => exact (deleteState_cases id s).imp_right fun ⟨_, _, ht⟩ => ⟨_, _, ht⟩
  | merge side => exact (mergeState_cases side s).imp_right fun ⟨_, _, ht⟩ => ⟨_, _, ht⟩
  | setDest sel => exact (setDestState_cases sel s).imp_right fun ⟨_, ht⟩ => ⟨_, _, ht⟩
  | setMaskEn en => exact (setMaskEnState_cases en s).imp_right fun ⟨_, ht⟩ => ⟨_, _, ht⟩
  | load len data => exact (loadState_cases len data s).imp_right fun ⟨_, _, _, ht⟩ => ⟨_, _, ht⟩
  | nop | advance | render | getDest | getMaskEn => exact .inr ⟨_, _, rfl⟩

/-- Settles O16: a command that ends with a STATUS other than OK has raised. -/
theorem failedCommandsChangeOnlyStatusAndResult : Obligations.FailedCommandsChangeOnlyStatusAndResult := by
  intro i s
  have houtside := execState_sameOutside i s
  rw [exec_eq]
  rcases execState_raise_or_finish i s with ⟨c, ht⟩ | ⟨u, v, ht⟩ <;> rw [ht] at houtside ⊢
  · exact ⟨_, rfl, c.code_toNat_le, houtside, fun _ => rfl⟩
  · exact ⟨_, rfl, Status.ok.code_toNat_le, houtside, fun hfailed => absurd (u.finish_status v) hfailed⟩

/-! ## The idle block -/

/-- Settles O9: with no event to take, the step answers its own state. -/
theorem idleBlockHoldsItsState : Obligations.IdleBlockHoldsItsState := by
  intro s hcfg hin
  rw [step, runNext, if_pos hcfg, hin]

end Sys2Proof.Machine
end

section
/-! SUPPORT. Reset (70_reset_and_hazards R95, R96), and an LCD buffer over a whole transfer (R103). -/

namespace Sys2Proof.Machine

/-! ## The BUSY level of a bus in transfer -/

theorem runFrame_sameOutside {f : List Byte} {s t : State} (h : runFrame f s = .next t) : s.sameOutside t := by
  rcases runFrame_cases h with ⟨i, -, rfl⟩ | ⟨c, rfl⟩
  · exact execState_sameOutside i s
  · exact s.sameOutside_raise c

/-- A bus whose level is 1 exists: a level that is not there reads 0. -/
theorem State.lt_of_busyAt {s : State} {b : Nat} (h : s.busyAt b = true) : b < s.busy.length := by
  by_contra hb
  have habsent : s.busyAt b = false := List.getD_eq_default _ _ (not_lt.mp hb)
  exact Bool.false_ne_true (habsent.symm.trans h)

/-- BUSY[b] falls only by its own consumer's event or by a reset (10_state R21, 70_reset_and_hazards R96). -/
theorem runEvent_busyAt {e : Event} {s t : State} {b : Nat} (hbusy : s.busyAt b = true) (hreset : e ≠ .reset)
    (hfall : e ≠ .busy b false) (h : runEvent e s = .next t) : t.busyAt b = true := by
  rcases runEvent_cases h with ⟨f, -, hf⟩ | ⟨b', v, rfl, -, rfl⟩ | ⟨code, i, v, -, -, rfl⟩ | ⟨rfl, -⟩
  · obtain ⟨-, hlevels, -⟩ := runFrame_sameOutside hf
    rwa [State.busyAt, hlevels]
  · by_cases hb : b' = b
    · subst hb
      have hv : v = true := by simpa using hfall
      rw [State.busyAt_setBusy_same v (State.lt_of_busyAt hbusy), hv]
    · rwa [State.busyAt_setBusy_other s v (Ne.symm hb)]
  · exact hbusy
  · exact absurd rfl hreset

/-! ## The events still to come -/

/-- An event leaves the stream behind it as it is, a reset too (log 5). -/
theorem runEvent_inputs {e : Event} {s t : State} (h : runEvent e s = .next t) : t.inputs = s.inputs := by
  rcases runEvent_cases h with ⟨f, -, hf⟩ | ⟨b, v, -, -, rfl⟩ | ⟨code, i, v, -, -, rfl⟩ | ⟨-, rfl⟩
  · obtain ⟨-, -, hin, -⟩ := runFrame_sameOutside hf
    exact hin
  · rfl
  · rfl
  · rfl

theorem step_cons {s t : State} {e : Event} {es : List Event} (hin : s.inputs = e :: es) (h : step s = .next t) :
    runEvent e (s.setInputs es) = .next t := by
  obtain ⟨hcfg, -⟩ := step_cases h
  rwa [step_of_inputs hcfg hin] at h

theorem run_succ_cases {s t : State} {n : Nat} (h : Host.Core.run core (n + 1) s = .next t) :
    ∃ u, step s = .next u ∧ Host.Core.run core n u = .next t := by
  cases hstep : step s with
  | next u => exact ⟨u, rfl, run_succ_of_step hstep n ▸ h⟩
  | fault r => cases r
  | refused r => simp [Host.Core.run, core, hstep] at h

/-! ## A transfer -/

/-- A transfer on bus `b` is under way, and its LCD buffer holds `m` (20_memory R32). -/
def State.Sending (s : State) (b : Nat) (m : Memory) : Prop := s.busyAt b = true ∧ s.region (.lcd b) = m

theorem runEvent_sending {e : Event} {s t : State} {b : Nat} {m : Memory} (hs : s.Sending b m)
    (he : e ≠ .reset ∧ e ≠ .busy b false) (h : runEvent e s = .next t) : t.Sending b m := by
  obtain ⟨hbusy, hbytes⟩ := hs
  obtain ⟨hreset, hfall⟩ := he
  exact ⟨runEvent_busyAt hbusy hreset hfall h, (runEvent_region_lcd_of_busy hbusy hreset h).trans hbytes⟩

/-- A transfer lasts over any run of events but a reset and its own end, its bytes with it; by induction on the
events, the first one by `runEvent_sending`. -/
theorem run_sending {b : Nat} {m : Memory} {es : List Event} (hes : ∀ e ∈ es, e ≠ .reset ∧ e ≠ .busy b false)
    {s t : State} {rest : List Event} (hs : s.Sending b m) (hin : s.inputs = es ++ rest)
    (h : Host.Core.run core es.length s = .next t) : t.Sending b m := by
  induction es generalizing s with
  | nil =>
    injection h with h
    exact h ▸ hs
  | cons e es ih =>
    obtain ⟨he, hes⟩ := List.forall_mem_cons.mp hes
    obtain ⟨u, hstep, hrun⟩ := run_succ_cases h
    have hu : runEvent e (s.setInputs (es ++ rest)) = .next u := step_cons hin hstep
    have hsent : (s.setInputs (es ++ rest)).Sending b m := hs
    exact ih hes (runEvent_sending hsent he hu) (runEvent_inputs hu) hrun

/-- Settles O21: the transfer that begins with the bytes of the first state is still under way in the last. -/
theorem lcdBufferKeptThroughTheTransfer : Obligations.LcdBufferKeptThroughTheTransfer := by
  intro s t b es rest hbusy hin hes hrun
  have hs : s.Sending b (s.region (.lcd b)) := ⟨hbusy, rfl⟩
  obtain ⟨hbusy', hbytes⟩ := run_sending hes hs hin hrun
  exact ⟨hbusy', fun j => by rw [State.readByte, hbytes, State.readByte]⟩

/-! ## Reset -/

section Reset

variable (c : Config) (es : List Event)

@[simp] theorem State.resetWith_slot (i : Nat) : (State.resetWith c es).slot i = Descriptor.free := by
  simp [State.slot, List.getD_eq_getElem?_getD]

@[simp] theorem State.resetWith_region (r : Region) : (State.resetWith c es).region r = [] := by
  cases r with
  | arena i => simp [State.region, List.getD_eq_getElem?_getD]
  | lcd b => simp [State.region, List.getD_eq_getElem?_getD]
  | static d | mask d | dyn d | disp d => cases d <;> rfl

@[simp] theorem State.resetWith_readByte (r : Region) (j : Nat) : (State.resetWith c es).readByte r j = 0 :=
  State.readByte_of_region_nil (State.resetWith_region c es r) j

@[simp] theorem State.resetWith_busyAt (b : Nat) : (State.resetWith c es).busyAt b = false := by
  simp [State.busyAt, List.getD_eq_getElem?_getD]

end Reset

/-- Settles O14: reset with the default parameters and no event to come. -/
theorem resetStateHoldsTheSpecValues : Obligations.ResetStateHoldsTheSpecValues :=
  ⟨rfl, rfl, rfl, rfl, State.resetWith_slot _ _, State.resetWith_readByte _ _, State.resetWith_busyAt _ _⟩

/-- Settles O13: the step answers the reset state of the same parameters, with the events behind the reset. -/
theorem resetEventResetsTheSystem : Obligations.ResetEventResetsTheSystem := by
  intro s es hcfg hin
  have hstep : step s = .next (State.resetWith s.cfg es) := step_of_inputs hcfg hin
  exact ⟨_, hstep, rfl, rfl, rfl, rfl, rfl, rfl, State.resetWith_slot _ _, State.resetWith_readByte _ _,
    State.resetWith_busyAt _ _⟩

/-- Settles O24: the default parameters are admitted, so both parts are `State.resetWith_inv`. -/
theorem resetHasTheInvariant : Obligations.ResetHasTheInvariant :=
  ⟨State.resetWith_inv (c := Config.default) (by decide) [], fun _ es hc => State.resetWith_inv hc es⟩

end Sys2Proof.Machine
end
